-- ==== Sys2Proof/Word.lean ====
section
/-! DEFINITION. The machine's word types. -/

namespace Sys2Proof

/-- A byte: the unit of the message store and of host memory (spec 20_memory.md R64, R72). -/
abbrev Byte := BitVec 8

/-- A 32-bit word: one GPIO or interrupt-controller register, one command word
(20_memory.md R64; 30_encoding.md R98, R99). -/
abbrev Word := BitVec 32

end Sys2Proof
end

