-- ==== Sys2Proof/Syntax.lean ====
section
/-! DEFINITION. The instructions: the 23 rows of spec/opcode_table.json, 16 of format STATE (30_encoding.md R96) and 7 of
format CMD (R99, R100). -/

namespace Sys2Proof

/-- One message of an XFER: a MSGDESC with the bytes that follow it (30_encoding.md R98); `len` is the number of bytes.
`addr` has 8 bits so that a call with an address above 0x7F can be written down (45_port_lifecycle.md R201, vector
C-XFER-ADDR); `rsvd` keeps the descriptor's reserved bits for the check of R201. -/
structure Msg where
  addr : BitVec 8
  rd : Bool
  rsvd : BitVec 8
  bytes : List Byte
  deriving DecidableEq, Repr

/-- One constructor per row of the opcode table. A STATE row is one PortStep of the port being stepped, with that
state's action (40_tick_dispatch.md R122; 30_encoding.md R107); a CMD row is one host command or environment event. -/
inductive Instr where
  | idle
  | start
  | start2
  | addr
  | write
  | read
  | wbit
  | rbit
  | wack
  | rack
  | stop
  | stop2
  | stop3
  | restart
  | wait
  | complete
  /-- Engine creation (70_reset_and_hazards.md R270). -/
  | init
  /-- `request_port(id, sda, scl)` (45_port_lifecycle.md R190). -/
  | req (port : BitVec 4) (sda scl : BitVec 8)
  /-- `release_port(id)` (45_port_lifecycle.md R205). -/
  | rel (port : BitVec 4)
  /-- `start_xfer(id, messages, cb, ctx)` (45_port_lifecycle.md R198); the message count is the list's length, and `cb` and
  `ctx` travel out of band (30_encoding.md R100). -/
  | xfer (port : BitVec 4) (msgs : List Msg)
  /-- Engine destruction (45_port_lifecycle.md R208). -/
  | unload
  /-- One delivered timer tick (40_tick_dispatch.md R120). -/
  | tick
  /-- One delivery of the companion interrupt (46_completion_service.md R215). -/
  | sirq
  deriving DecidableEq, Repr

/-- The two formats of the opcode table (30_encoding.md R90, R107). -/
inductive Format where
  /-- A 4-bit state code, matched against `P.state`. -/
  | state
  /-- A 32-bit command word, matched in the command stream. -/
  | cmd
  deriving DecidableEq, Repr

/-- Why a command word selects nothing (30_encoding.md R103). -/
inductive DecodeError where
  /-- `op` is 0x0, 0x6, 0x7 or 0xA to 0xF. -/
  | reservedOp
  /-- `rsvd` or a field the command does not use is not 0. -/
  | reservedField
  deriving DecidableEq, Repr

/-- What the decoder answers: an instruction and its size in bytes, or a rejection by name. -/
inductive Decoded where
  | ok (i : Instr) (size : Nat)
  | bad (e : DecodeError)
  deriving DecidableEq, Repr

/-- The format an instruction's words have. -/
def Instr.format : Instr → Format
  | .idle | .start | .start2 | .addr | .write | .read | .wbit | .rbit | .wack | .rack | .stop | .stop2 | .stop3
  | .restart | .wait | .complete => .state
  | .init | .req _ _ _ | .rel _ | .xfer _ _ | .unload | .tick | .sirq => .cmd

end Sys2Proof
end

