-- ==== Sys2Proof/WellFormed.lean ====
section
/-! DEFINITION. Which instructions are the reading of some words (30_encoding.md R94, R98, R99, R100). -/

namespace Sys2Proof

/-- A message that a MSGDESC can hold: a 7-bit address and a 16-bit length (30_encoding.md R98). Reserved bits that are
not 0 can be written in a descriptor; XFER refuses them (45_port_lifecycle.md R201). -/
def Msg.wf (m : Msg) : Bool := decide (m.addr.toNat ≤ 0x7F) && decide (m.bytes.length ≤ 0xFFFF)

/-- An instruction that words can hold: of XFER, at most 3 messages (the count field is `a[1:0]`, R100), each one a
MSGDESC can hold. The other operands fit by their types. -/
def Instr.wf : Instr → Bool
  | .xfer _ msgs => decide (msgs.length ≤ 3) && msgs.all Msg.wf
  | .idle | .start | .start2 | .addr | .write | .read | .wbit | .rbit | .wack | .rack | .stop | .stop2 | .stop3
  | .restart | .wait | .complete | .init | .req _ _ _ | .rel _ | .unload | .tick | .sirq => true

end Sys2Proof
end

