-- ==== Sys2Proof/Decode.lean ====
section
/-! DEFINITION. The decoder (30_encoding.md R96 to R100, R103, R104, R107) and, after it, the encoder. A decoder reads from
a byte source, so that it is total on any bytes and reads no more of them than the instruction has. -/

namespace Sys2Proof

/-- The 32-bit word whose first byte is at `a`, least significant byte first (DESIGN CHOICE, assumption 11: the spec gives
command words no byte order, 20_memory.md R71). -/
def wordAt (rd : Nat → Byte) (a : Nat) : Word := rd (a + 3) ++ rd (a + 2) ++ rd (a + 1) ++ rd a

/-- The bytes of a word in the stream's order. -/
def wordToBytes (w : Word) : List Byte :=
  [w.extractLsb' 0 8, w.extractLsb' 8 8, w.extractLsb' 16 8, w.extractLsb' 24 8]

/-- A list of bytes as a byte source; past its end it reads 0. -/
def listSource (bs : List Byte) : Nat → Byte := fun i => bs.getD i 0

/-- The low `k` bytes of a number, least significant first. -/
def natToBytes : Nat → Nat → List Byte
  | 0, _ => []
  | k + 1, w => BitVec.ofNat 8 w :: natToBytes k (w / 256)

/-- The STATE format: all 16 codes are assigned (30_encoding.md R96). -/
def decodeState (c : BitVec 4) : Instr :=
  match c.toNat with
  | 0 => .idle
  | 1 => .start
  | 2 => .start2
  | 3 => .addr
  | 4 => .write
  | 5 => .read
  | 6 => .wbit
  | 7 => .rbit
  | 8 => .wack
  | 9 => .rack
  | 10 => .stop
  | 11 => .stop2
  | 12 => .stop3
  | 13 => .restart
  | 14 => .wait
  | _ => .complete

/-- The `n` messages that start at `a`, each a MSGDESC followed by its `len` bytes (30_encoding.md R98, R104), and the
address after the last. -/
def decodeMsgs (rd : Nat → Byte) : Nat → Nat → List Msg × Nat
  | 0, a => ([], a)
  | n + 1, a =>
    let w := wordAt rd a
    let len := (w.extractLsb' 8 16).toNat
    let rest := decodeMsgs rd n (a + 4 + len)
    ({ addr := (w.extractLsb' 0 7).zeroExtend 8
       rd := w.getLsbD 7
       rsvd := w.extractLsb' 24 8
       bytes := (List.range len).map fun j => rd (a + 4 + j) } :: rest.1, rest.2)

/-- `i` when every unused bit given is 0, else the rejection of R103. -/
def ifUnusedZero (unused : Bool) (i : Decoded) : Decoded := if unused then i else .bad .reservedField

/-- The CMD format (30_encoding.md R99, R100, R103, R107), at address `a` of a byte source. -/
def decodeCmd (rd : Nat → Byte) (a : Nat) : Decoded :=
  let w := wordAt rd a
  let port := w.extractLsb' 4 4
  let fa := w.extractLsb' 8 8
  let fb := w.extractLsb' 16 8
  if w.extractLsb' 24 8 ≠ 0 then .bad .reservedField
  else match (w.extractLsb' 0 4).toNat with
  | 1 => ifUnusedZero (port == 0 && fa == 0 && fb == 0) (.ok .init 4)
  | 2 => .ok (.req port fa fb) 4
  | 3 => ifUnusedZero (fa == 0 && fb == 0) (.ok (.rel port) 4)
  | 4 =>
    let msgs := decodeMsgs rd (w.extractLsb' 8 2).toNat (a + 4)
    ifUnusedZero (w.extractLsb' 10 6 == 0 && fb == 0) (.ok (.xfer port msgs.1) (msgs.2 - a))
  | 5 => ifUnusedZero (port == 0 && fa == 0 && fb == 0) (.ok .unload 4)
  | 8 => ifUnusedZero (port == 0 && fa == 0 && fb == 0) (.ok .tick 4)
  | 9 => ifUnusedZero (port == 0 && fa == 0 && fb == 0) (.ok .sirq 4)
  | _ => .bad .reservedOp

/-- The decoder on any bytes: a STATE code is the low 4 bits of one byte, a CMD is one word and, of an XFER, its messages. -/
def decode (f : Format) (bs : List Byte) : Decoded :=
  match f with
  | .state => .ok (decodeState ((listSource bs 0).extractLsb' 0 4)) 1
  | .cmd => decodeCmd (listSource bs) 0

/-- The instruction read from an instruction whose bits are `w`, numbered as the opcode table numbers them. A row the table
gives at most 8 bits is read in the STATE format, a wider one in the CMD format: the two formats share their codes and are
told apart by where they stand (30_encoding.md R107). Assumption 19. -/
def decodeTableWord (nbits w : Nat) : Option Instr :=
  match decode (if nbits ≤ 8 then .state else .cmd) (natToBytes ((nbits + 7) / 8) w) with
  | .ok i _ => some i
  | .bad _ => none

/-! The encoder, from the same tables. -/

/-- A CMD word from its fields; `rsvd` is 0 (30_encoding.md R99). -/
def cmdWord (op port : BitVec 4) (a b : BitVec 8) : Word := (0 : BitVec 8) ++ b ++ a ++ port ++ op

/-- A MSGDESC word (30_encoding.md R98). -/
def msgWord (m : Msg) : Word :=
  m.rsvd ++ BitVec.ofNat 16 m.bytes.length ++ BitVec.ofBool m.rd ++ m.addr.extractLsb' 0 7

/-- A message in the stream: its descriptor and its bytes (30_encoding.md R104). -/
def encodeMsg (m : Msg) : List Byte := wordToBytes (msgWord m) ++ m.bytes

/-- The STATE code of a STATE row (30_encoding.md R96); of a CMD row, 0. -/
def stateCode : Instr → BitVec 4
  | .idle => 0x0
  | .start => 0x1
  | .start2 => 0x2
  | .addr => 0x3
  | .write => 0x4
  | .read => 0x5
  | .wbit => 0x6
  | .rbit => 0x7
  | .wack => 0x8
  | .rack => 0x9
  | .stop => 0xA
  | .stop2 => 0xB
  | .stop3 => 0xC
  | .restart => 0xD
  | .wait => 0xE
  | .complete => 0xF
  | .init | .req _ _ _ | .rel _ | .xfer _ _ | .unload | .tick | .sirq => 0

/-- The bytes of an instruction: one byte that holds a STATE code, or the command's words in the stream's order. -/
def encode (i : Instr) : List Byte :=
  match i with
  | .init => wordToBytes (cmdWord 1 0 0 0)
  | .req port sda scl => wordToBytes (cmdWord 2 port sda scl)
  | .rel port => wordToBytes (cmdWord 3 port 0 0)
  | .xfer port msgs => wordToBytes (cmdWord 4 port (BitVec.ofNat 8 msgs.length) 0) ++ msgs.flatMap encodeMsg
  | .unload => wordToBytes (cmdWord 5 0 0 0)
  | .tick => wordToBytes (cmdWord 8 0 0 0)
  | .sirq => wordToBytes (cmdWord 9 0 0 0)
  | .idle | .start | .start2 | .addr | .write | .read | .wbit | .rbit | .wack | .rack | .stop | .stop2 | .stop3
  | .restart | .wait | .complete => [(stateCode i).zeroExtend 8]

end Sys2Proof
end

