-- ==== Sys2Proof/Config.lean ====
section
/-! DEFINITION. What a platform instance fixes (the OPEN parameters of 00_scope.md R7, R8) and the free values: opaque
constants of which nothing can be proved, so that a claim holds whatever they are. -/

namespace Sys2Proof

/-- The constraints of 00_scope.md R8 that the form of a field does not build in: distinct interrupt-controller offsets, a
positive MAX_MSG_LEN, a status pin below NGPIO. The arguments are the fields of `Platform` of these names. -/
def platformOk (intcAck intcEnset intcEnclr : Nat) (maxMsgLen : BitVec 16) (statusPin ngpioPred : BitVec 8) : Bool :=
  intcAck != intcEnset && intcAck != intcEnclr && intcEnset != intcEnclr
    && maxMsgLen != 0 && decide (statusPin.toNat ≤ ngpioPred.toNat)

/-- The OPEN parameters of 00_scope.md R7, under the constraints of R8: those that a comment names are built into the form
of the field, the others are the field `ok`. INIT_LINES is `Config.initDir` and `Config.initLatch`. The default values only
show that a platform exists. -/
structure Platform where
  /-- NGPIO - 1, so that NGPIO is 1 to 256 (R8). -/
  ngpioPred : BitVec 8 := 0
  /-- GPIO_BASE. -/
  gpioBase : Nat
  /-- INTC_BASE. -/
  intcBase : Nat
  /-- INTC_ACK_OFF / 4: the offset is a multiple of 4 (R8). -/
  intcAck : Nat := 0
  /-- INTC_ENSET_OFF / 4. -/
  intcEnset : Nat := 1
  /-- INTC_ENCLR_OFF / 4. -/
  intcEnclr : Nat := 2
  /-- TIMER_IRQ: the line number, as the value the indexed registers take (10_state.md R32). -/
  timerIrq : Word
  /-- STATUS_PIN. -/
  statusPin : BitVec 8 := 0
  /-- STATUS_IRQ. -/
  statusIrq : Nat
  /-- DIR_IN_BIT: the value of a direction bit that means input, 0 or 1 (R8). -/
  dirInBit : BitVec 1
  /-- MAX_MSG_LEN, at most 65535 (R8). -/
  maxMsgLen : BitVec 16 := 1
  /-- NOACK_CODE is minus this number minus 1, so that it is negative (R8). -/
  noackPred : Nat
  /-- TICK_PERIOD - 1, so that it is positive (R8). No rule of the machine reads it (60_exceptions.md R253). -/
  tickPeriodPred : Nat
  /-- ENGINE_YIELDS: whether the engine, as a vector owner, accepts yield and reacquire (60_exceptions.md R248). -/
  engineYields : Bool
  /-- The constraints of R8 on several fields together. -/
  ok : platformOk intcAck intcEnset intcEnclr maxMsgLen statusPin ngpioPred = true := by decide
  deriving DecidableEq, Repr, Inhabited

/-- NGPIO. -/
def Platform.ngpio (p : Platform) : Nat := p.ngpioPred.toNat + 1
/-- INTC_ACK_OFF. -/
def Platform.intcAckOff (p : Platform) : Nat := 4 * p.intcAck
/-- INTC_ENSET_OFF. -/
def Platform.intcEnsetOff (p : Platform) : Nat := 4 * p.intcEnset
/-- INTC_ENCLR_OFF. -/
def Platform.intcEnclrOff (p : Platform) : Nat := 4 * p.intcEnclr
/-- NOACK_CODE. -/
def Platform.noackCode (p : Platform) : Int := -(p.noackPred : Int) - 1
/-- TICK_PERIOD. -/
def Platform.tickPeriod (p : Platform) : Nat := p.tickPeriodPred + 1

/-- The platform the machine runs on: the OPEN parameters, of which the spec gives no value (91_not_in_source.md N2, N4 to
N11, N36) and R8 the constraints, which hold of it by its type. Assumption 8. -/
opaque Config.platform : Platform

/-- INIT_LINES, the direction words: the platform left them so (70_reset_and_hazards.md R271, D38), one word
for each of the 8 bank pairs. Assumption 13. -/
opaque Config.initDir : Nat → Word

/-- INIT_LINES, the output latches. Assumption 13. -/
opaque Config.initLatch : Nat → Word

/-- FREE VALUE: `bus_bit(i)`, the slave's answer to the n-th sample on port i when no answer is supplied (10_state.md R39,
I10). Assumption 9. -/
opaque Config.busBit : Nat → Nat → Bool

/-- FREE VALUE: the draw `glitch_edge` (46_completion_service.md R216, I11). Assumption 9. -/
opaque Config.glitchEdge : Nat → Bool

/-- FREE VALUE: the draw `platform_irq_request` (45_port_lifecycle.md R195, I12): none is Ok, some c is Fail(c).
Assumption 9. -/
opaque Config.irqRequest : Nat → Option Int

/-- FREE VALUE: the draw `vector_claim` (70_reset_and_hazards.md R270, I13): true is Ok, false is Busy. Assumption 9. -/
opaque Config.vectorClaim : Nat → Bool

/-- FREE VALUE: `E.timer_pending` at engine creation (10_state.md R40, I14). Assumption 14. -/
opaque Config.timerPendingAtInit : Nat → Bool

/-- FREE VALUE: what BufRead yields outside the message (20_memory.md R72: the fault InvariantBroken; no value stated), by
port, message slot and index. Assumption 7. -/
opaque Config.bufOutOfRange : Nat → Nat → Nat → Byte

/-- FREE VALUE: what a refused register read yields (20_memory.md R61, R64), by offset. Assumption 22. -/
opaque Config.refusedRead : Nat → Word

end Sys2Proof
end

