-- ==== Sys2Proof/Machine/State.lean ====
section
/-! DEFINITION. The machine's state as plain data, the reasons of its model outcomes, and the state after reset. -/

namespace Sys2Proof.Machine

/-- Why a call has no meaning (60_exceptions.md R235). A refusal is recorded in `State.refused` and changes nothing else
(R236); it errs toward unprovable when a claim takes "not refused" as its premise. Assumption 6. -/
inductive Refusal where
  /-- An instruction without a meaning. No arm of this model raises it. Safe. -/
  | notModelled (mnemonic : String)
  /-- REQ with equal, out-of-range, status or shared pins (45_port_lifecycle.md R194). Safe. -/
  | pinConflict
  /-- XFER with an address above 0x7F, a length above MAX_MSG_LEN or reserved descriptor bits (R201). Safe. -/
  | badMessage
  /-- REL of an unrequested or out-of-range port (R205, R207). Safe. -/
  | releaseUnrequested
  /-- UNLOAD while not ready or while a port is requested (R208). Safe. -/
  | unloadWhileInUse
  /-- Two host calls on one port overlapping (R209): raised by the schedule. Safe. -/
  | overlappingCall
  /-- A command word with a reserved op, reserved bits or an unused field not 0 (30_encoding.md R103): raised by the
  schedule. Safe. -/
  | reservedEncoding
  /-- A register offset that is no multiple of 4 (20_memory.md R64), unreachable. Safe. -/
  | misalignedAccess
  /-- A GPIO offset or direction of access that the sequencer does not use (20_memory.md R61), unreachable. The name is the
  model's. Safe. -/
  | unmappedAccess
  /-- INIT while ready (70_reset_and_hazards.md R270). Safe. -/
  | reInit
  deriving DecidableEq, Repr

/-- The fault of 60_exceptions.md R237. It is recorded in `State.faults`. Assumption 7. -/
inductive Fault where
  /-- BufRead or BufWrite outside the message (20_memory.md R72), unreachable. Safe. -/
  | invariantBroken
  deriving DecidableEq, Repr

/-- The error kinds (60_exceptions.md R230, 30_encoding.md R102). -/
inductive ErrKind where
  | notReady
  | busy
  | invalidArgument
  /-- Delivered as a result code by the callback, never returned. -/
  | noAck
  /-- The boundary's: logged, never returned (60_exceptions.md R251). -/
  | misuse
  | resourceError (code : Int)
  deriving DecidableEq, Repr

/-- A command's return value (30_encoding.md R102). -/
inductive Ret where
  | ok
  | err (k : ErrKind)
  deriving DecidableEq, Repr

/-- The agent whose step makes a register write (20_memory.md R70). -/
inductive Agent where
  | tick
  | companion
  | host
  deriving DecidableEq, Repr

/-- The two memory-mapped devices (60_exceptions.md R254). -/
inductive Device where
  | gpio
  | intc
  deriving DecidableEq, Repr

/-- One entry of the pin trace (20_memory.md R70), with the device the offset belongs to. Assumption 27. -/
structure TraceEntry where
  tick : Nat
  agent : Agent
  device : Device
  offset : Nat
  value : Word
  deriving DecidableEq, Repr

/-- The registers of a GPIO pair block (10_state.md R31). -/
inductive GpioReg where
  | dir
  | set
  | clr
  | inp
  deriving DecidableEq, Repr

/-- A GpioPin record (10_state.md R24): byte offsets from GPIO_BASE and a one-bit mask. -/
structure GpioPin where
  dirOff : Nat
  setOff : Nat
  clrOff : Nat
  inOff : Nat
  mask : Word
  deriving DecidableEq, Repr

/-- The 16 sequencer states (30_encoding.md R96). -/
inductive SeqState where
  | idle
  | start
  | start2
  | addr
  | write
  | read
  | wbit
  | rbit
  | wack
  | rack
  | stop
  | stop2
  | stop3
  | restart
  | wait
  | complete
  deriving DecidableEq, Repr

/-- A message record without its buffer (10_state.md R23); the buffer's bytes are in the message store. -/
structure MsgRec where
  addr : BitVec 7
  rd : Bool
  len : BitVec 16
  deriving DecidableEq, Repr

/-- A port record (10_state.md R22). -/
structure Port where
  state : SeqState
  sda : GpioPin
  scl : GpioPin
  curMsg : BitVec 1
  numMsg : BitVec 2
  bufOffset : BitVec 16
  bitMask : BitVec 8
  dataByte : BitVec 8
  waitCycles : BitVec 8
  phase : Bool
  nacked : Bool
  result : Int
  msg0 : MsgRec
  msg1 : MsgRec
  orig0 : Nat
  orig1 : Nat
  cb : Nat
  ctx : Nat
  requested : Bool
  deriving DecidableEq, Repr

/-- The engine's fields (10_state.md R21, R33, R36; 60_exceptions.md R253) and the model's own `toggles` (the count `t` of
46_completion_service.md R216) and `cur` (the port being stepped, 00_scope.md R10). Assumption 18. -/
structure Engine where
  gpioBase : Nat
  intcBase : Nat
  timerIrq : Word
  statusPin : GpioPin
  statusIrq : Nat
  ready : Bool
  requested : BitVec 4
  statusLevel : Bool
  statusAssoc : BitVec 4
  timerEnabled : Bool
  timerPending : Bool
  statusPending : Bool
  fiqMasked : Bool
  vectorOwned : Bool
  tick : Nat
  toggles : Nat
  cur : Fin 4
  deriving DecidableEq, Repr

/-- The GPIO controller: a direction word and an output latch word for each of the 8 bank pairs (10_state.md R31, R35).
SET and CLR hold nothing and IN is computed. -/
structure Gpio where
  dir : Vector Word 8
  latch : Vector Word 8
  deriving DecidableEq, Repr

/-- A completion whose callback is still to be made (46_completion_service.md R214). -/
structure PendingCb where
  port : Fin 4
  result : Int
  cb : Nat
  ctx : Nat
  deriving DecidableEq, Repr

/-- The companion agent's state (46_completion_service.md R214). -/
structure Companion where
  active : Bool
  scans : Nat
  next : Nat
  pendingCb : Option PendingCb
  deriving DecidableEq, Repr

/-- A completion event (46_completion_service.md R218). -/
structure Completion where
  port : Fin 4
  result : Int
  cb : Nat
  ctx : Nat
  buffers : List (List Byte)
  deriving DecidableEq, Repr

/-- The observation (00_scope.md R5), oldest entry first. -/
structure Obs where
  trace : List TraceEntry
  returns : List Ret
  events : List Completion
  deriving DecidableEq, Repr

/-- The answers the environment supplies to one draw, oldest first, and how many have been drawn. When none is left the
draw is a free value of Config at that count. Assumption 9. -/
structure Tape (α : Type) where
  answers : List α
  count : Nat
  deriving DecidableEq, Repr

/-- The draws of 10_state.md R38: one tape each, `bus` one per port; and of the schedule, whether the timer goes on firing of
its own accord while its line is enabled and the vector owned (60_exceptions.md R244 Fairness). Assumptions 4, 9. -/
structure Draws where
  bus : Vector (Tape Bool) 4
  irqRequest : Tape (Option Int)
  vectorClaim : Tape Bool
  glitchEdge : Tape Bool
  timerPendingAtInit : Tape Bool
  ticking : Bool
  deriving DecidableEq, Repr

/-- Memory as (address, byte) pairs, addresses rising, no byte 0 listed: an unlisted byte reads 0. Assumptions 10, 12. -/
abbrev Memory := List Host.Cell

/-- The host side: host memory, which holds the command stream and with it the caller's buffers (assumption 10), the
stream's next address and its end, the out-of-band handles of the next XFER (assumption 24), and the ports of the REL
calls that hold (10_state.md R36). -/
structure HostSide where
  mem : Memory
  pc : Nat
  limit : Nat
  cb : Nat
  ctx : Nat
  held : List (Fin 4)
  deriving DecidableEq, Repr

/-- What the environment may do between two steps. Assumptions 1, 4, 17. -/
inductive EnvEvent where
  /-- Nothing. -/
  | quiet
  /-- The timer fires (60_exceptions.md R241). -/
  | timerFire
  /-- Another owner claims the FIQ vector (R248, R250). -/
  | claim
  /-- The owner above the engine releases the vector (R248, R251). -/
  | release
  /-- The caller writes one byte of its own memory (R257, 70_reset_and_hazards.md R289). -/
  | hostWrite (a : Nat) (b : Byte)
  /-- The host has new handles for its next XFER (30_encoding.md R100). -/
  | handles (cb ctx : Nat)
  /-- From here on the timer fires of its own accord, or fires no more (R244 Fairness, R238). -/
  | ticking (on : Bool)
  deriving DecidableEq, Repr

/-- The whole machine. `store` is the message store (10_state.md R37); `refused` and `faults` are the spec's bookkeeping
(60_exceptions.md R236, R237); `plat`, `draws` and `env` are the model's: the OPEN parameters (an argument of the model,
carried here because the form of `exec` is fixed; assumption 8), the draws (assumption 9) and the environment events
still to come (assumption 1). -/
structure State where
  plat : Platform
  eng : Engine
  ports : Vector Port 4
  gpio : Gpio
  store : Memory
  comp : Companion
  host : HostSide
  obs : Obs
  draws : Draws
  env : List EnvEvent
  refused : List Refusal
  faults : List Fault
  deriving DecidableEq, Repr

/-- The record of logical pin 0 (30_encoding.md R92), which the pin fields hold before anything writes them.
Assumption 12. -/
def GpioPin.zero : GpioPin := ⟨0x10, 0x18, 0x1C, 0x20, 1⟩

/-- A message record nothing has written. Assumption 12. -/
def MsgRec.fresh : MsgRec := ⟨0, false, 0⟩

/-- A port as engine creation leaves it (10_state.md R40); what R40 calls unspecified is 0. Assumption 12. -/
def Port.fresh : Port where
  state := .idle
  sda := GpioPin.zero
  scl := GpioPin.zero
  curMsg := 0
  numMsg := 0
  bufOffset := 0
  bitMask := 0
  dataByte := 0
  waitCycles := 0
  phase := false
  nacked := false
  result := 0
  msg0 := MsgRec.fresh
  msg1 := MsgRec.fresh
  orig0 := 0
  orig1 := 0
  cb := 0
  ctx := 0
  requested := false

/-- The companion at rest (46_completion_service.md R214). -/
def Companion.idle : Companion := ⟨false, 0, 0, none⟩

/-- The engine in the unloaded state (70_reset_and_hazards.md R272). What R272 leaves unspecified is 0. Assumption 12. -/
def Engine.unloaded : Engine where
  gpioBase := 0
  intcBase := 0
  timerIrq := 0
  statusPin := GpioPin.zero
  statusIrq := 0
  ready := false
  requested := 0
  statusLevel := false
  statusAssoc := 0
  timerEnabled := false
  timerPending := false
  statusPending := false
  fiqMasked := false
  vectorOwned := false
  tick := 0
  toggles := 0
  cur := 0

/-- No answer supplied, nothing drawn, and a timer that goes on firing (assumption 4). -/
def Draws.none : Draws where
  bus := Vector.replicate 4 ⟨[], 0⟩
  irqRequest := ⟨[], 0⟩
  vectorClaim := ⟨[], 0⟩
  glitchEdge := ⟨[], 0⟩
  timerPendingAtInit := ⟨[], 0⟩
  ticking := true

/-- The unloaded state in which every run begins (70_reset_and_hazards.md R272), on a given platform and with given GPIO
lines (INIT_LINES). -/
def State.unloaded (plat : Platform) (gpio : Gpio) : State where
  plat := plat
  eng := Engine.unloaded
  ports := Vector.replicate 4 Port.fresh
  gpio := gpio
  store := []
  comp := Companion.idle
  host := ⟨[], 0, 0, 0, 0, []⟩
  obs := ⟨[], [], []⟩
  draws := Draws.none
  env := []
  refused := []
  faults := []

/-- INIT_LINES: the words the platform left in the GPIO controller. Assumption 13. -/
def Gpio.initLines : Gpio where
  dir := Vector.ofFn fun k => Config.initDir k.val
  latch := Vector.ofFn fun k => Config.initLatch k.val

/-- The machine at the start of every run (70_reset_and_hazards.md R272), on the platform of Config. -/
def State.reset : State := State.unloaded Config.platform Gpio.initLines

end Sys2Proof.Machine
end

