-- ==== Sys2Proof/Machine/Ops.lean ====
section
/-! DEFINITION. The named operations over the state: ports, memory, registers, the trace, and the ways a command ends
(return, refusal, fault). The block has no synchronous trap (60_exceptions.md, head); delivering its two interrupts saves
and restores nothing (R246, R247), so entry and return are the meanings of TICK and SIRQ themselves. -/

namespace Sys2Proof.Machine

/-! The result of a meaning. -/

/-- What a meaning answers. -/
abbrev Result := Host.Outcome State Fault Refusal

/-- Apply `f` to a next state. -/
def mapNext (f : State → State) : Result → Result
  | .next s => .next (f s)
  | .fault r => .fault r
  | .refused r => .refused r

/-! Parameters with a value (00_scope.md R7). -/

/-- NUM_PORTS. -/
def numPorts : Nat := 4
/-- MAX_MSGS. -/
def maxMsgs : Nat := 2
/-- BIT_MASK_INIT. -/
def bitMaskInit : BitVec 8 := 0x80
/-- WAIT_AFTER_WRITE_ACK. -/
def waitAfterWriteAck : BitVec 8 := 4
/-- WAIT_AFTER_READ_ACK. -/
def waitAfterReadAck : BitVec 8 := 2
/-- GPIO_PAIR_STRIDE. -/
def gpioPairStride : Nat := 0x28

/-! Ports and bitmasks. -/

/-- Port record `i` (10_state.md R20). -/
def State.port (s : State) (i : Fin 4) : Port := s.ports[i]

/-- Replace port record `i`. -/
def State.setPort (s : State) (i : Fin 4) (p : Port) : State := { s with ports := s.ports.set i p }

/-- The one-bit mask of port `i` in `E.requested` and `E.status_assoc`. -/
def portBit (i : Fin 4) : BitVec 4 := 1#4 <<< i.val

/-- `E.requested[i] = 1`. Rules read this bit, not its mirror (90_conflicts.md C6). -/
def State.isRequested (s : State) (i : Fin 4) : Bool := s.eng.requested.getLsbD i.val

/-- The port a command's port field names: none for 4 to 15 (30_encoding.md R103). -/
def portIndex (p : BitVec 4) : Option (Fin 4) := if h : p.toNat < 4 then some ⟨p.toNat, h⟩ else none

/-- An active port: requested and not IDLE (00_scope.md Glossary; 40_tick_dispatch.md R121). -/
def State.isActive (s : State) (i : Fin 4) : Bool := s.isRequested i && (s.port i).state != .idle

/-! How a command ends. -/

/-- Add to a list that holds each thing once. -/
def addOnce {α : Type} [DecidableEq α] (x : α) (l : List α) : List α := if x ∈ l then l else l ++ [x]

/-- `refuse(reason)`: set the refused mark with its reason, and nothing else; nothing clears it (60_exceptions.md R236).
Assumption 6. -/
def State.refuse (r : Refusal) (s : State) : State := { s with refused := addOnce r s.refused }

/-- `fault(reason)`: add to the fault set; nothing clears it (60_exceptions.md R237). Assumption 7. -/
def State.fault (r : Fault) (s : State) : State := { s with faults := addOnce r s.faults }

/-- A command returns a value to the host; an error changes no other state (60_exceptions.md R230). -/
def State.ret (r : Ret) (s : State) : State := { s with obs.returns := s.obs.returns ++ [r] }

/-- `return Err(k)`. -/
def State.retErr (k : ErrKind) (s : State) : State := s.ret (.err k)

/-! Memory. -/

/-- The byte at an address; 0 where none is listed. -/
def Memory.read (m : Memory) (a : Nat) : Byte :=
  match m with
  | [] => 0
  | (x, c) :: rest => if x = a then c else Memory.read rest a

/-- Write one byte, keeping the canonical form. -/
def Memory.write (m : Memory) (a : Nat) (b : Byte) : Memory :=
  match m with
  | [] => if b = 0 then [] else [(a, b)]
  | (x, c) :: rest =>
    if a < x then (if b = 0 then (x, c) :: rest else (a, b) :: (x, c) :: rest)
    else if a = x then (if b = 0 then rest else (a, b) :: rest)
    else (x, c) :: Memory.write rest a b

/-- Write a list of bytes at rising addresses. -/
def Memory.writeBytes (m : Memory) (a : Nat) : List Byte → Memory
  | [] => m
  | b :: bs => Memory.writeBytes (m.write a b) (a + 1) bs

/-- The `n` bytes from an address on. -/
def Memory.bytes (m : Memory) (a n : Nat) : List Byte := (List.range n).map fun j => m.read (a + j)

/-- Every address listed is at least `lo`, the addresses rise, and no byte listed is 0. -/
def Memory.wfFrom (lo : Nat) : Memory → Bool
  | [] => true
  | (x, c) :: rest => decide (lo ≤ x) && c != 0 && Memory.wfFrom (x + 1) rest

/-- The canonical form. -/
def Memory.wf (m : Memory) : Bool := Memory.wfFrom 0 m

/-- Where byte `j` of message slot `k` of port `i` lies in the message store (20_memory.md R60(3), R72): slots do not
overlap, since a length has 16 bits. -/
def storeAddr (i : Fin 4) (k : BitVec 1) (j : Nat) : Nat := (i.val * 2 + k.toNat) * 65536 + j

/-! The trace. -/

/-- Record a register write (20_memory.md R70). -/
def State.record (ag : Agent) (dev : Device) (off : Nat) (v : Word) (s : State) : State :=
  { s with obs.trace := s.obs.trace ++ [⟨s.eng.tick, ag, dev, off, v⟩] }

/-! The GPIO controller (10_state.md R31, 20_memory.md R61). -/

/-- The pair block and register an offset names, if any. -/
def gpioReg (off : Nat) : Option (Fin 8 × GpioReg) :=
  if h : off / gpioPairStride < 8 then
    match off % gpioPairStride with
    | 0x10 => some (⟨off / gpioPairStride, h⟩, .dir)
    | 0x18 => some (⟨off / gpioPairStride, h⟩, .set)
    | 0x1C => some (⟨off / gpioPairStride, h⟩, .clr)
    | 0x20 => some (⟨off / gpioPairStride, h⟩, .inp)
    | _ => none
  else none

/-- The GPIO controller after a write of `v` to a register: DIR is plain; SET and CLR act on the latch bits that are 1 in
`v` (10_state.md R31, 20_memory.md R65; write-1 is G1, from general knowledge); IN is not written. -/
def Gpio.write (g : Gpio) (k : Fin 8) (r : GpioReg) (v : Word) : Gpio :=
  match r with
  | .dir => { g with dir := g.dir.set k v }
  | .set => { g with latch := g.latch.set k (g.latch[k] ||| v) }
  | .clr => { g with latch := g.latch.set k (g.latch[k] &&& ~~~v) }
  | .inp => g

/-- The pins of pair block `k` that are outputs, by DIR_IN_BIT (10_state.md R31, D10). -/
def outputMask (dirInBit : BitVec 1) (g : Gpio) (k : Fin 8) : Word := if dirInBit = 1 then ~~~g.dir[k] else g.dir[k]

/-- The line levels of pair block `k`: an output reads as its latch, an input as the external level `ext` (10_state.md
R35; contention is not represented, D11). Assumption 23. -/
def lineLevels (dirInBit : BitVec 1) (g : Gpio) (k : Fin 8) (ext : Word) : Word :=
  (g.latch[k] &&& outputMask dirInBit g k) ||| (ext &&& ~~~(outputMask dirInBit g k))

/-- `MmioWrite32(off, v)`: refused at a misaligned offset (20_memory.md R64) and at any the sequencer does not write
(R61); else the register takes it and the trace records it (R70). -/
def mmioWrite32 (ag : Agent) (off : Nat) (v : Word) (s : State) : State :=
  if off % 4 ≠ 0 then s.refuse .misalignedAccess
  else match gpioReg off with
    | some (k, .dir) => ({ s with gpio := s.gpio.write k .dir v }).record ag .gpio off v
    | some (k, .set) => ({ s with gpio := s.gpio.write k .set v }).record ag .gpio off v
    | some (k, .clr) => ({ s with gpio := s.gpio.write k .clr v }).record ag .gpio off v
    | some (_, .inp) => s.refuse .unmappedAccess
    | none => s.refuse .unmappedAccess

/-- The value of `MmioRead32(off)` while the external levels of its block are `ext`: DIR, or the line levels of IN; of a
refused read a free value. Assumption 22. -/
def mmioRead32 (off : Nat) (ext : Word) (s : State) : Word :=
  if off % 4 ≠ 0 then Config.refusedRead off
  else match gpioReg off with
    | some (k, .dir) => s.gpio.dir[k]
    | some (k, .inp) => lineLevels s.plat.dirInBit s.gpio k ext
    | some (_, .set) => Config.refusedRead off
    | some (_, .clr) => Config.refusedRead off
    | none => Config.refusedRead off

/-- What `MmioRead32(off)` does to the state: nothing, or the refusal mark (20_memory.md R61, R64, R65). -/
def noteRead (off : Nat) (s : State) : State :=
  if off % 4 ≠ 0 then s.refuse .misalignedAccess
  else match gpioReg off with
    | some (_, .dir) => s
    | some (_, .inp) => s
    | some (_, .set) => s.refuse .unmappedAccess
    | some (_, .clr) => s.refuse .unmappedAccess
    | none => s.refuse .unmappedAccess

/-! The interrupt controller (10_state.md R32). -/

/-- `IntcWrite32(off, v)`: recorded (20_memory.md R70); refused at a misaligned offset (R64). What the write does to its
line is the `E.timer_enabled` or `E.timer_pending` that the rule of the writer sets (10_state.md R33). -/
def intcWrite32 (ag : Agent) (off : Nat) (v : Word) (s : State) : State :=
  if off % 4 ≠ 0 then s.refuse .misalignedAccess else s.record ag .intc off v

/-- Enable the timer line: the ENSET write (45_port_lifecycle.md R198). -/
def enableTimer (ag : Agent) (s : State) : State :=
  { intcWrite32 ag s.plat.intcEnsetOff s.eng.timerIrq s with eng.timerEnabled := true }

/-- Disable the timer line: the ENCLR write (40_tick_dispatch.md R126, 45_port_lifecycle.md R208). -/
def disableTimer (ag : Agent) (s : State) : State :=
  { intcWrite32 ag s.plat.intcEnclrOff s.eng.timerIrq s with eng.timerEnabled := false }

/-- Acknowledge the timer line: the ACK write (40_tick_dispatch.md R127). -/
def ackTimer (ag : Agent) (s : State) : State :=
  { intcWrite32 ag s.plat.intcAckOff s.eng.timerIrq s with eng.timerPending := false }

/-! The draws (10_state.md R38). -/

/-- The next answer of a tape: the first one supplied, else the free value at the tape's count. Assumption 9. -/
def Tape.value {α : Type} (free : Nat → α) (t : Tape α) : α :=
  match t.answers with
  | [] => free t.count
  | a :: _ => a

/-- The tape after a draw. -/
def Tape.advance {α : Type} (t : Tape α) : Tape α := ⟨t.answers.tail, t.count + 1⟩

end Sys2Proof.Machine
end

