-- ==== Sys2Proof/Machine/Operands.lean ====
section
/-! DEFINITION. The operand forms: pins and the pin primitives (30_encoding.md R91 to R93; 20_memory.md R66 to R69), the
current message (40_tick_dispatch.md R122), the message store (20_memory.md R72), the address byte (30_encoding.md R94). -/

namespace Sys2Proof.Machine

/-- The GpioPin of a logical pin number (30_encoding.md R92). -/
def gpioPin (pin : BitVec 8) : GpioPin :=
  let bank := pin.toNat / 16
  let index := pin.toNat % 16
  let block := bank / 2 * gpioPairStride
  { dirOff := block + 0x10
    setOff := block + 0x18
    clrOff := block + 0x1C
    inOff := block + 0x20
    mask := 1#32 <<< (index + bank % 2 * 16) }

/-- The second half of Drive and Release: a read-modify-write of DIR that makes the pin an output or an input, by
DIR_IN_BIT (20_memory.md R66, R67). -/
def setDirection (ag : Agent) (pin : GpioPin) (output : Bool) (s : State) : State :=
  let d := mmioRead32 pin.dirOff 0 s
  let ones := output == (s.plat.dirInBit == 0)
  mmioWrite32 ag pin.dirOff (if ones then d ||| pin.mask else d &&& ~~~pin.mask) (noteRead pin.dirOff s)

/-- `Drive(pin, v)`: latch first, then direction (20_memory.md R66). -/
def drive (ag : Agent) (pin : GpioPin) (v : Bool) (s : State) : State :=
  setDirection ag pin true (mmioWrite32 ag (if v then pin.setOff else pin.clrOff) pin.mask s)

/-- `Release(pin)` (20_memory.md R67). -/
def release (ag : Agent) (pin : GpioPin) (s : State) : State := setDirection ag pin false s

/-- The external levels of a block in which the bus shows `b` on the pin and every other line is pulled up (10_state.md
R35; the pull-up is G3, from general knowledge). -/
def externalLevels (pin : GpioPin) (b : Bool) : Word := if b then ~~~0#32 else ~~~pin.mask

/-- The draw `bus_bit(i)` (10_state.md R39). -/
def busBit (i : Fin 4) (s : State) : Bool := Tape.value (Config.busBit i.val) s.draws.bus[i]

/-- `SdaSample(P)`: the bit (20_memory.md R68). -/
def sampleBit (i : Fin 4) (s : State) : Bool :=
  let pin := (s.port i).sda
  mmioRead32 pin.inOff (externalLevels pin (busBit i s)) s &&& pin.mask != 0

/-- `SdaSample(P)`: what it does to the state: one draw of `bus_bit(i)`. -/
def noteSample (i : Fin 4) (s : State) : State :=
  noteRead (s.port i).sda.inOff { s with draws.bus := s.draws.bus.set i s.draws.bus[i].advance }

/-- `SclDrive(P, v)` in the tick. -/
def sclDrive (i : Fin 4) (v : Bool) (s : State) : State := drive .tick (s.port i).scl v s

/-- `SdaDrive(P, v)` in the tick. -/
def sdaDrive (i : Fin 4) (v : Bool) (s : State) : State := drive .tick (s.port i).sda v s

/-- `SdaRelease(P)` in the tick. -/
def sdaRelease (i : Fin 4) (s : State) : State := release .tick (s.port i).sda s

/-- `StatusToggle()` (20_memory.md R69), counted for the edge latch (46_completion_service.md R216). -/
def statusToggle (s : State) : State :=
  let lvl := !s.eng.statusLevel
  let pin := s.eng.statusPin
  mmioWrite32 .tick (if lvl then pin.setOff else pin.clrOff) pin.mask
    { s with eng.statusLevel := lvl, eng.toggles := s.eng.toggles + 1 }

/-- The message record of slot `k`. -/
def Port.msg (p : Port) (k : BitVec 1) : MsgRec := if k = 0 then p.msg0 else p.msg1

/-- The caller's buffer of slot `k`. -/
def Port.orig (p : Port) (k : BitVec 1) : Nat := if k = 0 then p.orig0 else p.orig1

/-- `M`, the current message (40_tick_dispatch.md R122). -/
def Port.cur (p : Port) : MsgRec := p.msg p.curMsg

/-- The address byte `(address<<1)|read-flag` (30_encoding.md R94). -/
def addrByte (m : MsgRec) : BitVec 8 := (m.addr.zeroExtend 8 <<< 1) ||| (BitVec.ofBool m.rd).zeroExtend 8

/-- The value of `BufRead(P, m, i)`; outside the message a free value (20_memory.md R72). Assumption 7. -/
def bufRead (i : Fin 4) (k : BitVec 1) (j : BitVec 16) (s : State) : Byte :=
  if j < ((s.port i).msg k).len then s.store.read (storeAddr i k j.toNat)
  else Config.bufOutOfRange i.val k.toNat j.toNat

/-- What `BufRead(P, m, i)` does to the state: nothing, or the fault of R72. -/
def noteBufRead (i : Fin 4) (k : BitVec 1) (j : BitVec 16) (s : State) : State :=
  if j < ((s.port i).msg k).len then s else s.fault .invariantBroken

/-- `BufWrite(P, m, i, b)`; outside the message the fault of R72 and no store. Assumption 7. -/
def bufWrite (i : Fin 4) (k : BitVec 1) (j : BitVec 16) (b : Byte) (s : State) : State :=
  if j < ((s.port i).msg k).len then { s with store := s.store.write (storeAddr i k j.toNat) b }
  else s.fault .invariantBroken

end Sys2Proof.Machine
end

