-- ==== Sys2Proof/Machine/Flags.lean ====
section
/-! DEFINITION. The flags: the clock phase and its generator (40_tick_dispatch.md R124), whether a tick is still needed
(R126), the status edge latch (46_completion_service.md R216), the count of handler instances (R215), and when the two
interrupts can be delivered (60_exceptions.md R242, R243). -/

namespace Sys2Proof.Machine

/-- The clocked states (30_encoding.md R97). -/
def clocked : SeqState → Bool
  | .addr | .write | .read | .wbit | .rbit | .wack | .rack | .stop => true
  | .idle | .start | .start2 | .stop2 | .stop3 | .restart | .wait | .complete => false

/-- The clock generator of a clocked state: invert the phase and drive SCL to it (40_tick_dispatch.md R124). -/
def clockGen (i : Fin 4) (s : State) : State :=
  let ph := !(s.port i).phase
  sclDrive i ph (s.setPort i { s.port i with phase := ph })

/-- `state <- S`. -/
def goto (i : Fin 4) (st : SeqState) (s : State) : State := s.setPort i { s.port i with state := st }

/-- `needs`: some requested port is not IDLE (40_tick_dispatch.md R126). -/
def needsTicks (s : State) : Bool := s.isActive 0 || s.isActive 1 || s.isActive 2 || s.isActive 3

/-- The number of bits set, of `E.status_assoc` (46_completion_service.md R215). -/
def popcount4 (v : BitVec 4) : Nat :=
  (v.getLsbD 0).toNat + (v.getLsbD 1).toNat + (v.getLsbD 2).toNat + (v.getLsbD 3).toNat

/-- The edge latch at the end of a tick with `toggles` status toggles (46_completion_service.md R216): an odd number latches
the edge; an even number of 2 or more leaves it to the draw `glitch_edge`. -/
def edgeLatch (s : State) : State :=
  if s.eng.toggles % 2 = 1 then { s with eng.statusPending := true }
  else if s.eng.toggles = 0 then s
  else { s with
    eng.statusPending := s.eng.statusPending || Tape.value Config.glitchEdge s.draws.glitchEdge
    draws.glitchEdge := s.draws.glitchEdge.advance }

/-- A TICK can be delivered (60_exceptions.md R243). -/
def tickDeliverable (s : State) : Bool :=
  s.eng.timerEnabled && s.eng.timerPending && s.eng.vectorOwned && !s.eng.fiqMasked

/-- A SIRQ can be delivered (46_completion_service.md R215, 60_exceptions.md R242). -/
def sirqDeliverable (s : State) : Bool := s.eng.statusPending && s.eng.statusAssoc != 0 && !s.comp.active

end Sys2Proof.Machine
end

