-- ==== Sys2Proof/Machine/Completion.lean ====
section
/-! DEFINITION. The completion path (46_completion_service.md): SIRQ entry, and the companion's SERVICE, ENDSCAN and
CALLBACK steps, which have no opcode. -/

namespace Sys2Proof.Machine

/-- SIRQ: the latched edge is taken and one scan per installed handler begins (R215). Whether it can be delivered is
`sirqDeliverable`. -/
def sirqStep (s : State) : State :=
  { s with
    eng.statusPending := false
    comp.active := true
    comp.scans := popcount4 s.eng.statusAssoc
    comp.next := 0 }

/-- The meaning of SIRQ. -/
def execSirq (s : State) : Result := .next (sirqStep s)

/-- Copy slot `k` of port `i` back to the caller's buffer when it is a read message (R217). -/
def copyBack (i : Fin 4) (k : BitVec 1) (s : State) : State :=
  let p := s.port i
  let m := p.msg k
  if m.rd then
    { s with host.mem := s.host.mem.writeBytes (p.orig k) (s.store.bytes (storeAddr i k 0) m.len.toNat) }
  else s

/-- Copy back every message of the transfer, in order (R217). Only slots 0 and 1 exist (assumption 25). -/
def copyBackAll (i : Fin 4) (s : State) : State :=
  let n := (s.port i).numMsg.toNat
  let s := if 1 ≤ n then copyBack i 0 s else s
  if 2 ≤ n then copyBack i 1 s else s

/-- The end of one scan (R217). -/
def endScan (s : State) : State :=
  if s.comp.scans - 1 = 0 then { s with comp.scans := 0, comp.active := false }
  else { s with comp.scans := s.comp.scans - 1, comp.next := 0 }

/-- The service of port `i`, with the tick context masked while it runs (R217). -/
def servicePort (i : Fin 4) (s : State) : State :=
  let s := { s with eng.fiqMasked := true }
  let s :=
    if s.isRequested i && (s.port i).state == .complete then
      let s := copyBackAll i s
      let p := s.port i
      { s.setPort i { p with state := .idle } with comp.pendingCb := some ⟨i, p.result, p.cb, p.ctx⟩ }
    else s
  { s with eng.fiqMasked := false, comp.next := s.comp.next + 1 }

/-- One companion service step (R217). -/
def companionService (s : State) : State :=
  if h : s.comp.next < 4 then servicePort ⟨s.comp.next, h⟩ s else endScan s

/-- The caller's buffer of slot `k` of port `i`. -/
def callerBuffer (i : Fin 4) (k : BitVec 1) (s : State) : List Byte :=
  s.host.mem.bytes ((s.port i).orig k) ((s.port i).msg k).len.toNat

/-- The caller's buffers of port `i`'s transfer, in message order (R218). -/
def callerBuffers (i : Fin 4) (s : State) : List (List Byte) :=
  let n := (s.port i).numMsg.toNat
  (if 1 ≤ n then [callerBuffer i 0 s] else []) ++ (if 2 ≤ n then [callerBuffer i 1 s] else [])

/-- The completion callback: the emission of the event (R218). -/
def companionCallback (c : PendingCb) (s : State) : State :=
  { s with
    comp.pendingCb := none
    obs.events := s.obs.events ++ [⟨c.port, c.result, c.cb, c.ctx, callerBuffers c.port s⟩] }

end Sys2Proof.Machine
end

