-- ==== Sys2Proof/Machine/Lifecycle.lean ====
section
/-! DEFINITION. The host's commands: INIT (70_reset_and_hazards.md R270), REQ, XFER, REL and UNLOAD
(45_port_lifecycle.md). -/

namespace Sys2Proof.Machine

/-! INIT. -/

/-- The engine fields as INIT writes them before its draw (R270, 10_state.md R40). `E.timer_pending` is a draw
(assumption 14); `E.tick` is written after the status pin is driven. -/
def initEngine (s : State) : Engine where
  gpioBase := s.plat.gpioBase
  intcBase := s.plat.intcBase
  timerIrq := s.plat.timerIrq
  statusPin := gpioPin s.plat.statusPin
  statusIrq := s.plat.statusIrq
  ready := false
  requested := 0
  statusLevel := false
  statusAssoc := 0
  timerEnabled := false
  timerPending := Tape.value Config.timerPendingAtInit s.draws.timerPendingAtInit
  statusPending := false
  fiqMasked := false
  vectorOwned := false
  tick := s.eng.tick
  toggles := 0
  cur := 0

/-- Every field of the engine, its ports, its message store and its companion as creation leaves them, then the status pin
driven low and the tick counter 0 (R270). The marks of R236 and R237, the observation, the GPIO lines and the host's side
are not the engine's and stay (assumption 15). -/
def createEngine (s : State) : State :=
  let s := { s with
    eng := initEngine s
    ports := Vector.replicate 4 Port.fresh
    store := []
    comp := Companion.idle
    draws.timerPendingAtInit := s.draws.timerPendingAtInit.advance }
  let s := drive .host s.eng.statusPin false s
  { s with eng.tick := 0 }

/-- INIT (R270): refused when ready; else the engine is created, and the draw `vector_claim` decides whether it becomes
ready. -/
def initStep (s : State) : State :=
  if s.eng.ready then s.refuse .reInit
  else
    let s := createEngine s
    let claimed := Tape.value Config.vectorClaim s.draws.vectorClaim
    let s := { s with draws.vectorClaim := s.draws.vectorClaim.advance }
    if claimed then ({ s with eng.vectorOwned := true, eng.ready := true }).ret .ok
    else s.retErr .busy

/-- The meaning of INIT. -/
def execInit (s : State) : Result := .next (initStep s)

/-! REQ. -/

/-- Port `i` is requested and `pin` is its SDA or SCL pin. -/
def portHasPin (i : Fin 4) (pin : BitVec 8) (s : State) : Bool :=
  s.isRequested i && ((s.port i).sda == gpioPin pin || (s.port i).scl == gpioPin pin)

/-- A pin that REQ may claim: below NGPIO, not STATUS_PIN, not a pin of a requested port (R194). -/
def pinFree (pin : BitVec 8) (s : State) : Bool :=
  decide (pin.toNat < s.plat.ngpio) && pin != s.plat.statusPin
    && !(portHasPin 0 pin s || portHasPin 1 pin s || portHasPin 2 pin s || portHasPin 3 pin s)

/-- REQ's commit (R190): the pins, the handler association and the requested flag with its mirror. -/
def commitReq (i : Fin 4) (sda scl : BitVec 8) (s : State) : State :=
  let s := s.setPort i { s.port i with sda := gpioPin sda, scl := gpioPin scl, requested := true }
  { s with
    eng.statusAssoc := s.eng.statusAssoc ||| portBit i
    eng.requested := s.eng.requested ||| portBit i }

/-- REQ after its checks (R195): the draw `platform_irq_request`; on Fail it returns the platform's code and changes nothing
else. -/
def requestHandler (i : Fin 4) (sda scl : BitVec 8) (s : State) : State :=
  let answer := Tape.value Config.irqRequest s.draws.irqRequest
  let s := { s with draws.irqRequest := s.draws.irqRequest.advance }
  match answer with
  | some code => s.retErr (.resourceError code)
  | none => (commitReq i sda scl s).ret .ok

/-- REQ (R190 to R195), its checks in order. -/
def reqStep (port : BitVec 4) (sda scl : BitVec 8) (s : State) : State :=
  if s.eng.ready = false then s.retErr .notReady
  else match portIndex port with
  | none => s.retErr .invalidArgument
  | some i =>
    if s.isRequested i then s.retErr .busy
    else if sda = scl ∨ pinFree sda s = false ∨ pinFree scl s = false then s.refuse .pinConflict
    else requestHandler i sda scl s

/-- The meaning of REQ. -/
def execReq (port : BitVec 4) (sda scl : BitVec 8) (s : State) : Result := .next (reqStep port sda scl s)

/-! XFER. -/

/-- A message XFER refuses (R201). -/
def badMsg (plat : Platform) (m : Msg) : Bool :=
  decide (0x7F < m.addr.toNat) || decide (plat.maxMsgLen.toNat < m.bytes.length) || m.rsvd != 0

/-- Copy one message into slot `k` of port `i` and keep the handle of the caller's buffer, the address `a` of its bytes in
the command stream (R203; assumption 10). -/
def copyIn (i : Fin 4) (k : BitVec 1) (m : Msg) (a : Nat) (s : State) : State :=
  let rec_ : MsgRec := ⟨m.addr.extractLsb' 0 7, m.rd, BitVec.ofNat 16 m.bytes.length⟩
  let p := s.port i
  let s := s.setPort i (if k = 0 then { p with msg0 := rec_, orig0 := a } else { p with msg1 := rec_, orig1 := a })
  { s with store := s.store.writeBytes (storeAddr i k 0) m.bytes }

/-- Copy the messages in, in order, the first one's descriptor being at `a`. -/
def copyMsgs (i : Fin 4) (a : Nat) (msgs : List Msg) (s : State) : State :=
  match msgs with
  | [] => s
  | [m] => copyIn i 0 m (a + 4) s
  | m :: n :: _ => copyIn i 1 n (a + 4 + m.bytes.length + 4) (copyIn i 0 m (a + 4) s)

/-- XFER's commit (R198, R203): every copy, then the state, then the timer line. -/
def commitXfer (i : Fin 4) (msgs : List Msg) (s : State) : State :=
  let s := copyMsgs i (s.host.pc + 4) msgs s
  let s := s.setPort i { s.port i with
    numMsg := BitVec.ofNat 2 msgs.length, cb := s.host.cb, ctx := s.host.ctx, state := .start }
  enableTimer .host s

/-- XFER (R198 to R204), its checks in order. -/
def xferStep (port : BitVec 4) (msgs : List Msg) (s : State) : State :=
  match portIndex port with
  | none => s.retErr .invalidArgument
  | some i =>
    if s.isRequested i = false then s.retErr .invalidArgument
    else if msgs.length < 1 ∨ maxMsgs < msgs.length then s.retErr .invalidArgument
    else if msgs.any (badMsg s.plat) then s.refuse .badMessage
    else if (s.port i).state ≠ .idle then s.retErr .busy
    else (commitXfer i msgs s).ret .ok

/-- The meaning of XFER. -/
def execXfer (port : BitVec 4) (msgs : List Msg) (s : State) : Result := .next (xferStep port msgs s)

/-! REL. -/

/-- REL's commit, once the port is IDLE (R205): give up the association and the port; the call holds no longer. -/
def commitRel (i : Fin 4) (s : State) : State :=
  let s := s.setPort i { s.port i with requested := false }
  ({ s with
    eng.statusAssoc := s.eng.statusAssoc &&& ~~~portBit i
    eng.requested := s.eng.requested &&& ~~~portBit i
    host.held := s.host.held.filter (· != i) }).ret .ok

/-- REL (R205 to R207): on a port that is not IDLE the call holds; the schedule completes it (R206). -/
def relStep (port : BitVec 4) (s : State) : State :=
  match portIndex port with
  | none => s.refuse .releaseUnrequested
  | some i =>
    if s.isRequested i = false then s.refuse .releaseUnrequested
    else if (s.port i).state = .idle then commitRel i s
    else { s with host.held := s.host.held ++ [i] }

/-- The meaning of REL. -/
def execRel (port : BitVec 4) (s : State) : Result := .next (relStep port s)

/-! UNLOAD. -/

/-- UNLOAD (R208): disable the timer line, not ready; the boundary releases the vector (60_exceptions.md R251;
assumption 16). It returns no value (assumption 28). -/
def unloadStep (s : State) : State :=
  if s.eng.ready = false ∨ s.eng.requested ≠ 0 then s.refuse .unloadWhileInUse
  else { disableTimer .host s with eng.ready := false, eng.vectorOwned := false }

/-- The meaning of UNLOAD. -/
def execUnload (s : State) : Result := .next (unloadStep s)

end Sys2Proof.Machine
end

