-- ==== Sys2Proof/Machine/Receive.lean ====
section
/-! DEFINITION. The receive path: READ, RBIT, WACK (43_receive_states.md). All are clocked: each step begins with the clock
generator (40_tick_dispatch.md R122, R124). -/

namespace Sys2Proof.Machine

/-- RbitAction: sample one bit while SCL is high; store the byte with its eighth (R162). -/
def rbitAction (i : Fin 4) (s : State) : State :=
  let p := s.port i
  if p.phase = false then s
  else
    let data := if sampleBit i s then p.dataByte ||| p.bitMask else p.dataByte
    let mask := p.bitMask >>> 1
    let s := noteSample i s
    let s := s.setPort i { s.port i with dataByte := data, bitMask := mask }
    if mask = 0 then
      let s := bufWrite i p.curMsg p.bufOffset data s
      s.setPort i { s.port i with bufOffset := p.bufOffset + 1, state := .wack }
    else s

/-- READ: release SDA, clear the accumulator, and chain into RBIT's action (R160). -/
def readStep (i : Fin 4) (s : State) : State :=
  let s := sdaRelease i (clockGen i s)
  rbitAction i (s.setPort i { s.port i with dataByte := 0, bitMask := bitMaskInit, state := .rbit })

/-- RBIT: sample one bit (R162). -/
def rbitStep (i : Fin 4) (s : State) : State := rbitAction i (clockGen i s)

/-- WACK: drive the acknowledge while SCL is low (R164); continue or stop while it is high (R165). -/
def wackStep (i : Fin 4) (s : State) : State :=
  let m := (s.port i).cur
  let s := clockGen i s
  let p := s.port i
  if p.phase = false then sdaDrive i (p.bufOffset == m.len) s
  else if p.bufOffset < m.len then s.setPort i { p with waitCycles := waitAfterReadAck, state := .wait }
  else goto i .stop s

/-- The meaning of READ: a step of the port being stepped. -/
def execRead (s : State) : Result := .next (readStep s.eng.cur s)

/-- The meaning of RBIT. -/
def execRbit (s : State) : Result := .next (rbitStep s.eng.cur s)

/-- The meaning of WACK. -/
def execWack (s : State) : Result := .next (wackStep s.eng.cur s)

end Sys2Proof.Machine
end

