-- ==== Sys2Proof/Machine/StartStates.lean ====
section
/-! DEFINITION. IDLE, START and START2 (41_start_states.md). None is clocked. -/

namespace Sys2Proof.Machine

/-- IDLE: a port in IDLE is not stepped (R140). -/
def idleStep (_i : Fin 4) (s : State) : State := s

/-- START: reset the message cursor and the result (R141). -/
def startStep (i : Fin 4) (s : State) : State :=
  s.setPort i { s.port i with curMsg := 0, result := 0, state := .start2 }

/-- START2: make the start condition (R142). -/
def start2Step (i : Fin 4) (s : State) : State :=
  let s := sdaDrive i false s
  s.setPort i { s.port i with phase := false, nacked := false, state := .addr }

/-- The meaning of IDLE: a step of the port being stepped. -/
def execIdle (s : State) : Result := .next (idleStep s.eng.cur s)

/-- The meaning of START. -/
def execStart (s : State) : Result := .next (startStep s.eng.cur s)

/-- The meaning of START2. -/
def execStart2 (s : State) : Result := .next (start2Step s.eng.cur s)

end Sys2Proof.Machine
end

