-- ==== Sys2Proof/Machine/Transmit.lean ====
section
/-! DEFINITION. The transmit path: ADDR, WRITE, WBIT, RACK (42_transmit_states.md). All are clocked: each step begins with
the clock generator (40_tick_dispatch.md R122, R124). -/

namespace Sys2Proof.Machine

/-- WbitAction: set up a bit while SCL is low; after the eighth, go to RACK on the high half (R149). -/
def wbitAction (i : Fin 4) (s : State) : State :=
  let p := s.port i
  if p.phase = false then
    let s := sdaDrive i (p.dataByte &&& p.bitMask != 0) s
    s.setPort i { s.port i with bitMask := p.bitMask >>> 1 }
  else if p.bitMask = 0 then goto i .rack s
  else s

/-- TxSetup: the shared shift-out setup, which ends in WBIT's action (R148). -/
def txSetup (i : Fin 4) (s : State) : State :=
  wbitAction i (s.setPort i { s.port i with bitMask := bitMaskInit, state := .wbit })

/-- ADDR: build the address byte and start shifting it out (R145). -/
def addrStep (i : Fin 4) (s : State) : State :=
  let m := (s.port i).cur
  let s := clockGen i s
  txSetup i (s.setPort i { s.port i with dataByte := addrByte m, bufOffset := 0 })

/-- WRITE: load the next data byte and start shifting it out (R147). -/
def writeStep (i : Fin 4) (s : State) : State :=
  let s := clockGen i s
  let p := s.port i
  let b := bufRead i p.curMsg p.bufOffset s
  let s := noteBufRead i p.curMsg p.bufOffset s
  txSetup i (s.setPort i { s.port i with dataByte := b, bufOffset := p.bufOffset + 1 })

/-- WBIT: shift one bit out (R149). -/
def wbitStep (i : Fin 4) (s : State) : State := wbitAction i (clockGen i s)

/-- RACK: release SDA while SCL is low (R151); sample the acknowledge while it is high and decide (R152). -/
def rackStep (i : Fin 4) (s : State) : State :=
  let m := (s.port i).cur
  let s := clockGen i s
  let p := s.port i
  if p.phase = false then sdaRelease i s
  else
    let b := sampleBit i s
    let s := noteSample i s
    if b = false then
      if p.bufOffset < m.len then s.setPort i { s.port i with waitCycles := waitAfterWriteAck, state := .wait }
      else goto i .stop s
    else s.setPort i { s.port i with nacked := true, result := s.plat.noackCode, state := .stop }

/-- The meaning of ADDR: a step of the port being stepped. -/
def execAddr (s : State) : Result := .next (addrStep s.eng.cur s)

/-- The meaning of WRITE. -/
def execWrite (s : State) : Result := .next (writeStep s.eng.cur s)

/-- The meaning of WBIT. -/
def execWbit (s : State) : Result := .next (wbitStep s.eng.cur s)

/-- The meaning of RACK. -/
def execRack (s : State) : Result := .next (rackStep s.eng.cur s)

end Sys2Proof.Machine
end

