-- ==== Sys2Proof/Machine/WaitStop.lean ====
section
/-! DEFINITION. WAIT, STOP, STOP2, RESTART, STOP3 and COMPLETE (44_stop_wait_states.md). Only STOP is clocked. -/

namespace Sys2Proof.Machine

/-- WAIT: the margin delay (R170); on expiry to READ or WRITE by the message's direction (R171). -/
def waitStep (i : Fin 4) (s : State) : State :=
  let p := s.port i
  let n := if p.waitCycles = 0 then 0 else p.waitCycles - 1
  let st := if n = 0 then (if p.cur.rd then .read else .write) else p.state
  s.setPort i { p with waitCycles := n, state := st }

/-- STOP: SDA low while SCL is low, then SDA high while SCL is high, the stop condition (R174, 90_conflicts.md C1). -/
def stopStep (i : Fin 4) (s : State) : State :=
  let s := clockGen i s
  if (s.port i).phase = false then sdaDrive i false s else goto i .stop2 (sdaDrive i true s)

/-- STOP2: on to the next message with the first half of the extra clock pulse, or to the end (R178). -/
def stop2Step (i : Fin 4) (s : State) : State :=
  let p := s.port i
  if p.curMsg.toNat + 1 < p.numMsg.toNat ∧ p.nacked = false then
    goto i .restart (sclDrive i false (s.setPort i { p with curMsg := p.curMsg + 1 }))
  else goto i .stop3 s

/-- RESTART: the second half of the extra clock pulse, then a fresh START2 (R181). -/
def restartStep (i : Fin 4) (s : State) : State := goto i .start2 (sclDrive i true s)

/-- STOP3: release SDA and finish (R183). -/
def stop3Step (i : Fin 4) (s : State) : State := goto i .complete (sdaRelease i s)

/-- COMPLETE: toggle the shared status pin; the state stays COMPLETE (R185). -/
def completeStep (_i : Fin 4) (s : State) : State := statusToggle s

/-- The meaning of WAIT: a step of the port being stepped. -/
def execWait (s : State) : Result := .next (waitStep s.eng.cur s)

/-- The meaning of STOP. -/
def execStop (s : State) : Result := .next (stopStep s.eng.cur s)

/-- The meaning of STOP2. -/
def execStop2 (s : State) : Result := .next (stop2Step s.eng.cur s)

/-- The meaning of RESTART. -/
def execRestart (s : State) : Result := .next (restartStep s.eng.cur s)

/-- The meaning of STOP3. -/
def execStop3 (s : State) : Result := .next (stop3Step s.eng.cur s)

/-- The meaning of COMPLETE. -/
def execComplete (s : State) : Result := .next (completeStep s.eng.cur s)

end Sys2Proof.Machine
end

