-- ==== Sys2Proof/Machine/Tick.lean ====
section
/-! DEFINITION. TICK (40_tick_dispatch.md R120 to R127): the dispatch of one timer tick. -/

namespace Sys2Proof.Machine

/-- The STATE row that a state code selects (30_encoding.md R96, R107). -/
def stateInstr : SeqState → Instr
  | .idle => .idle
  | .start => .start
  | .start2 => .start2
  | .addr => .addr
  | .write => .write
  | .read => .read
  | .wbit => .wbit
  | .rbit => .rbit
  | .wack => .wack
  | .rack => .rack
  | .stop => .stop
  | .stop2 => .stop2
  | .stop3 => .stop3
  | .restart => .restart
  | .wait => .wait
  | .complete => .complete

/-- PortStep (R122): exactly one step of port `i`, by its state at the start of the step. -/
def portStep (i : Fin 4) (s : State) : State :=
  match (s.port i).state with
  | .idle => idleStep i s
  | .start => startStep i s
  | .start2 => start2Step i s
  | .addr => addrStep i s
  | .write => writeStep i s
  | .read => readStep i s
  | .wbit => wbitStep i s
  | .rbit => rbitStep i s
  | .wack => wackStep i s
  | .rack => rackStep i s
  | .stop => stopStep i s
  | .stop2 => stop2Step i s
  | .stop3 => stop3Step i s
  | .restart => restartStep i s
  | .wait => waitStep i s
  | .complete => completeStep i s

/-- One turn of the dispatch loop: `P` is port `i`, which is stepped when it is requested and not IDLE (R120, R121). -/
def tickPort (i : Fin 4) (s : State) : State :=
  let s := { s with eng.cur := i }
  if s.isActive i then portStep i s else s

/-- The start of a tick: the spec's tick counter (60_exceptions.md R253) and the toggle count of R216. -/
def tickBegin (s : State) : State := { s with eng.tick := s.eng.tick + 1, eng.toggles := 0 }

/-- The ports in ascending order (R125). -/
def tickPorts (s : State) : State := tickPort 3 (tickPort 2 (tickPort 1 (tickPort 0 s)))

/-- The end of a tick: disable the timer when no port needs it (R126), always acknowledge it (R127), then the edge latch
(46_completion_service.md R216). -/
def tickEnd (s : State) : State :=
  edgeLatch (ackTimer .tick (if needsTicks s then s else disableTimer .tick s))

/-- TICK (R120): one delivered tick. Whether it can be delivered is `tickDeliverable` (60_exceptions.md R243). -/
def tickStep (s : State) : State := tickEnd (tickPorts (tickBegin s))

/-- The meaning of TICK. -/
def execTick (s : State) : Result := .next (tickStep s)

end Sys2Proof.Machine
end

