-- ==== Sys2Proof/Machine/Dispatch.lean ====
section
/-! DEFINITION. One arm per instruction. -/

namespace Sys2Proof.Machine

def exec (i : Instr) (s : State) : Host.Outcome State Fault Refusal :=
  match i with
  | .idle => Sys2Proof.Machine.execIdle s
  | .start => Sys2Proof.Machine.execStart s
  | .start2 => Sys2Proof.Machine.execStart2 s
  | .addr => Sys2Proof.Machine.execAddr s
  | .write => Sys2Proof.Machine.execWrite s
  | .read => Sys2Proof.Machine.execRead s
  | .wbit => Sys2Proof.Machine.execWbit s
  | .rbit => Sys2Proof.Machine.execRbit s
  | .wack => Sys2Proof.Machine.execWack s
  | .rack => Sys2Proof.Machine.execRack s
  | .stop => Sys2Proof.Machine.execStop s
  | .stop2 => Sys2Proof.Machine.execStop2 s
  | .stop3 => Sys2Proof.Machine.execStop3 s
  | .restart => Sys2Proof.Machine.execRestart s
  | .wait => Sys2Proof.Machine.execWait s
  | .complete => Sys2Proof.Machine.execComplete s
  | .init => Sys2Proof.Machine.execInit s
  | .req port sda scl => Sys2Proof.Machine.execReq port sda scl s
  | .rel port => Sys2Proof.Machine.execRel port s
  | .xfer port msgs => Sys2Proof.Machine.execXfer port msgs s
  | .unload => Sys2Proof.Machine.execUnload s
  | .tick => Sys2Proof.Machine.execTick s
  | .sirq => Sys2Proof.Machine.execSirq s

end Sys2Proof.Machine
end

