-- ==== Sys2Proof/Machine/Schedule.lean ====
section
/-! DEFINITION. Which agent steps next (60_exceptions.md R243, R244). The command stream "stands for a schedule"
(30_encoding.md R100); its conventions are those of 95_test_vectors.md section 0: a TICK word is the timer's fire followed
at once by the tick it makes deliverable, and the companion's steps run to their end before the next word. Environment
events between any two steps come from `State.env`. Assumptions 1 to 5, 21. -/

namespace Sys2Proof.Machine

/-- TIMER_FIRE (60_exceptions.md R241). -/
def timerFire (s : State) : State := { s with eng.timerPending := true }

/-- The timer fires and, if that makes a tick deliverable, the tick follows at once (R241, R243, R244(1)). -/
def fireTick (s : State) : Result :=
  if tickDeliverable (timerFire s) then exec .tick (timerFire s) else .next (timerFire s)

/-- One environment event (R241, R248 to R251, R257; 30_encoding.md R100). A claim by another owner takes the vector from
the engine when the engine yields, and its release gives it back (ENGINE_YIELDS). Assumption 17. -/
def applyEnv (e : EnvEvent) (s : State) : State :=
  match e with
  | .quiet => s
  | .timerFire => timerFire s
  | .claim => if s.eng.vectorOwned && s.plat.engineYields then { s with eng.vectorOwned := false } else s
  | .release =>
    if !s.eng.vectorOwned && s.eng.ready && s.plat.engineYields then { s with eng.vectorOwned := true } else s
  | .hostWrite a b => { s with host.mem := s.host.mem.write a b }
  | .handles cb ctx => { s with host.cb := cb, host.ctx := ctx }
  | .ticking on => { s with draws.ticking := on }

/-- The stream goes on `n` bytes further. -/
def advance (n : Nat) (s : State) : State := { s with host.pc := s.host.pc + n }

/-- The next word of the command stream, decoded; none at its end. The end is tested at the word's first byte alone: of a command
that the end of the stream cuts off, the bytes past the end are what host memory holds there, and the command runs (DESIGN
CHOICE, assumption 32: the spec does not speak of a stream that ends inside a command). -/
def nextWord (s : State) : Option Decoded :=
  if s.host.pc < s.host.limit then some (decodeCmd s.host.mem.read s.host.pc) else none

/-- The port whose record a host command is a call on (45_port_lifecycle.md R209). -/
def callPort : Instr → Option (Fin 4)
  | .req port _ _ => portIndex port
  | .rel port => portIndex port
  | .xfer port _ => portIndex port
  | .idle | .start | .start2 | .addr | .write | .read | .wbit | .rbit | .wack | .rack | .stop | .stop2 | .stop3
  | .restart | .wait | .complete | .init | .unload | .tick | .sirq => none

/-- The command is a call on a port on which a REL holds (R209). -/
def overlaps (i : Instr) (s : State) : Bool :=
  match callPort i with
  | none => false
  | some p => s.host.held.contains p

/-- A held REL whose port is IDLE (R206). -/
def heldReady (s : State) : Option (Fin 4) := s.host.held.find? fun p => (s.port p).state == .idle

/-- No agent has a step: a timer that goes on firing fires if the line is enabled and owned (R244 Fairness; assumption 4).
Otherwise nothing changes: the machine is idle (R256), or a REL holds for ever, a hang (R238; assumption 5). -/
def idleOrFire (s : State) : Result :=
  if s.draws.ticking && s.eng.timerEnabled && s.eng.vectorOwned then fireTick s else .next s

/-- The host's next command (R244(3)). While a REL holds the host has no step (45_port_lifecycle.md R206), and a second
call on the same port is refused (R209; assumption 21). -/
def hostIssue (i : Instr) (size : Nat) (s : State) : Result :=
  if s.host.held = [] then mapNext (advance size) (exec i s)
  else if overlaps i s then .next (advance size (s.refuse .overlappingCall))
  else idleOrFire s

/-- A word that selects nothing is refused (30_encoding.md R103) when the host has a step: not while a REL holds (R206). The
stream goes on by that one word, whatever its op: what follows a refused XFER word, where a good one has its messages, is
read as the next command (DESIGN CHOICE, assumption 6: R104 gives the length of an XFER, not of a word that is refused). -/
def badWord (s : State) : Result :=
  if s.host.held = [] then .next (advance 4 (s.refuse .reservedEncoding)) else idleOrFire s

/-- A SIRQ word: one delivery if it can be delivered, else nothing (46_completion_service.md R215, vectors Q-2 to Q-4;
assumption 3). -/
def sirqWord (size : Nat) (s : State) : Result :=
  if sirqDeliverable s then mapNext (advance size) (exec .sirq s) else .next (advance size s)

/-- The next step when no tick is deliverable and the companion is at rest: a TICK or SIRQ word of the stream; a
deliverable SIRQ (R244(2)); a held REL that can go on; the host's next command; else the environment. -/
def streamStep (s : State) : Result :=
  match nextWord s with
  | some (.ok .sirq n) => sirqWord n s
  | some (.ok .tick n) =>
    if sirqDeliverable s then mapNext (advance n) (fireTick s)
    else match heldReady s with
      | some p => .next (commitRel p s)
      | none => mapNext (advance n) (fireTick s)
  | w =>
    if sirqDeliverable s then exec .sirq s
    else match heldReady s with
      | some p => .next (commitRel p s)
      | none =>
        match w with
        | none => idleOrFire s
        | some (.bad _) => badWord s
        | some (.ok i n) => hostIssue i n s

/-- The step of the agent whose turn it is (R244): the tick, then the companion, then the stream. -/
def agentStep (s : State) : Result :=
  if tickDeliverable s then exec .tick s
  else match s.comp.pendingCb with
    | some c => .next (companionCallback c s)
    | none => if s.comp.active then .next (companionService s) else streamStep s

/-- One step of the machine: the environment event of this step, if one is due, else an agent's step. -/
def stepOf (s : State) : Result :=
  match s.env with
  | [] => agentStep s
  | .quiet :: rest => agentStep { s with env := rest }
  | e :: rest => .next (applyEnv e { s with env := rest })

/-- Put an instruction whose bits are `w` where the next step fetches it, all else at rest. The longest instruction is an
XFER of 3 messages of 65535 bytes: the memory it could cover is cleared first, so its bits above `nbits` are 0. -/
def placeCommand (nbits w : Nat) (s : State) : State :=
  let bs := natToBytes ((nbits + 7) / 8) w
  let kept : Memory := s.host.mem.filter fun c => decide (c.1 < s.host.pc) || decide (s.host.pc + 196621 ≤ c.1)
  let mem := kept.writeBytes s.host.pc bs
  let s := { s with
    host.mem := mem
    host.limit := s.host.pc + (bs.length + 12)
    host.held := []
    env := []
    eng.timerPending := false
    comp.pendingCb := none
    comp.active := false }
  match nextWord s with
  | some (.ok .tick _) =>
    { s with eng.timerEnabled := true, eng.vectorOwned := true, eng.fiqMasked := false }
  | some (.ok .sirq _) => { s with eng.statusPending := true, eng.statusAssoc := s.eng.statusAssoc ||| portBit 0 }
  | _ => { s with eng.statusPending := false }

/-- Make the next step a tick that steps port 0 alone, in the state whose code is `w[3:0]`: that is how a STATE row comes to
run (30_encoding.md R107). -/
def placeState (w : Nat) (s : State) : State :=
  let st : SeqState :=
    match w % 16 with
    | 0 => .idle
    | 1 => .start
    | 2 => .start2
    | 3 => .addr
    | 4 => .write
    | 5 => .read
    | 6 => .wbit
    | 7 => .rbit
    | 8 => .wack
    | 9 => .rack
    | 10 => .stop
    | 11 => .stop2
    | 12 => .stop3
    | 13 => .restart
    | 14 => .wait
    | _ => .complete
  let s := s.setPort 0 { s.port 0 with state := st, requested := true }
  { s with
    eng.requested := portBit 0
    eng.timerEnabled := true
    eng.timerPending := true
    eng.vectorOwned := true
    eng.fiqMasked := false
    env := [] }

end Sys2Proof.Machine
end

