-- ==== Sys2Proof/Machine/Step.lean ====
section
/-! DEFINITION. One step of the machine, and the placing of one instruction where the next step fetches it. -/

namespace Sys2Proof.Machine

/-- One step (60_exceptions.md R244). -/
def step (s : State) : Host.Outcome State Fault Refusal := stepOf s

/-- `s` with the instruction whose bits are `w` where `step` fetches its next one. A STATE row (at most 8 bits) is fetched
from `P.state` of a port in a tick, a CMD row from the command stream (30_encoding.md R107). Assumption 19. -/
def State.withFetchWord (s : State) (nbits w : Nat) : State :=
  if nbits ≤ 8 then placeState w s else placeCommand nbits w s

end Sys2Proof.Machine
end

