-- ==== Sys2Proof/Safety.lean ====
section
/-! DEFINITION. The terms in which claims are stated: the pins and their lines, what a step leaves alone, the invariants of
10_state.md R34 and the other whole-machine rules, a run without marks, and the end of a run. -/

namespace Sys2Proof.Machine

/-! Pins. -/

/-- The pair block of a logical pin (30_encoding.md R93). -/
def pinBlock (n : BitVec 8) : Fin 8 := ⟨n.toNat / 32, by have := n.isLt; omega⟩

/-- The bit of a logical pin within the words of its pair block (30_encoding.md R93). -/
def pinBit (n : BitVec 8) : Nat := n.toNat % 32

/-- The pin is an output, by its DIR bit and DIR_IN_BIT (10_state.md R31). -/
def pinOutput (s : State) (n : BitVec 8) : Bool :=
  (outputMask s.plat.dirInBit s.gpio (pinBlock n)).getLsbD (pinBit n)

/-- The pin's output latch (10_state.md R31). -/
def pinLatch (s : State) (n : BitVec 8) : Bool := s.gpio.latch[pinBlock n].getLsbD (pinBit n)

/-- The sequencer drives the pin to `v`: an output whose latch is `v` (10_state.md R35). -/
def DrivenTo (s : State) (n : BitVec 8) (v : Bool) : Prop := pinOutput s n = true ∧ pinLatch s n = v

/-- The pin keeps its direction and its latch. -/
def PinKept (s t : State) (n : BitVec 8) : Prop := pinOutput t n = pinOutput s n ∧ pinLatch t n = pinLatch s n

/-- Every pin but the listed ones keeps its direction and its latch. -/
def PinsKept (s t : State) (ns : List (BitVec 8)) : Prop := ∀ m, m ∉ ns → PinKept s t m

/-- Port `i` has SDA on pin `d` and SCL on pin `c`, two different pins (45_port_lifecycle.md R194). -/
def PortPins (s : State) (i : Fin 4) (d c : BitVec 8) : Prop :=
  (s.port i).sda = gpioPin d ∧ (s.port i).scl = gpioPin c ∧ d ≠ c

/-- The level of port `i`'s SDA line while its bus shows the next draw of `bus_bit(i)` (10_state.md R35, R39). -/
def sdaLine (s : State) (i : Fin 4) (d : BitVec 8) : Bool := if pinOutput s d then pinLatch s d else busBit i s

/-- The trace entries of `Drive(pin, v)` (20_memory.md R66, R70): the latch write, then the direction write. -/
def driveEntries (ag : Agent) (s : State) (n : BitVec 8) (v : Bool) : List TraceEntry :=
  [⟨s.eng.tick, ag, .gpio, if v then (gpioPin n).setOff else (gpioPin n).clrOff, (gpioPin n).mask⟩,
    ⟨s.eng.tick, ag, .gpio, (gpioPin n).dirOff,
      if s.plat.dirInBit = 1 then s.gpio.dir[pinBlock n] &&& ~~~(gpioPin n).mask
      else s.gpio.dir[pinBlock n] ||| (gpioPin n).mask⟩]

/-- The trace entry of `Release(pin)` (20_memory.md R67, R70). -/
def releaseEntries (ag : Agent) (s : State) (n : BitVec 8) : List TraceEntry :=
  [⟨s.eng.tick, ag, .gpio, (gpioPin n).dirOff,
    if s.plat.dirInBit = 1 then s.gpio.dir[pinBlock n] ||| (gpioPin n).mask
    else s.gpio.dir[pinBlock n] &&& ~~~(gpioPin n).mask⟩]

/-- The state in which the pin's DIR bit says output: what a later direction write of the same step reads after a drive of the
pin (20_memory.md R66, R76). -/
def asOutput (s : State) (n : BitVec 8) : State :=
  let dir := s.gpio.dir[pinBlock n]
  let mask := (gpioPin n).mask
  let gpio := { s.gpio with dir := s.gpio.dir.set (pinBlock n) (if s.plat.dirInBit = 1 then dir &&& ~~~mask else dir ||| mask) }
  { s with gpio := gpio }

/-- The trace of `t` is that of `s` and then these entries (20_memory.md R70). -/
def Traced (s t : State) (entries : List TraceEntry) : Prop := t.obs.trace = s.obs.trace ++ entries

/-! Frames. -/

/-- A step of port `i` that touches nothing but the port's record, the GPIO words and the trace, which grows. -/
def OnlyPort (i : Fin 4) (s t : State) : Prop :=
  t = { s with
    ports := s.ports.set i (t.port i)
    gpio := t.gpio
    obs := { s.obs with trace := t.obs.trace } }
  ∧ s.obs.trace <+: t.obs.trace

/-- As `OnlyPort`, and one draw of the port's `bus_bit`. -/
def OnlyPortSampled (i : Fin 4) (s t : State) : Prop :=
  t = { s with
    ports := s.ports.set i (t.port i)
    gpio := t.gpio
    obs := { s.obs with trace := t.obs.trace }
    draws := { s.draws with bus := s.draws.bus.set i s.draws.bus[i].advance } }
  ∧ s.obs.trace <+: t.obs.trace

/-! Invariants. -/

/-- 10_state.md R34 for one port, strengthened where an induction needs it: (a), (b), (c) (its clause on `cur_msg` from
START2 on; assumption 20), (d), (e) (also in WAIT and RBIT), (f), (g); and 30_encoding.md R101. -/
def PortInv (s : State) (i : Fin 4) : Prop :=
  let p := s.port i
  p.requested = s.isRequested i
  ∧ (p.state ≠ .idle → s.isRequested i = true)
  ∧ (p.state ≠ .idle → 1 ≤ p.numMsg.toNat ∧ p.numMsg.toNat ≤ 2)
  ∧ (p.state ≠ .idle → p.state ≠ .start → p.curMsg.toNat < p.numMsg.toNat)
  ∧ (p.state ∈ [.wbit, .rack, .wack] → p.bufOffset ≤ p.cur.len)
  ∧ (p.state ∈ [.write, .read, .rbit, .wait] → p.bufOffset < p.cur.len)
  ∧ (p.state = .wait → 1 ≤ p.waitCycles.toNat ∧ p.waitCycles.toNat ≤ 4)
  ∧ (p.bitMask = 0 ∨ ∃ j, j < 8 ∧ p.bitMask = 1#8 <<< j)
  ∧ (p.result = 0 ∨ p.result = s.plat.noackCode)

/-- 10_state.md R34 for one port, (a) to (g) as they are written. `PortInv` gives it in every state but START, where (c) does
not hold (assumption 20). -/
def PortR34 (s : State) (i : Fin 4) : Prop :=
  let p := s.port i
  p.requested = s.isRequested i
  ∧ (p.state ≠ .idle → s.isRequested i = true)
  ∧ (p.state ≠ .idle → (1 ≤ p.numMsg.toNat ∧ p.numMsg.toNat ≤ 2) ∧ p.curMsg.toNat < p.numMsg.toNat)
  ∧ (p.state ∈ [.write, .read, .wbit, .rbit, .rack, .wack, .wait] → p.bufOffset ≤ p.cur.len)
  ∧ (p.state ∈ [.write, .read] → p.bufOffset < p.cur.len)
  ∧ (p.state = .wait → 1 ≤ p.waitCycles.toNat ∧ p.waitCycles.toNat ≤ 4)
  ∧ (p.bitMask = 0 ∨ ∃ j, j < 8 ∧ p.bitMask = 1#8 <<< j)

/-- The invariants of all four ports, and that a holding REL is on a requested port and alone (45_port_lifecycle.md R206). -/
def PortsInv (s : State) : Prop :=
  (∀ i, PortInv s i) ∧ s.host.held.length ≤ 1 ∧ ∀ i, i ∈ s.host.held → s.isRequested i = true

/-- The engine's flags agree (10 R40, 70 R272, 45 R190, R205, R208): nothing is requested or enabled while not ready, a
handler is installed exactly for the requested ports, an active port keeps the timer line enabled (40_tick_dispatch.md
R126), and the tick is masked only inside the companion's service (60_exceptions.md R243). -/
def EngineInv (s : State) : Prop :=
  (s.eng.ready = false → s.eng.requested = 0 ∧ s.eng.timerEnabled = false ∧ s.eng.vectorOwned = false)
  ∧ s.eng.statusAssoc = s.eng.requested
  ∧ (∀ i, s.isActive i = true → s.eng.timerEnabled = true)
  ∧ s.eng.fiqMasked = false

/-- The companion's counters are in the ranges of 46_completion_service.md R214, and an active companion has a scan to
run. -/
def CompanionInv (s : State) : Prop :=
  s.comp.scans ≤ 4 ∧ s.comp.next ≤ 4 ∧ (s.comp.active = true → 1 ≤ s.comp.scans)

/-- Both memories are in their canonical form. -/
def MemInv (s : State) : Prop := s.store.wf = true ∧ s.host.mem.wf = true

/-- The pins in use are pins, and no two of them are the same (45_port_lifecycle.md R194, 70_reset_and_hazards.md R282):
of a requested port, SDA and SCL; of a ready engine, the status pin. -/
def PinsInv (s : State) : Prop :=
  (∀ i, s.isRequested i = true → ∃ d c, PortPins s i d c ∧ d ≠ s.plat.statusPin ∧ c ≠ s.plat.statusPin)
  ∧ (s.eng.ready = true → s.eng.statusPin = gpioPin s.plat.statusPin)
  ∧ (∀ i j d c d' c', i ≠ j → s.isRequested i = true → s.isRequested j = true → PortPins s i d c → PortPins s j d' c' →
      d ≠ d' ∧ d ≠ c' ∧ c ≠ d' ∧ c ≠ c')
  ∧ (s.eng.ready = false → s.eng.requested = 0)

/-- No refusal mark and no fault so far: the premise of a claim about a run (60_exceptions.md R236, R237). -/
def Unmarked (s : State) : Prop := s.refused = [] ∧ s.faults = []

/-! Runs. -/

/-- `n` executions of one instruction in a row. -/
def execTimes (i : Instr) : Nat → State → Result
  | 0, s => .next s
  | n + 1, s =>
    match exec i s with
    | .next t => execTimes i n t
    | .fault r => .fault r
    | .refused r => .refused r

/-- `n` steps of the machine in a row. -/
def stepTimes : Nat → State → Result
  | 0, s => .next s
  | n + 1, s =>
    match step s with
    | .next t => stepTimes n t
    | .fault r => .fault r
    | .refused r => .refused r

/-- 70_reset_and_hazards.md R296 (a) to (c): the host has no further command and no REL holds, every requested port is IDLE,
and the companion is at rest. That the host has no further command is here that the whole stream is at its end, so a TICK or
SIRQ word still in it keeps the run from having ended too (DESIGN CHOICE, assumption 33: R100 says that the environment issues
those words, and R296 speaks of the host's commands). -/
def AllDone (s : State) : Prop :=
  (nextWord s = none ∧ s.host.held = [])
  ∧ (∀ i, s.isRequested i = true → (s.port i).state = .idle)
  ∧ s.comp.active = false ∧ s.comp.pendingCb = none

/-- 70_reset_and_hazards.md R296: the run has ended, (a) to (d). A pending spurious SIRQ may remain. Its observation is
`State.obs`. -/
def Ended (s : State) : Prop := AllDone s ∧ s.eng.timerEnabled = false

/-- R296: the run has ended normally, with no refusal mark and no fault. -/
def EndedNormally (s : State) : Prop := Ended s ∧ Unmarked s

/-- R296: the end of a run discards a pending spurious SIRQ. -/
def endRun (s : State) : State := { s with eng.statusPending := false }

/-- The command is a call on port `i` (45_port_lifecycle.md R209). -/
def CallOn (i : Fin 4) : Instr → Prop
  | .req port _ _ => port.toNat = i.val
  | .rel port => port.toNat = i.val
  | .xfer port _ => port.toNat = i.val
  | .idle | .start | .start2 | .addr | .write | .read | .wbit | .rbit | .wack | .rack | .stop | .stop2 | .stop3
  | .restart | .wait | .complete | .init | .unload | .tick | .sirq => False

/-- No tick can be delivered and the environment has nothing due: a companion step, if one is enabled, is next
(60_exceptions.md R244). -/
def BelowTick (s : State) : Prop := s.env = [] ∧ tickDeliverable s = false

/-- No interrupt, no companion step, no holding REL and no environment event stands before the next word of the command
stream (60_exceptions.md R244). -/
def HostTurn (s : State) : Prop :=
  s.env = [] ∧ tickDeliverable s = false ∧ s.comp.pendingCb = none ∧ s.comp.active = false
  ∧ sirqDeliverable s = false ∧ s.host.held = []

end Sys2Proof.Machine
end

