-- ==== Sys2Proof/Certificates/Slice0/Obligations.lean ====
section
/-! DEFINITION. The statements for the provers, in the order of the spec's files. `s` is any state; every next state is named
by the conclusion. A statement about a port's pins takes `PortPins` as its premise: `PinsInvKept` says that it holds of every
requested port. -/

open Sys2Proof Sys2Proof.Machine

/-! Encoding (30_encoding.md). -/

/-- Decoding an encoded instruction gives it back, with every operand at every value the encoding admits, whatever bytes
follow (R96, R98, R99, R100, R104, R107). The byte order in the stream is the model's choice (assumption 11). -/
def Obligations.EncodeDecode : Prop :=
  ∀ (i : Instr) (rest : List Byte), i.wf = true → decode i.format (encode i ++ rest) = .ok i (encode i).length

/-- A few words written out from the spec's encodings and vectors (95_test_vectors.md section 2.3, R96) decode to what they
stand for. The byte order in the stream is the model's choice (assumption 11). -/
def Obligations.SpecWordsDecode : Prop :=
  decode .state [0x3] = .ok .addr 1
  ∧ decode .state [0xE] = .ok .wait 1
  ∧ decode .cmd (wordToBytes 0x00000001) = .ok .init 4
  ∧ decode .cmd (wordToBytes 0x00030202) = .ok (.req 0 2 3) 4
  ∧ decode .cmd (wordToBytes 0x00242312) = .ok (.req 1 35 36) 4
  ∧ decode .cmd (wordToBytes 0x00000013) = .ok (.rel 1) 4
  ∧ decode .cmd (wordToBytes 0x00000005) = .ok .unload 4
  ∧ decode .cmd (wordToBytes 0x00000008) = .ok .tick 4
  ∧ decode .cmd (wordToBytes 0x00000009) = .ok .sirq 4
  ∧ decode .cmd (wordToBytes 0x00000214 ++ wordToBytes 0x00000101 ++ [0x42] ++ wordToBytes 0x00000281 ++ [9, 9])
      = .ok (.xfer 1 [⟨0x01, false, 0, [0x42]⟩, ⟨0x01, true, 0, [9, 9]⟩]) 15

/-- Which words select nothing: a CMD word is rejected exactly when its `rsvd` is not 0, its `op` is reserved, or a field its
command does not use is not 0; of the STATE codes none is (R103, R100). -/
def Obligations.ReservedWords : Prop :=
  (∀ (w : Word) (rest : List Byte),
    (∃ e, decode .cmd (wordToBytes w ++ rest) = .bad e) ↔
      w.extractLsb' 24 8 ≠ 0
      ∨ w.extractLsb' 0 4 ∈ [0x0#4, 0x6#4, 0x7#4, 0xA#4, 0xB#4, 0xC#4, 0xD#4, 0xE#4, 0xF#4]
      ∨ (w.extractLsb' 0 4 ∈ [0x1#4, 0x5#4, 0x8#4, 0x9#4] ∧ w.extractLsb' 4 20 ≠ 0)
      ∨ (w.extractLsb' 0 4 = 0x3#4 ∧ w.extractLsb' 8 16 ≠ 0)
      ∨ (w.extractLsb' 0 4 = 0x4#4 ∧ w.extractLsb' 10 14 ≠ 0))
  ∧ ∀ b : Byte, ∃ i, decode .state [b] = .ok i 1 ∧ stateCode i = b.extractLsb' 0 4 ∧ i.format = .state

/-- R93: two pins share a pair block exactly when `pin1 >> 5 = pin2 >> 5`, and two different ones then have different masks;
the block is `(pin >> 5) * 0x28` and the mask `1 << (pin & 0x1F)`. -/
def Obligations.PinBlocks : Prop :=
  (∀ n : BitVec 8, gpioPin n =
    { dirOff := (n >>> 5).toNat * 0x28 + 0x10
      setOff := (n >>> 5).toNat * 0x28 + 0x18
      clrOff := (n >>> 5).toNat * 0x28 + 0x1C
      inOff := (n >>> 5).toNat * 0x28 + 0x20
      mask := 1#32 <<< (n &&& 0x1F).toNat })
  ∧ (∀ m n : BitVec 8, (gpioPin m).dirOff = (gpioPin n).dirOff ↔ m >>> 5 = n >>> 5)
  ∧ ∀ m n : BitVec 8, m ≠ n → m >>> 5 = n >>> 5 → (gpioPin m).mask ≠ (gpioPin n).mask

/-! Pin primitives (20_memory.md). -/

/-- R66: `Drive(pin, v)` makes the pin an output at `v`, by the latch write and then the direction write, which the trace
records, and changes nothing else. -/
def Obligations.DriveResult : Prop :=
  ∀ (ag : Agent) (n : BitVec 8) (v : Bool) (s : State),
    let t := drive ag (gpioPin n) v s
    DrivenTo t n v ∧ PinsKept s t [n]
    ∧ t = { s with gpio := t.gpio, obs := { s.obs with trace := s.obs.trace ++ driveEntries ag s n v } }

/-- R67: `Release(pin)` makes the pin an input by one direction write, which the trace records; its latch and every other pin
are kept, and nothing else changes. -/
def Obligations.ReleaseResult : Prop :=
  ∀ (ag : Agent) (n : BitVec 8) (s : State),
    let t := release ag (gpioPin n) s
    pinOutput t n = false ∧ pinLatch t n = pinLatch s n ∧ PinsKept s t [n]
    ∧ t = { s with
        gpio := t.gpio
        obs := { s.obs with trace := s.obs.trace ++ [⟨s.eng.tick, ag, .gpio, (gpioPin n).dirOff,
          if s.plat.dirInBit = 1 then s.gpio.dir[pinBlock n] ||| (gpioPin n).mask
          else s.gpio.dir[pinBlock n] &&& ~~~(gpioPin n).mask⟩] } }

/-- R68 with 10_state.md R35, R39: a sample of a released SDA is the port's next draw of `bus_bit` (assumption 9), of a driven
SDA its latch; it uses up one draw, and changes nothing else. That a sample of a driven SDA uses a draw too is assumption 23.
-/
def Obligations.SampleResult : Prop :=
  ∀ (i : Fin 4) (d : BitVec 8) (s : State), (s.port i).sda = gpioPin d →
    sampleBit i s = (if pinOutput s d then pinLatch s d else busBit i s)
    ∧ noteSample i s = { s with draws := { s.draws with bus := s.draws.bus.set i s.draws.bus[i].advance } }

/-- R66, R65: driving a pin that is already an output at that level leaves every GPIO word unchanged. -/
def Obligations.DriveAgain : Prop :=
  ∀ (ag : Agent) (n : BitVec 8) (v : Bool) (s : State), DrivenTo s n v → (drive ag (gpioPin n) v s).gpio = s.gpio

/-! State actions (41_start_states.md to 44_stop_wait_states.md). `i` is the port being stepped. -/

/-- 41 R140: IDLE changes nothing. -/
def Obligations.IdleResult : Prop := ∀ s : State, exec .idle s = .next s

/-- 41 R141: START resets the message cursor and the result, goes to START2, touches no pin, and changes nothing else. -/
def Obligations.StartResult : Prop :=
  ∀ s : State, exec .start s =
    .next { s with ports := s.ports.set s.eng.cur { s.port s.eng.cur with curMsg := 0, result := 0, state := .start2 } }

/-- 41 R142: START2 drives SDA low, clears `phase` and `nacked`, goes to ADDR, and changes nothing else; the trace records the
two writes of that drive. -/
def Obligations.Start2Result : Prop :=
  ∀ (s : State) (d c : BitVec 8), PortPins s s.eng.cur d c →
    ∃ t, exec .start2 s = .next t
      ∧ t.port s.eng.cur = { s.port s.eng.cur with phase := false, nacked := false, state := .addr }
      ∧ DrivenTo t d false ∧ PinsKept s t [d]
      ∧ t.obs.trace = s.obs.trace ++ driveEntries .tick s d false
      ∧ OnlyPort s.eng.cur s t

/-- 42 R145, R148, R149, R94, 40 R124: ADDR inverts the phase and drives SCL to it, assembles the address byte, resets the
cursor, and goes on into WBIT's action: at phase 1 (always, in a reachable state) nothing more, at phase 0 bit 7 goes out. The
trace records SCL's drive, then SDA's. -/
def Obligations.AddrResult : Prop :=
  ∀ (s : State) (d c : BitVec 8), PortPins s s.eng.cur d c →
    let p := s.port s.eng.cur
    let byte := p.cur.addr ++ BitVec.ofBool p.cur.rd
    ∃ t, exec .addr s = .next t ∧ DrivenTo t c (!p.phase) ∧ OnlyPort s.eng.cur s t
      ∧ Traced s t (driveEntries .tick s c (!p.phase)
          ++ if p.phase = true then driveEntries .tick (asOutput s c) d (byte.getLsbD 7) else [])
      ∧ if p.phase = false then
          t.port s.eng.cur =
            { p with phase := true, dataByte := byte, bufOffset := 0, bitMask := 0x80, state := .wbit }
          ∧ PinsKept s t [c]
        else
          t.port s.eng.cur =
            { p with phase := false, dataByte := byte, bufOffset := 0, bitMask := 0x40, state := .wbit }
          ∧ DrivenTo t d (byte.getLsbD 7) ∧ PinsKept s t [d, c]

/-- 42 R147, R148, R149, 20 R72, 40 R124: WRITE inverts the phase and drives SCL to it, loads the next byte of the message,
advances the cursor, and goes on into WBIT's action: at phase 0 (always, in a reachable state) bit 7 goes out. The trace
records SCL's drive, then SDA's. Beyond the message the fault InvariantBroken is recorded and the byte is a free value
(assumption 7). -/
def Obligations.WriteResult : Prop :=
  ∀ (s : State) (d c : BitVec 8), PortPins s s.eng.cur d c →
    let i := s.eng.cur
    let p := s.port i
    let byte : Byte :=
      if p.bufOffset < p.cur.len then s.store.read (storeAddr i p.curMsg p.bufOffset.toNat)
      else Config.bufOutOfRange i.val p.curMsg.toNat p.bufOffset.toNat
    ∃ t, exec .write s = .next t ∧ DrivenTo t c (!p.phase)
      ∧ t.faults = (if p.bufOffset < p.cur.len then s.faults else addOnce .invariantBroken s.faults)
      ∧ OnlyPort i { s with faults := t.faults } t
      ∧ Traced s t (driveEntries .tick s c (!p.phase)
          ++ if p.phase = true then driveEntries .tick (asOutput s c) d (byte.getLsbD 7) else [])
      ∧ if p.phase = true then
          t.port i =
            { p with phase := false, dataByte := byte, bufOffset := p.bufOffset + 1, bitMask := 0x40, state := .wbit }
          ∧ DrivenTo t d (byte.getLsbD 7) ∧ PinsKept s t [d, c]
        else
          t.port i =
            { p with phase := true, dataByte := byte, bufOffset := p.bufOffset + 1, bitMask := 0x80, state := .wbit }
          ∧ PinsKept s t [c]

/-- 42 R149, 40 R124: WBIT inverts the phase and drives SCL to it. With SCL low SDA takes the bit under `bit_mask`, which
moves right; with SCL high nothing more, and after the eighth bit the port goes to RACK. The trace records SCL's drive, then
SDA's. -/
def Obligations.WbitResult : Prop :=
  ∀ (s : State) (d c : BitVec 8), PortPins s s.eng.cur d c →
    let p := s.port s.eng.cur
    ∃ t, exec .wbit s = .next t ∧ DrivenTo t c (!p.phase) ∧ OnlyPort s.eng.cur s t
      ∧ Traced s t (driveEntries .tick s c (!p.phase)
          ++ if p.phase = true then driveEntries .tick (asOutput s c) d (p.dataByte &&& p.bitMask != 0) else [])
      ∧ if p.phase = true then
          t.port s.eng.cur = { p with phase := false, bitMask := p.bitMask >>> 1 }
          ∧ DrivenTo t d (p.dataByte &&& p.bitMask != 0) ∧ PinsKept s t [d, c]
        else
          t.port s.eng.cur = { p with phase := true, state := if p.bitMask = 0 then .rack else p.state }
          ∧ PinsKept s t [c]

/-- 42 R151, R152, 40 R124: RACK inverts the phase and drives SCL to it. With SCL low SDA is released; with SCL high SDA is
sampled: on ACK to WAIT for 4 ticks while bytes remain, else to STOP; on NACK `nacked`, the result NOACK_CODE, to STOP. The
trace records SCL's drive, then SDA's release. -/
def Obligations.RackResult : Prop :=
  ∀ (s : State) (d c : BitVec 8), PortPins s s.eng.cur d c →
    let p := s.port s.eng.cur
    ∃ t, exec .rack s = .next t ∧ DrivenTo t c (!p.phase)
      ∧ Traced s t (driveEntries .tick s c (!p.phase)
          ++ if p.phase = true then releaseEntries .tick (asOutput s c) d else [])
      ∧ if p.phase = true then
          t.port s.eng.cur = { p with phase := false }
          ∧ pinOutput t d = false ∧ pinLatch t d = pinLatch s d ∧ PinsKept s t [d, c] ∧ OnlyPort s.eng.cur s t
        else
          t.port s.eng.cur =
            (if sdaLine s s.eng.cur d = false then
              if p.bufOffset < p.cur.len then { p with phase := true, waitCycles := 4, state := .wait }
              else { p with phase := true, state := .stop }
            else { p with phase := true, nacked := true, result := s.plat.noackCode, state := .stop })
          ∧ PinsKept s t [c] ∧ OnlyPortSampled s.eng.cur s t

/-- 43 R160, R162, 40 R124: READ inverts the phase and drives SCL to it, releases SDA, clears the accumulator, and goes on
into RBIT's action: at phase 0 (always, in a reachable state) nothing more, at phase 1 the first bit is sampled. The trace
records SCL's drive, then SDA's release. -/
def Obligations.ReadResult : Prop :=
  ∀ (s : State) (d c : BitVec 8), PortPins s s.eng.cur d c →
    let p := s.port s.eng.cur
    ∃ t, exec .read s = .next t ∧ DrivenTo t c (!p.phase)
      ∧ Traced s t (driveEntries .tick s c (!p.phase) ++ releaseEntries .tick (asOutput s c) d)
      ∧ pinOutput t d = false ∧ pinLatch t d = pinLatch s d ∧ PinsKept s t [d, c]
      ∧ if p.phase = true then
          t.port s.eng.cur = { p with phase := false, dataByte := 0, bitMask := 0x80, state := .rbit }
          ∧ OnlyPort s.eng.cur s t
        else
          t.port s.eng.cur =
            { p with
              phase := true
              dataByte := if busBit s.eng.cur s then 0x80 else 0
              bitMask := 0x40
              state := .rbit }
          ∧ OnlyPortSampled s.eng.cur s t

/-- 43 R162, 20 R72, 40 R124: RBIT inverts the phase and drives SCL to it. With SCL low nothing more. With SCL high SDA is
sampled into the bit under `bit_mask`, which moves right; with the eighth bit the byte goes into the message store, the cursor
advances and the port goes to WACK. Outside the message that store is dropped and the fault InvariantBroken recorded
(assumption 7). Every other byte of the store is kept. The trace records SCL's drive. -/
def Obligations.RbitResult : Prop :=
  ∀ (s : State) (d c : BitVec 8), PortPins s s.eng.cur d c → s.store.wf = true →
    let i := s.eng.cur
    let p := s.port i
    let data := if sdaLine s i d then p.dataByte ||| p.bitMask else p.dataByte
    let mask := p.bitMask >>> 1
    ∃ t, exec .rbit s = .next t ∧ DrivenTo t c (!p.phase) ∧ PinsKept s t [c]
      ∧ Traced s t (driveEntries .tick s c (!p.phase))
      ∧ if p.phase = true then t.port i = { p with phase := false } ∧ OnlyPort i s t
        else if mask ≠ 0 then
          t.port i = { p with phase := true, dataByte := data, bitMask := mask } ∧ OnlyPortSampled i s t
        else
          t.port i =
            { p with phase := true, dataByte := data, bitMask := mask, bufOffset := p.bufOffset + 1, state := .wack }
          ∧ OnlyPortSampled i { s with store := t.store, faults := t.faults } t
          ∧ if p.bufOffset < p.cur.len then
              t.faults = s.faults
              ∧ ∀ a, t.store.read a = if a = storeAddr i p.curMsg p.bufOffset.toNat then data else s.store.read a
            else t.faults = addOnce .invariantBroken s.faults ∧ t.store = s.store

/-- 43 R164, R165, 40 R124: WACK inverts the phase and drives SCL to it. With SCL low SDA is driven 1 after the last byte,
else 0; with SCL high the port goes to WAIT for 2 ticks while bytes remain, else to STOP. The trace records SCL's drive, then
SDA's. -/
def Obligations.WackResult : Prop :=
  ∀ (s : State) (d c : BitVec 8), PortPins s s.eng.cur d c →
    let p := s.port s.eng.cur
    ∃ t, exec .wack s = .next t ∧ DrivenTo t c (!p.phase) ∧ OnlyPort s.eng.cur s t
      ∧ Traced s t (driveEntries .tick s c (!p.phase)
          ++ if p.phase = true then driveEntries .tick (asOutput s c) d (decide (p.bufOffset = p.cur.len)) else [])
      ∧ if p.phase = true then
          t.port s.eng.cur = { p with phase := false }
          ∧ DrivenTo t d (decide (p.bufOffset = p.cur.len)) ∧ PinsKept s t [d, c]
        else
          t.port s.eng.cur =
            (if p.bufOffset < p.cur.len then { p with phase := true, waitCycles := 2, state := .wait }
            else { p with phase := true, state := .stop })
          ∧ PinsKept s t [c]

/-- 44 R170, R171: WAIT counts down; when the count is 0 the port goes to READ or WRITE by the message's direction; it drives
no pin and changes nothing else. -/
def Obligations.WaitResult : Prop :=
  ∀ s : State,
    let p := s.port s.eng.cur
    (p.waitCycles.toNat ≤ 1 → exec .wait s = .next { s with
      ports := s.ports.set s.eng.cur { p with waitCycles := 0, state := if p.cur.rd then .read else .write } })
    ∧ (1 < p.waitCycles.toNat → exec .wait s = .next { s with
      ports := s.ports.set s.eng.cur { p with waitCycles := p.waitCycles - 1 } })

/-- 44 R170: entered with `wait_cycles = N`, the port spends exactly N ticks in WAIT: it is still there after each of the
first N - 1 of them, and N of them take it to READ or WRITE; no pin and nothing else changes. -/
def Obligations.WaitTicks : Prop :=
  ∀ (s : State) (n : Nat), 1 ≤ n → (s.port s.eng.cur).state = .wait → (s.port s.eng.cur).waitCycles = BitVec.ofNat 8 n →
    n < 256 →
    (∀ k, k < n → execTimes .wait k s = .next (s.setPort s.eng.cur
      { s.port s.eng.cur with waitCycles := BitVec.ofNat 8 (n - k) }))
    ∧ execTimes .wait n s = .next (s.setPort s.eng.cur
      { s.port s.eng.cur with waitCycles := 0, state := if (s.port s.eng.cur).cur.rd then .read else .write })

/-- 44 R174, 40 R124: STOP inverts the phase and drives SCL to it; with SCL low SDA is driven 0; with SCL high SDA is driven
1, the stop condition, and the port goes to STOP2. The trace records SCL's drive, then SDA's: SDA rises when SCL is already
high. -/
def Obligations.StopResult : Prop :=
  ∀ (s : State) (d c : BitVec 8), PortPins s s.eng.cur d c →
    let p := s.port s.eng.cur
    ∃ t, exec .stop s = .next t
      ∧ t.port s.eng.cur = { p with phase := !p.phase, state := if p.phase = true then p.state else .stop2 }
      ∧ DrivenTo t c (!p.phase) ∧ DrivenTo t d (!p.phase) ∧ PinsKept s t [d, c] ∧ OnlyPort s.eng.cur s t
      ∧ Traced s t (driveEntries .tick s c (!p.phase) ++ driveEntries .tick (asOutput s c) d (!p.phase))

/-- 44 R178: STOP2 selects the next message, drives SCL low and goes to RESTART when a message is left and no NACK came; else
it goes to STOP3 and touches no pin. -/
def Obligations.Stop2Result : Prop :=
  ∀ (s : State) (d c : BitVec 8), PortPins s s.eng.cur d c →
    let p := s.port s.eng.cur
    ∃ t, exec .stop2 s = .next t ∧ OnlyPort s.eng.cur s t
      ∧ if p.curMsg.toNat + 1 < p.numMsg.toNat ∧ p.nacked = false then
          t.port s.eng.cur = { p with curMsg := p.curMsg + 1, state := .restart }
          ∧ DrivenTo t c false ∧ PinsKept s t [c]
          ∧ t.obs.trace = s.obs.trace ++ driveEntries .tick s c false
        else t.port s.eng.cur = { p with state := .stop3 } ∧ t.gpio = s.gpio ∧ t.obs.trace = s.obs.trace

/-- 44 R181: RESTART drives SCL high and goes to START2; nothing else changes (the phase is not changed). -/
def Obligations.RestartResult : Prop :=
  ∀ (s : State) (d c : BitVec 8), PortPins s s.eng.cur d c →
    ∃ t, exec .restart s = .next t
      ∧ t.port s.eng.cur = { s.port s.eng.cur with state := .start2 }
      ∧ DrivenTo t c true ∧ PinsKept s t [c]
      ∧ t.obs.trace = s.obs.trace ++ driveEntries .tick s c true
      ∧ OnlyPort s.eng.cur s t

/-- 44 R183: STOP3 releases SDA and goes to COMPLETE; SCL and its level are kept, and so is every other pin. The trace
records the release. -/
def Obligations.Stop3Result : Prop :=
  ∀ (s : State) (d c : BitVec 8), PortPins s s.eng.cur d c →
    ∃ t, exec .stop3 s = .next t
      ∧ t.port s.eng.cur = { s.port s.eng.cur with state := .complete }
      ∧ pinOutput t d = false ∧ pinLatch t d = pinLatch s d ∧ PinsKept s t [d] ∧ OnlyPort s.eng.cur s t
      ∧ Traced s t (releaseEntries .tick s d)

/-- 44 R185, 20 R69: COMPLETE inverts `status_level` and writes the new level to the status pin's latch with one SET or CLR
write and no direction write; the port stays in COMPLETE and nothing else changes. (The model also counts the toggle,
assumption 18.) -/
def Obligations.CompleteResult : Prop :=
  ∀ (s : State) (n : BitVec 8), s.eng.statusPin = gpioPin n →
    let lvl := !s.eng.statusLevel
    ∃ t, exec .complete s = .next t
      ∧ pinLatch t n = lvl ∧ pinOutput t n = pinOutput s n ∧ PinsKept s t [n]
      ∧ t = { s with
          eng := { s.eng with statusLevel := lvl, toggles := s.eng.toggles + 1 }
          gpio := t.gpio
          obs := { s.obs with trace := s.obs.trace ++
            [⟨s.eng.tick, .tick, .gpio, if lvl then (gpioPin n).setOff else (gpioPin n).clrOff, (gpioPin n).mask⟩] } }

/-- 44 R179, R178, R181, 41 R142: from STOP2 with a second message and no NACK, SDA and SCL high: SCL falls and rises while
SDA stays high (the extra pulse), then SDA falls while SCL is high (a fresh START); neither STOP3 nor COMPLETE is passed. -/
def Obligations.RestartSequence : Prop :=
  ∀ (s : State) (d c : BitVec 8), PortPins s s.eng.cur d c → DrivenTo s d true → DrivenTo s c true →
    (s.port s.eng.cur).curMsg = 0 → (s.port s.eng.cur).numMsg = 2 → (s.port s.eng.cur).nacked = false →
    ∃ t u v, exec .stop2 s = .next t ∧ exec .restart t = .next u ∧ exec .start2 u = .next v
      ∧ (t.port s.eng.cur).state = .restart ∧ DrivenTo t c false ∧ DrivenTo t d true
      ∧ (u.port s.eng.cur).state = .start2 ∧ DrivenTo u c true ∧ DrivenTo u d true
      ∧ (v.port s.eng.cur).state = .addr ∧ DrivenTo v c true ∧ DrivenTo v d false
      ∧ (v.port s.eng.cur).curMsg = 1 ∧ (v.port s.eng.cur).nacked = false

/-- 30 R95, 20 R71, 42 R150: from WBIT with `bit_mask = 0x80` and phase 1, bit 7 - k of the byte is on SDA with SCL low after
2k + 1 steps and still there with SCL high after 2k + 2; the sixteenth step goes to RACK, and no earlier one. -/
def Obligations.ByteShiftedOut : Prop :=
  ∀ (s : State) (d c : BitVec 8), PortPins s s.eng.cur d c → (s.port s.eng.cur).state = .wbit →
    (s.port s.eng.cur).bitMask = 0x80 → (s.port s.eng.cur).phase = true →
    ∀ k, k < 8 →
      ∃ t u, execTimes .wbit (2 * k + 1) s = .next t ∧ execTimes .wbit (2 * k + 2) s = .next u
        ∧ DrivenTo t c false ∧ DrivenTo t d ((s.port s.eng.cur).dataByte.getLsbD (7 - k))
        ∧ (t.port s.eng.cur).state = .wbit
        ∧ DrivenTo u c true ∧ DrivenTo u d ((s.port s.eng.cur).dataByte.getLsbD (7 - k))
        ∧ (u.port s.eng.cur).state = if k = 7 then .rack else .wbit

/-- 30 R95, 20 R71, 43 R162: from RBIT with SDA released, `bit_mask = 0x80`, an empty accumulator and phase 0, fifteen steps
sample the port's next eight draws of `bus_bit`, b 0 first, into bits 7 down to 0, store that byte and go to WACK. -/
def Obligations.ByteShiftedIn : Prop :=
  ∀ (s : State) (d c : BitVec 8) (b : Nat → Bool) (rest : List Bool),
    PortPins s s.eng.cur d c → pinOutput s d = false → s.store.wf = true → (s.port s.eng.cur).state = .rbit →
    (s.port s.eng.cur).bitMask = 0x80 → (s.port s.eng.cur).dataByte = 0 → (s.port s.eng.cur).phase = false →
    (s.port s.eng.cur).bufOffset < (s.port s.eng.cur).cur.len →
    s.draws.bus[s.eng.cur].answers = [b 0, b 1, b 2, b 3, b 4, b 5, b 6, b 7] ++ rest →
    ∃ t, execTimes .rbit 15 s = .next t
      ∧ (∀ j, j < 8 → (t.port s.eng.cur).dataByte.getLsbD (7 - j) = b j)
      ∧ (t.port s.eng.cur).state = .wack
      ∧ (t.port s.eng.cur).bufOffset = (s.port s.eng.cur).bufOffset + 1
      ∧ t.store.read (storeAddr s.eng.cur (s.port s.eng.cur).curMsg (s.port s.eng.cur).bufOffset.toNat)
          = (t.port s.eng.cur).dataByte
      ∧ t.faults = s.faults

/-! The tick (40_tick_dispatch.md). -/

/-- R120, R122, R125: a TICK counts itself, gives each port its turn in ascending order, and ends with the timer housekeeping;
the turn of an active port is one run of the STATE row of its state, the turn of any other changes nothing but `cur`. -/
def Obligations.TickRuns : Prop :=
  (∀ s : State, exec .tick s = .next (tickEnd (tickPort 3 (tickPort 2 (tickPort 1 (tickPort 0
    { s with eng := { s.eng with tick := s.eng.tick + 1, toggles := 0 } }))))))
  ∧ (∀ (s : State) (i : Fin 4), s.isActive i = true →
      exec (stateInstr (s.port i).state) { s with eng.cur := i } = .next (tickPort i s))
  ∧ ∀ (s : State) (i : Fin 4), s.isActive i = false → tickPort i s = { s with eng.cur := i }

/-- R121: a port that is not requested or is IDLE is not touched by a TICK: its record and its message store are kept, and, if
it is requested, the direction and the latch of its pins. -/
def Obligations.TickSkipsInactive : Prop :=
  ∀ s : State, PinsInv s → s.store.wf = true →
    ∃ t, exec .tick s = .next t
      ∧ ∀ i : Fin 4, s.isActive i = false →
          t.port i = s.port i
          ∧ t.draws.bus[i] = s.draws.bus[i]
          ∧ (∀ k j, j < 65536 → t.store.read (storeAddr i k j) = s.store.read (storeAddr i k j))
          ∧ (s.isRequested i = true → ∀ d c, PortPins s i d c → PinKept s t d ∧ PinKept s t c)

/-- R122, R125: the ports are independent. A TICK does to an active port what one step of that port alone does: its record,
its message store, its draws and its pins come out the same, whatever the other ports do. -/
def Obligations.TickPortsIndependent : Prop :=
  ∀ s : State, PinsInv s → s.store.wf = true →
    ∃ t, exec .tick s = .next t
      ∧ ∀ i : Fin 4, s.isActive i = true →
          ∃ u, exec (stateInstr (s.port i).state) { s with eng.cur := i } = .next u
            ∧ t.port i = u.port i
            ∧ t.draws.bus[i] = u.draws.bus[i]
            ∧ (∀ k j, j < 65536 → t.store.read (storeAddr i k j) = u.store.read (storeAddr i k j))
            ∧ ∀ d c, PortPins s i d c → PinKept u t d ∧ PinKept u t c

/-- R126, R127: a TICK ends with the acknowledge of the timer line, after the disable write when no port needs ticks; the line
stays enabled exactly when it was and some requested port is not IDLE. -/
def Obligations.TickHousekeeping : Prop :=
  ∀ s : State,
    ∃ t, exec .tick s = .next t
      ∧ t.eng.timerPending = false
      ∧ t.eng.timerEnabled = (s.eng.timerEnabled && needsTicks s)
      ∧ ∃ tr, t.obs.trace = tr ++
          (if needsTicks s then [] else [⟨s.eng.tick + 1, .tick, .intc, s.plat.intcEnclrOff, s.eng.timerIrq⟩])
          ++ [⟨s.eng.tick + 1, .tick, .intc, s.plat.intcAckOff, s.eng.timerIrq⟩]
        ∧ s.obs.trace <+: tr

/-- 46 R216, 44 R185: with `n` requested ports in COMPLETE at its start, a TICK makes `n` status toggles; it latches the edge
when `n` is odd, leaves it to the draw `glitch_edge` when `n` is 2 or 4, and keeps it when `n` is 0. -/
def Obligations.TickEdgeLatch : Prop :=
  ∀ s : State,
    let n := ([0, 1, 2, 3].filter fun i : Fin 4 => s.isRequested i && (s.port i).state == .complete).length
    ∃ t, exec .tick s = .next t
      ∧ t.eng.statusLevel = (s.eng.statusLevel ^^ decide (n % 2 = 1))
      ∧ t.eng.statusPending =
          (if n % 2 = 1 then true
          else if n = 0 then s.eng.statusPending
          else s.eng.statusPending || Tape.value Config.glitchEdge s.draws.glitchEdge)
      ∧ t.draws.glitchEdge = if n % 2 = 0 ∧ n ≠ 0 then s.draws.glitchEdge.advance else s.draws.glitchEdge

/-- 20 R73, 60 R240, R246, 40 R120: what a TICK never touches: host memory and the host's side, the companion, the requested
and installed handlers, the returns and events, the vector, the FIQ mask, the configuration of the engine; of the ports, the
requested flag, the pins, the messages and the handles. It counts itself, and the trace only grows. -/
def Obligations.TickFrame : Prop :=
  ∀ s : State, ∃ t, exec .tick s = .next t
    ∧ t.host = s.host ∧ t.comp = s.comp ∧ t.plat = s.plat ∧ t.env = s.env
    ∧ t.obs.returns = s.obs.returns ∧ t.obs.events = s.obs.events ∧ s.obs.trace <+: t.obs.trace
    ∧ t.draws = { s.draws with bus := t.draws.bus, glitchEdge := t.draws.glitchEdge }
    ∧ t.eng = { s.eng with
        statusLevel := t.eng.statusLevel
        timerEnabled := t.eng.timerEnabled
        timerPending := false
        statusPending := t.eng.statusPending
        tick := s.eng.tick + 1
        toggles := t.eng.toggles
        cur := 3 }
    ∧ ∀ i : Fin 4, t.port i = { t.port i with
        sda := (s.port i).sda
        scl := (s.port i).scl
        numMsg := (s.port i).numMsg
        msg0 := (s.port i).msg0
        msg1 := (s.port i).msg1
        orig0 := (s.port i).orig0
        orig1 := (s.port i).orig1
        cb := (s.port i).cb
        ctx := (s.port i).ctx
        requested := (s.port i).requested }

/-! Commands (70_reset_and_hazards.md R270, 45_port_lifecycle.md). -/

/-- 70 R270, 10 R40: INIT of a ready engine is refused. Otherwise every field of the engine, the ports, the message store and
the companion gets its value of R40, the status pin becomes an output at 0, and the draw `vector_claim` (assumption 9) decides
between Ok, with the vector owned and the engine ready, and Err(Busy), with neither. What R40 calls unspecified is 0, by the
model's choice: the ports' pins, messages, handles, `cb` and `ctx`, and the bytes of the message store (assumption 12).
`E.timer_pending` is a free value (assumption 14); what is not the engine's stays (assumption 15); the trace entries carry the
old tick number (assumption 27). -/
def Obligations.InitResult : Prop :=
  (∀ s : State, s.eng.ready = true → exec .init s = .next (s.refuse .reInit))
  ∧ ∀ s : State, s.eng.ready = false →
      let claimed := Tape.value Config.vectorClaim s.draws.vectorClaim
      ∃ t, exec .init s = .next t
        ∧ DrivenTo t s.plat.statusPin false ∧ PinsKept s t [s.plat.statusPin]
        ∧ t = { s with
            eng :=
              { gpioBase := s.plat.gpioBase
                intcBase := s.plat.intcBase
                timerIrq := s.plat.timerIrq
                statusPin := gpioPin s.plat.statusPin
                statusIrq := s.plat.statusIrq
                ready := claimed
                requested := 0
                statusLevel := false
                statusAssoc := 0
                timerEnabled := false
                timerPending := Tape.value Config.timerPendingAtInit s.draws.timerPendingAtInit
                statusPending := false
                fiqMasked := false
                vectorOwned := claimed
                tick := 0
                toggles := 0
                cur := 0 }
            ports := Vector.replicate 4 Port.fresh
            gpio := t.gpio
            store := []
            comp := ⟨false, 0, 0, none⟩
            obs := { s.obs with
              trace := s.obs.trace ++ driveEntries .host s s.plat.statusPin false
              returns := s.obs.returns ++ [if claimed then .ok else .err .busy] }
            draws := { s.draws with
              timerPendingAtInit := s.draws.timerPendingAtInit.advance
              vectorClaim := s.draws.vectorClaim.advance } }

/-- 45 R191 to R195, 60 R230, R236: the calls that REQ turns away, in the order of its checks: each returns its error, or sets
the refused mark, and changes nothing else. -/
def Obligations.ReqErrors : Prop :=
  ∀ (s : State) (port : BitVec 4) (sda scl : BitVec 8),
    (s.eng.ready = false → exec (.req port sda scl) s = .next (s.retErr .notReady))
    ∧ (s.eng.ready = true → 4 ≤ port.toNat → exec (.req port sda scl) s = .next (s.retErr .invalidArgument))
    ∧ ∀ i : Fin 4, s.eng.ready = true → port.toNat = i.val →
        (s.isRequested i = true → exec (.req port sda scl) s = .next (s.retErr .busy))
        ∧ (s.isRequested i = false →
            (sda = scl ∨ s.plat.ngpio ≤ sda.toNat ∨ s.plat.ngpio ≤ scl.toNat
              ∨ sda = s.plat.statusPin ∨ scl = s.plat.statusPin
              ∨ ∃ (j : Fin 4) (q : BitVec 8), s.isRequested j = true ∧ (q = sda ∨ q = scl)
                ∧ ((s.port j).sda = gpioPin q ∨ (s.port j).scl = gpioPin q)) →
            exec (.req port sda scl) s = .next (s.refuse .pinConflict))

/-- 45 R190, R195, R194: REQ of a free port of a ready engine, with two different pins below NGPIO, neither the status pin nor
a pin of a requested port. If the platform installs the handler, the pins, the association and the requested flag with its
mirror are written, Ok is returned, and no GPIO register is written; if it fails, its code is returned and nothing is
written. -/
def Obligations.ReqResult : Prop :=
  ∀ (s : State) (port : BitVec 4) (sda scl : BitVec 8) (i : Fin 4),
    s.eng.ready = true → port.toNat = i.val → s.isRequested i = false →
    sda ≠ scl → sda.toNat < s.plat.ngpio → scl.toNat < s.plat.ngpio →
    sda ≠ s.plat.statusPin → scl ≠ s.plat.statusPin →
    (∀ (j : Fin 4) (q : BitVec 8), s.isRequested j = true → q = sda ∨ q = scl →
      (s.port j).sda ≠ gpioPin q ∧ (s.port j).scl ≠ gpioPin q) →
    (∀ code, Tape.value Config.irqRequest s.draws.irqRequest = some code →
      exec (.req port sda scl) s = .next { s with
        draws := { s.draws with irqRequest := s.draws.irqRequest.advance }
        obs := { s.obs with returns := s.obs.returns ++ [.err (.resourceError code)] } })
    ∧ (Tape.value Config.irqRequest s.draws.irqRequest = none →
      ∃ t, exec (.req port sda scl) s = .next t
        ∧ t.isRequested i = true ∧ t.eng.statusAssoc.getLsbD i.val = true
        ∧ (∀ j, j ≠ i → t.isRequested j = s.isRequested j
            ∧ t.eng.statusAssoc.getLsbD j.val = s.eng.statusAssoc.getLsbD j.val)
        ∧ t = { s with
            eng := { s.eng with requested := t.eng.requested, statusAssoc := t.eng.statusAssoc }
            ports := s.ports.set i { s.port i with sda := gpioPin sda, scl := gpioPin scl, requested := true }
            draws := { s.draws with irqRequest := s.draws.irqRequest.advance }
            obs := { s.obs with returns := s.obs.returns ++ [.ok] } })

/-- 45 R199 to R202, 60 R230, R236: the calls that XFER turns away, in the order of its checks: each returns its error, or
sets the refused mark, and changes nothing else. -/
def Obligations.XferErrors : Prop :=
  ∀ (s : State) (port : BitVec 4) (msgs : List Msg),
    (4 ≤ port.toNat → exec (.xfer port msgs) s = .next (s.retErr .invalidArgument))
    ∧ ∀ i : Fin 4, port.toNat = i.val →
        (s.isRequested i = false → exec (.xfer port msgs) s = .next (s.retErr .invalidArgument))
        ∧ (s.isRequested i = true → msgs.length = 0 ∨ 2 < msgs.length →
            exec (.xfer port msgs) s = .next (s.retErr .invalidArgument))
        ∧ (s.isRequested i = true → msgs.length = 1 ∨ msgs.length = 2 →
            (∃ m, m ∈ msgs ∧ (0x7F < m.addr.toNat ∨ s.plat.maxMsgLen.toNat < m.bytes.length ∨ m.rsvd ≠ 0)) →
            exec (.xfer port msgs) s = .next (s.refuse .badMessage))
        ∧ (s.isRequested i = true → msgs.length = 1 ∨ msgs.length = 2 →
            (∀ m, m ∈ msgs → m.addr.toNat ≤ 0x7F ∧ m.bytes.length ≤ s.plat.maxMsgLen.toNat ∧ m.rsvd = 0) →
            (s.port i).state ≠ .idle → exec (.xfer port msgs) s = .next (s.retErr .busy))

/-- 45 R198, R203, R204: XFER of one or two good messages on a requested IDLE port copies each message, with all its bytes,
into the port's slots, keeps the handles, goes to START, enables the timer line with one ENSET write and returns Ok; every
other byte of the message store and everything else is kept. The handle of a caller's buffer is the address of the message's
bytes in the command stream (assumption 10). -/
def Obligations.XferResult : Prop :=
  ∀ (s : State) (port : BitVec 4) (msgs : List Msg) (i : Fin 4),
    port.toNat = i.val → s.isRequested i = true → (s.port i).state = .idle → msgs.length = 1 ∨ msgs.length = 2 →
    (∀ m, m ∈ msgs → m.addr.toNat ≤ 0x7F ∧ m.bytes.length ≤ s.plat.maxMsgLen.toNat ∧ m.rsvd = 0) →
    s.store.wf = true →
    ∃ t, exec (.xfer port msgs) s = .next t
      ∧ (∀ k (h : k < msgs.length),
          (t.port i).msg (BitVec.ofNat 1 k)
            = ⟨msgs[k].addr.setWidth 7, msgs[k].rd, BitVec.ofNat 16 msgs[k].bytes.length⟩
          ∧ (t.port i).orig (BitVec.ofNat 1 k)
            = s.host.pc + 8 + ((msgs.take k).map fun m => m.bytes.length + 4).sum
          ∧ ∀ j (hj : j < msgs[k].bytes.length), t.store.read (storeAddr i (BitVec.ofNat 1 k) j) = msgs[k].bytes[j])
      ∧ (∀ a, (∀ k (h : k < msgs.length) j, j < msgs[k].bytes.length → a ≠ storeAddr i (BitVec.ofNat 1 k) j) →
          t.store.read a = s.store.read a)
      ∧ (msgs.length = 1 → (t.port i).msg1 = (s.port i).msg1 ∧ (t.port i).orig1 = (s.port i).orig1)
      ∧ t = { s with
          eng := { s.eng with timerEnabled := true }
          ports := s.ports.set i { s.port i with
            msg0 := (t.port i).msg0
            msg1 := (t.port i).msg1
            orig0 := (t.port i).orig0
            orig1 := (t.port i).orig1
            numMsg := BitVec.ofNat 2 msgs.length
            cb := s.host.cb
            ctx := s.host.ctx
            state := .start }
          store := t.store
          obs := { s.obs with
            trace := s.obs.trace ++ [⟨s.eng.tick, .host, .intc, s.plat.intcEnsetOff, s.eng.timerIrq⟩]
            returns := s.obs.returns ++ [.ok] } }

/-- 45 R205, R206, R207, R103: REL of an unrequested or out-of-range port is refused; of an IDLE port it gives up the
association and the requested flag with its mirror and returns Ok, writing no GPIO register, and no REL holds on the port any
more; of any other port it holds. -/
def Obligations.RelResult : Prop :=
  ∀ (s : State) (port : BitVec 4),
    (4 ≤ port.toNat → exec (.rel port) s = .next (s.refuse .releaseUnrequested))
    ∧ ∀ i : Fin 4, port.toNat = i.val →
        (s.isRequested i = false → exec (.rel port) s = .next (s.refuse .releaseUnrequested))
        ∧ (s.isRequested i = true → (s.port i).state ≠ .idle →
            exec (.rel port) s = .next { s with host := { s.host with held := s.host.held ++ [i] } })
        ∧ (s.isRequested i = true → (s.port i).state = .idle →
            ∃ t, exec (.rel port) s = .next t
              ∧ t.isRequested i = false ∧ t.eng.statusAssoc.getLsbD i.val = false
              ∧ (∀ j, j ≠ i → t.isRequested j = s.isRequested j
                  ∧ t.eng.statusAssoc.getLsbD j.val = s.eng.statusAssoc.getLsbD j.val)
              ∧ t = { s with
                  eng := { s.eng with requested := t.eng.requested, statusAssoc := t.eng.statusAssoc }
                  ports := s.ports.set i { s.port i with requested := false }
                  host := { s.host with held := s.host.held.filter (· != i) }
                  obs := { s.obs with returns := s.obs.returns ++ [.ok] } })

/-- 45 R206, R209, 60 R238, R244(3): REL holds on port `i` alone, and no interrupt, companion step, environment event, TICK or
SIRQ word is due. Once the port is IDLE, the next step completes the call: port `i` is given up, Ok returned, the call holds
no longer, and the stream has not moved. While it is not IDLE, a call on the same port is refused as OverlappingCall and
passed over; at any other word, or none, the host has no step and its side is kept: the step is the timer's, when it goes on
firing with its line enabled and the vector owned (assumption 4), and else the state repeats itself, so that without ticks the
hold lasts for ever (assumption 5). That the words of other ports wait too is the model's choice (assumption 21). -/
def Obligations.HeldRel : Prop :=
  ∀ (s : State) (i : Fin 4), BelowTick s → s.comp.pendingCb = none → s.comp.active = false → sirqDeliverable s = false →
    s.host.held = [i] → (∀ n, nextWord s ≠ some (.ok .tick n)) → (∀ n, nextWord s ≠ some (.ok .sirq n)) →
    ((s.port i).state = .idle →
      ∃ t, step s = .next t
        ∧ t.isRequested i = false ∧ (t.port i).requested = false ∧ t.eng.statusAssoc.getLsbD i.val = false
        ∧ t.host = { s.host with held := [] }
        ∧ t.obs = { s.obs with returns := s.obs.returns ++ [.ok] })
    ∧ ((s.port i).state ≠ .idle → ∀ j n, nextWord s = some (.ok j n) → CallOn i j →
        ∃ t, step s = .next t
          ∧ (∀ r, r ∈ t.refused ↔ r ∈ s.refused ∨ r = .overlappingCall)
          ∧ t = { s with host := { s.host with pc := s.host.pc + n }, refused := t.refused })
    ∧ ((s.port i).state ≠ .idle → (∀ j n, nextWord s = some (.ok j n) → ¬CallOn i j) →
        ∃ t, step s = .next t
          ∧ t.host = s.host
          ∧ if s.draws.ticking = true ∧ s.eng.timerEnabled = true ∧ s.eng.vectorOwned = true then
              if s.eng.fiqMasked = true then t = { s with eng := { s.eng with timerPending := true } }
              else exec .tick { s with eng := { s.eng with timerPending := true } } = .next t
            else t = s)

/-- 45 R208, 60 R251: UNLOAD of an engine that is not ready, or with a port requested, is refused; otherwise it disables the
timer line with one ENCLR write, the engine is not ready, the vector is released (assumption 16), and nothing else changes. -/
def Obligations.UnloadResult : Prop :=
  (∀ s : State, s.eng.ready = false ∨ s.eng.requested ≠ 0 → exec .unload s = .next (s.refuse .unloadWhileInUse))
  ∧ ∀ s : State, s.eng.ready = true → s.eng.requested = 0 →
      exec .unload s = .next { s with
        eng := { s.eng with timerEnabled := false, ready := false, vectorOwned := false }
        obs := { s.obs with trace := s.obs.trace ++
          [⟨s.eng.tick, .host, .intc, s.plat.intcEnclrOff, s.eng.timerIrq⟩] } }

/-- 45 R210: a REQ that returns Ok, then REL of that port, restores the requested bitmask to its prior value. -/
def Obligations.ReqThenRel : Prop :=
  ∀ (s t u : State) (port : BitVec 4) (sda scl : BitVec 8),
    exec (.req port sda scl) s = .next t → t.obs.returns = s.obs.returns ++ [.ok] →
    (∀ i : Fin 4, port.toNat = i.val → (s.port i).state = .idle) →
    exec (.rel port) t = .next u →
    u.eng.requested = s.eng.requested ∧ u.obs.returns = s.obs.returns ++ [.ok, .ok]

/-- 45 R210: start_xfer on an unrequested port always fails and never mutates the state: only its return value is added. -/
def Obligations.XferUnrequested : Prop :=
  ∀ (s : State) (port : BitVec 4) (msgs : List Msg), (∀ i : Fin 4, port.toNat = i.val → s.isRequested i = false) →
    exec (.xfer port msgs) s = .next { s with
      obs := { s.obs with returns := s.obs.returns ++ [.err .invalidArgument] } }

/-! Completion (46_completion_service.md). -/

/-- R215: SIRQ takes the latched edge and begins one scan per installed handler; it services no port and changes nothing
else. -/
def Obligations.SirqResult : Prop :=
  ∀ s : State, exec .sirq s = .next { s with
    eng := { s.eng with statusPending := false }
    comp := { s.comp with
      active := true
      scans := ([0, 1, 2, 3].filter fun i : Nat => s.eng.statusAssoc.getLsbD i).length
      next := 0 } }

/-- R217: the companion's service of port `i`. A requested port in COMPLETE goes to IDLE, its completion becomes pending, and
every byte of its read messages is copied back, in message order, to the caller's buffers, which lie in the command stream
(assumption 10); every other byte of host memory and everything else is kept. For any other port only `next` moves on. The
tick is unmasked after it. -/
def Obligations.ServiceResult : Prop :=
  ∀ (s : State) (i : Fin 4), BelowTick s → s.comp.pendingCb = none → s.comp.active = true → s.comp.next = i.val →
    s.host.mem.wf = true →
    let p := s.port i
    let back (k : BitVec 1) (a : Nat) : Prop :=
      k.toNat < p.numMsg.toNat ∧ (p.msg k).rd = true ∧ p.orig k ≤ a ∧ a < p.orig k + (p.msg k).len.toNat
    ∃ t, step s = .next t
      ∧ (s.isRequested i = true ∧ p.state = .complete →
          (∀ a, back 1 a → t.host.mem.read a = s.store.read (storeAddr i 1 (a - p.orig1)))
          ∧ (∀ a, ¬back 1 a → back 0 a → t.host.mem.read a = s.store.read (storeAddr i 0 (a - p.orig0)))
          ∧ (∀ a, ¬back 1 a → ¬back 0 a → t.host.mem.read a = s.host.mem.read a)
          ∧ t = { s with
              eng := { s.eng with fiqMasked := false }
              ports := s.ports.set i { p with state := .idle }
              comp := { s.comp with next := i.val + 1, pendingCb := some ⟨i, p.result, p.cb, p.ctx⟩ }
              host := { s.host with mem := t.host.mem } })
      ∧ (¬(s.isRequested i = true ∧ p.state = .complete) →
          t = { s with
            eng := { s.eng with fiqMasked := false }
            comp := { s.comp with next := i.val + 1 } })

/-- R217, R219, 70 R296, 60 R243, R256: at the end of a scan only the companion's own state changes: the next scan begins, or,
after the last, the companion is at rest. The end of a run, where the stream is at its end (assumption 33): with (a) to (c) of
R296 a tick ends the run, disabling the timer line; of a run that has ended no further step changes the observation, a port,
a GPIO word, the message store or a mark,
whatever the environment does; and once its spurious SIRQ is discarded nothing changes at all. That a step with nothing to do
answers the same state as its next state is the model's choice (assumption 5); that nothing is to be done is R243 (no tick while
the line is disabled) and R256 (an idle engine takes no steps of its own). -/
def Obligations.EndScanResult : Prop :=
  (∀ s : State, BelowTick s → s.comp.pendingCb = none → s.comp.active = true → 4 ≤ s.comp.next →
    (1 < s.comp.scans → step s = .next { s with comp := { s.comp with scans := s.comp.scans - 1, next := 0 } })
    ∧ (s.comp.scans = 1 → step s = .next { s with comp := { s.comp with scans := 0, active := false } }))
  ∧ (∀ s : State, AllDone s →
      ∃ t, exec .tick s = .next t ∧ Ended t
        ∧ t.obs = { s.obs with trace := s.obs.trace ++
            [⟨s.eng.tick + 1, .tick, .intc, s.plat.intcEnclrOff, s.eng.timerIrq⟩,
              ⟨s.eng.tick + 1, .tick, .intc, s.plat.intcAckOff, s.eng.timerIrq⟩] })
  ∧ (∀ (s : State) (n : Nat), Ended s →
      ∃ t, stepTimes n s = .next t ∧ t.obs = s.obs ∧ t.ports = s.ports ∧ t.gpio = s.gpio ∧ t.store = s.store
        ∧ t.refused = s.refused ∧ t.faults = s.faults)
  ∧ ∀ s : State, Ended s → s.env = [] → step (endRun s) = .next (endRun s)

/-- R218: the callback step emits one completion with the caller's buffers of the port's transfer, as host memory holds them
then (assumption 30), and empties `pending_cb`; nothing else changes. -/
def Obligations.CallbackResult : Prop :=
  ∀ (s : State) (i : Fin 4) (r : Int) (cb ctx : Nat), BelowTick s → s.comp.pendingCb = some ⟨i, r, cb, ctx⟩ →
    let p := s.port i
    let buffer (k : BitVec 1) : List Byte :=
      (List.range (p.msg k).len.toNat).map fun j => s.host.mem.read (p.orig k + j)
    (p.numMsg = 1 → step s = .next { s with
      comp := { s.comp with pendingCb := none }
      obs := { s.obs with events := s.obs.events ++ [⟨i, r, cb, ctx, [buffer 0]⟩] } })
    ∧ (p.numMsg = 2 → step s = .next { s with
      comp := { s.comp with pendingCb := none }
      obs := { s.obs with events := s.obs.events ++ [⟨i, r, cb, ctx, [buffer 0, buffer 1]⟩] } })

/-! The schedule (60_exceptions.md). -/

/-- When the host's turn has come and the bytes at the stream's next address decode to an instruction, the step is that
instruction, and the stream moves past its words. A TICK word is the timer's fire followed at once by the tick that it makes
deliverable (assumption 2); a SIRQ word that cannot be delivered is passed over (assumption 3). -/
def Obligations.StepRunsDecoded : Prop :=
  ∀ (s : State) (i : Instr) (n : Nat), HostTurn s → s.host.pc < s.host.limit →
    decodeCmd s.host.mem.read s.host.pc = .ok i n →
    step s = match i with
      | .sirq => .next (advance n s)
      | .tick =>
        if s.eng.timerEnabled && s.eng.vectorOwned && !s.eng.fiqMasked then
          mapNext (advance n) (exec .tick { s with eng.timerPending := true })
        else .next (advance n { s with eng.timerPending := true })
      | _ => mapNext (advance n) (exec i s)

/-- R243, R244: a tick is deliverable exactly when the line is enabled and pending, the vector owned and the FIQ not masked,
and is then the next step; else a pending callback, else an active companion's service, else a deliverable SIRQ before any
host command (beside a TICK or SIRQ word, assumption 3). An environment event of State.env (assumption 1) is a step of its
own: the timer's fire (R241), another owner's claim and release of the vector by ENGINE_YIELDS (R248, R250, R251; assumption
17), a byte the caller writes (R257), new handles (assumption 24), and the timer that stops or goes on firing (assumption 4).
-/
def Obligations.Priorities : Prop :=
  (∀ s : State, s.env = [] →
    (s.eng.timerEnabled = true → s.eng.timerPending = true → s.eng.vectorOwned = true → s.eng.fiqMasked = false →
      step s = exec .tick s)
    ∧ (s.eng.timerEnabled = false ∨ s.eng.timerPending = false ∨ s.eng.vectorOwned = false ∨ s.eng.fiqMasked = true →
      (∀ c, s.comp.pendingCb = some c → step s = .next (companionCallback c s))
      ∧ (s.comp.pendingCb = none → s.comp.active = true → step s = .next (companionService s))
      ∧ (s.comp.pendingCb = none → s.comp.active = false → s.eng.statusPending = true → s.eng.statusAssoc ≠ 0 →
          (∀ n, nextWord s ≠ some (.ok .tick n)) → (∀ n, nextWord s ≠ some (.ok .sirq n)) →
          step s = exec .sirq s)))
  ∧ ∀ (s : State) (rest : List EnvEvent),
      (s.env = .timerFire :: rest → step s = .next { s with env := rest, eng := { s.eng with timerPending := true } })
      ∧ (s.env = .claim :: rest → step s = .next { s with
          env := rest
          eng := { s.eng with vectorOwned := s.eng.vectorOwned && !s.plat.engineYields } })
      ∧ (s.env = .release :: rest → step s = .next { s with
          env := rest
          eng := { s.eng with vectorOwned := s.eng.vectorOwned || (s.eng.ready && s.plat.engineYields) } })
      ∧ (∀ a b, s.env = .hostWrite a b :: rest → s.host.mem.wf = true →
          ∃ t, step s = .next t
            ∧ (∀ a', t.host.mem.read a' = if a' = a then b else s.host.mem.read a')
            ∧ t = { s with env := rest, host := { s.host with mem := t.host.mem } })
      ∧ (∀ cb ctx, s.env = .handles cb ctx :: rest →
          step s = .next { s with env := rest, host := { s.host with cb := cb, ctx := ctx } })
      ∧ (∀ on, s.env = .ticking on :: rest →
          step s = .next { s with env := rest, draws := { s.draws with ticking := on } })
      ∧ (s.env = [.quiet] → step s = step { s with env := [] })

/-- 30 R103, 60 R236: a word of the stream that selects nothing adds ReservedEncoding to the refused marks and changes nothing
else but the stream's place, which moves by that word alone (assumption 6). And so does every refusal: the reason is in
`refused`, once, and every other field is kept. -/
def Obligations.BadWord : Prop :=
  (∀ (s : State) (e : DecodeError), HostTurn s → s.host.pc < s.host.limit →
    decodeCmd s.host.mem.read s.host.pc = .bad e →
    step s = .next { s with
      host := { s.host with pc := s.host.pc + 4 }
      refused := if .reservedEncoding ∈ s.refused then s.refused else s.refused ++ [.reservedEncoding] })
  ∧ ∀ (r : Refusal) (s : State),
      s.refuse r = { s with refused := if r ∈ s.refused then s.refused else s.refused ++ [r] }

/-- 10 R26, 46 R217: in a step, a port leaves IDLE only by an XFER on it, and enters IDLE only by the companion's service,
from COMPLETE. -/
def Obligations.IdleOnlyBy : Prop :=
  ∀ (s t : State) (j : Fin 4), PortsInv s → EngineInv s → step s = .next t →
    ((s.port j).state = .idle → (t.port j).state ≠ .idle →
      ∃ port msgs n, nextWord s = some (.ok (.xfer port msgs) n) ∧ port.toNat = j.val)
    ∧ ((s.port j).state ≠ .idle → (t.port j).state = .idle →
      (s.port j).state = .complete ∧ s.comp.active = true ∧ s.comp.next = j.val)

/-! Whole-machine rules. -/

/-- 60 R236, R237: no step clears the refused mark or a fault. -/
def Obligations.MarksKept : Prop :=
  ∀ s t : State, step s = .next t → (∀ r, r ∈ s.refused → r ∈ t.refused) ∧ ∀ f, f ∈ s.faults → f ∈ t.faults

/-- 60 R237, 10 R34: from a state that meets the ports' invariants no step raises a fault. -/
def Obligations.NoFault : Prop := ∀ s t : State, PortsInv s → step s = .next t → t.faults = s.faults

/-- Every step keeps both memories in their canonical form, the model's own way to hold a memory (assumptions 10, 12). -/
def Obligations.MemInvKept : Prop := ∀ s t : State, MemInv s → step s = .next t → MemInv t

/-- 10 R34: every step keeps the invariants of the ports, and they give R34 as it is written for every port that is not in
START (in START its clause on `cur_msg` is false, assumption 20). -/
def Obligations.PortsInvKept : Prop :=
  ∀ s t : State, PortsInv s → step s = .next t → PortsInv t ∧ ∀ i, (t.port i).state ≠ .start → PortR34 t i

/-- Every step keeps the agreement of the engine's flags, given the ports' invariants. That the vector is not owned while the
engine is not ready rests on assumptions 16 and 17. -/
def Obligations.EngineInvKept : Prop := ∀ s t : State, PortsInv s → EngineInv s → step s = .next t → EngineInv t

/-- 46 R214: every step keeps the companion's counters in their ranges. -/
def Obligations.CompanionInvKept : Prop := ∀ s t : State, CompanionInv s → step s = .next t → CompanionInv t

/-- 45 R194, 70 R282: every step keeps the pins of the requested ports and the status pin apart. -/
def Obligations.PinsInvKept : Prop := ∀ s t : State, PinsInv s → step s = .next t → PinsInv t

/-- 70 R272, 00 R8: the state at reset is the unloaded state, on a platform that meets the constraints of R8, and meets every
invariant; what the invariants ask of fields that R272 leaves unspecified is met by assumption 12. -/
def Obligations.ResetUnloaded : Prop :=
  let s := State.reset
  (s.eng.ready = false ∧ s.eng.vectorOwned = false ∧ s.eng.requested = 0 ∧ s.eng.statusAssoc = 0
    ∧ s.eng.timerEnabled = false ∧ s.eng.statusPending = false ∧ (∀ i, (s.port i).state = .idle)
    ∧ s.comp.active = false ∧ s.comp.pendingCb = none ∧ s.refused = [] ∧ s.faults = [])
  ∧ ((1 ≤ s.plat.ngpio ∧ s.plat.ngpio ≤ 256)
    ∧ (s.plat.intcAckOff % 4 = 0 ∧ s.plat.intcEnsetOff % 4 = 0 ∧ s.plat.intcEnclrOff % 4 = 0)
    ∧ (s.plat.intcAckOff ≠ s.plat.intcEnsetOff ∧ s.plat.intcAckOff ≠ s.plat.intcEnclrOff
      ∧ s.plat.intcEnsetOff ≠ s.plat.intcEnclrOff)
    ∧ (1 ≤ s.plat.maxMsgLen.toNat ∧ s.plat.maxMsgLen.toNat ≤ 65535)
    ∧ s.plat.noackCode < 0 ∧ 0 < s.plat.tickPeriod ∧ s.plat.statusPin.toNat < s.plat.ngpio)
  ∧ MemInv s ∧ PortsInv s ∧ EngineInv s ∧ CompanionInv s ∧ PinsInv s
end

