-- ==== Sys2Proof/Laws/State.lean ====
section
/-! SUPPORT. One lemma per field and update of State, and the laws of the port accessors. -/

namespace Sys2Proof.Machine

variable (s : State)

@[simp] theorem State.setPort_plat (i : Fin 4) (p : Port) : (s.setPort i p).plat = s.plat := rfl
@[simp] theorem State.setPort_eng (i : Fin 4) (p : Port) : (s.setPort i p).eng = s.eng := rfl
@[simp] theorem State.setPort_ports (i : Fin 4) (p : Port) : (s.setPort i p).ports = s.ports.set i p := rfl
@[simp] theorem State.setPort_gpio (i : Fin 4) (p : Port) : (s.setPort i p).gpio = s.gpio := rfl
@[simp] theorem State.setPort_store (i : Fin 4) (p : Port) : (s.setPort i p).store = s.store := rfl
@[simp] theorem State.setPort_comp (i : Fin 4) (p : Port) : (s.setPort i p).comp = s.comp := rfl
@[simp] theorem State.setPort_host (i : Fin 4) (p : Port) : (s.setPort i p).host = s.host := rfl
@[simp] theorem State.setPort_obs (i : Fin 4) (p : Port) : (s.setPort i p).obs = s.obs := rfl
@[simp] theorem State.setPort_draws (i : Fin 4) (p : Port) : (s.setPort i p).draws = s.draws := rfl
@[simp] theorem State.setPort_env (i : Fin 4) (p : Port) : (s.setPort i p).env = s.env := rfl
@[simp] theorem State.setPort_refused (i : Fin 4) (p : Port) : (s.setPort i p).refused = s.refused := rfl
@[simp] theorem State.setPort_faults (i : Fin 4) (p : Port) : (s.setPort i p).faults = s.faults := rfl

@[simp] theorem State.refuse_plat (r : Refusal) : (s.refuse r).plat = s.plat := rfl
@[simp] theorem State.refuse_eng (r : Refusal) : (s.refuse r).eng = s.eng := rfl
@[simp] theorem State.refuse_ports (r : Refusal) : (s.refuse r).ports = s.ports := rfl
@[simp] theorem State.refuse_gpio (r : Refusal) : (s.refuse r).gpio = s.gpio := rfl
@[simp] theorem State.refuse_store (r : Refusal) : (s.refuse r).store = s.store := rfl
@[simp] theorem State.refuse_comp (r : Refusal) : (s.refuse r).comp = s.comp := rfl
@[simp] theorem State.refuse_host (r : Refusal) : (s.refuse r).host = s.host := rfl
@[simp] theorem State.refuse_obs (r : Refusal) : (s.refuse r).obs = s.obs := rfl
@[simp] theorem State.refuse_draws (r : Refusal) : (s.refuse r).draws = s.draws := rfl
@[simp] theorem State.refuse_env (r : Refusal) : (s.refuse r).env = s.env := rfl
@[simp] theorem State.refuse_refused (r : Refusal) : (s.refuse r).refused = addOnce r s.refused := rfl
@[simp] theorem State.refuse_faults (r : Refusal) : (s.refuse r).faults = s.faults := rfl

@[simp] theorem State.fault_plat (r : Fault) : (s.fault r).plat = s.plat := rfl
@[simp] theorem State.fault_eng (r : Fault) : (s.fault r).eng = s.eng := rfl
@[simp] theorem State.fault_ports (r : Fault) : (s.fault r).ports = s.ports := rfl
@[simp] theorem State.fault_gpio (r : Fault) : (s.fault r).gpio = s.gpio := rfl
@[simp] theorem State.fault_store (r : Fault) : (s.fault r).store = s.store := rfl
@[simp] theorem State.fault_comp (r : Fault) : (s.fault r).comp = s.comp := rfl
@[simp] theorem State.fault_host (r : Fault) : (s.fault r).host = s.host := rfl
@[simp] theorem State.fault_obs (r : Fault) : (s.fault r).obs = s.obs := rfl
@[simp] theorem State.fault_draws (r : Fault) : (s.fault r).draws = s.draws := rfl
@[simp] theorem State.fault_env (r : Fault) : (s.fault r).env = s.env := rfl
@[simp] theorem State.fault_refused (r : Fault) : (s.fault r).refused = s.refused := rfl
@[simp] theorem State.fault_faults (r : Fault) : (s.fault r).faults = addOnce r s.faults := rfl

@[simp] theorem State.ret_plat (r : Ret) : (s.ret r).plat = s.plat := rfl
@[simp] theorem State.ret_eng (r : Ret) : (s.ret r).eng = s.eng := rfl
@[simp] theorem State.ret_ports (r : Ret) : (s.ret r).ports = s.ports := rfl
@[simp] theorem State.ret_gpio (r : Ret) : (s.ret r).gpio = s.gpio := rfl
@[simp] theorem State.ret_store (r : Ret) : (s.ret r).store = s.store := rfl
@[simp] theorem State.ret_comp (r : Ret) : (s.ret r).comp = s.comp := rfl
@[simp] theorem State.ret_host (r : Ret) : (s.ret r).host = s.host := rfl
@[simp] theorem State.ret_obs (r : Ret) : (s.ret r).obs = { s.obs with returns := s.obs.returns ++ [r] } := rfl
@[simp] theorem State.ret_draws (r : Ret) : (s.ret r).draws = s.draws := rfl
@[simp] theorem State.ret_env (r : Ret) : (s.ret r).env = s.env := rfl
@[simp] theorem State.ret_refused (r : Ret) : (s.ret r).refused = s.refused := rfl
@[simp] theorem State.ret_faults (r : Ret) : (s.ret r).faults = s.faults := rfl

@[simp] theorem State.retErr_plat (k : ErrKind) : (s.retErr k).plat = s.plat := rfl
@[simp] theorem State.retErr_eng (k : ErrKind) : (s.retErr k).eng = s.eng := rfl
@[simp] theorem State.retErr_ports (k : ErrKind) : (s.retErr k).ports = s.ports := rfl
@[simp] theorem State.retErr_gpio (k : ErrKind) : (s.retErr k).gpio = s.gpio := rfl
@[simp] theorem State.retErr_store (k : ErrKind) : (s.retErr k).store = s.store := rfl
@[simp] theorem State.retErr_comp (k : ErrKind) : (s.retErr k).comp = s.comp := rfl
@[simp] theorem State.retErr_host (k : ErrKind) : (s.retErr k).host = s.host := rfl
@[simp] theorem State.retErr_obs (k : ErrKind) : (s.retErr k).obs = { s.obs with returns := s.obs.returns ++ [.err k] } := rfl
@[simp] theorem State.retErr_draws (k : ErrKind) : (s.retErr k).draws = s.draws := rfl
@[simp] theorem State.retErr_env (k : ErrKind) : (s.retErr k).env = s.env := rfl
@[simp] theorem State.retErr_refused (k : ErrKind) : (s.retErr k).refused = s.refused := rfl
@[simp] theorem State.retErr_faults (k : ErrKind) : (s.retErr k).faults = s.faults := rfl

@[simp] theorem State.record_plat (ag : Agent) (dev : Device) (off : Nat) (v : Word) : (s.record ag dev off v).plat = s.plat := rfl
@[simp] theorem State.record_eng (ag : Agent) (dev : Device) (off : Nat) (v : Word) : (s.record ag dev off v).eng = s.eng := rfl
@[simp] theorem State.record_ports (ag : Agent) (dev : Device) (off : Nat) (v : Word) : (s.record ag dev off v).ports = s.ports := rfl
@[simp] theorem State.record_gpio (ag : Agent) (dev : Device) (off : Nat) (v : Word) : (s.record ag dev off v).gpio = s.gpio := rfl
@[simp] theorem State.record_store (ag : Agent) (dev : Device) (off : Nat) (v : Word) : (s.record ag dev off v).store = s.store := rfl
@[simp] theorem State.record_comp (ag : Agent) (dev : Device) (off : Nat) (v : Word) : (s.record ag dev off v).comp = s.comp := rfl
@[simp] theorem State.record_host (ag : Agent) (dev : Device) (off : Nat) (v : Word) : (s.record ag dev off v).host = s.host := rfl
@[simp] theorem State.record_obs (ag : Agent) (dev : Device) (off : Nat) (v : Word) : (s.record ag dev off v).obs = { s.obs with trace := s.obs.trace ++ [⟨s.eng.tick, ag, dev, off, v⟩] } := rfl
@[simp] theorem State.record_draws (ag : Agent) (dev : Device) (off : Nat) (v : Word) : (s.record ag dev off v).draws = s.draws := rfl
@[simp] theorem State.record_env (ag : Agent) (dev : Device) (off : Nat) (v : Word) : (s.record ag dev off v).env = s.env := rfl
@[simp] theorem State.record_refused (ag : Agent) (dev : Device) (off : Nat) (v : Word) : (s.record ag dev off v).refused = s.refused := rfl
@[simp] theorem State.record_faults (ag : Agent) (dev : Device) (off : Nat) (v : Word) : (s.record ag dev off v).faults = s.faults := rfl

@[simp] theorem State.port_setPort_self (i : Fin 4) (p : Port) : (s.setPort i p).port i = p := by
  simp [State.setPort, State.port]

theorem State.port_setPort_ne {i j : Fin 4} (h : i ≠ j) (p : Port) : (s.setPort i p).port j = s.port j := by
  simp only [State.setPort, State.port, Fin.getElem_fin]
  exact Vector.getElem_set_ne _ _ (fun e => h (Fin.ext e))

theorem State.port_setPort (i j : Fin 4) (p : Port) :
    (s.setPort i p).port j = if i = j then p else s.port j := by
  by_cases h : i = j
  · subst h; simp
  · simp [h, State.port_setPort_ne s h]

/-- A state is its own port written back. -/
@[simp] theorem State.setPort_port (i : Fin 4) : s.setPort i (s.port i) = s := by
  simp [State.setPort, State.port]

/-- The last write of a port wins. -/
@[simp] theorem State.setPort_setPort (i : Fin 4) (p q : Port) : (s.setPort i p).setPort i q = s.setPort i q := by
  simp [State.setPort]

/-- Reading a port looks at the ports alone. -/
theorem State.port_congr {s t : State} (h : s.ports = t.ports) (i : Fin 4) : s.port i = t.port i := by
  simp [State.port, h]

/-- The requested bit is the engine's. -/
@[simp] theorem State.isRequested_setPort (i j : Fin 4) (p : Port) :
    (s.setPort i p).isRequested j = s.isRequested j := rfl

@[simp] theorem State.port_refuse (r : Refusal) (i : Fin 4) : (s.refuse r).port i = s.port i := rfl
@[simp] theorem State.isRequested_refuse (r : Refusal) (i : Fin 4) : (s.refuse r).isRequested i = s.isRequested i := rfl
@[simp] theorem State.port_fault (r : Fault) (i : Fin 4) : (s.fault r).port i = s.port i := rfl
@[simp] theorem State.isRequested_fault (r : Fault) (i : Fin 4) : (s.fault r).isRequested i = s.isRequested i := rfl
@[simp] theorem State.port_ret (r : Ret) (i : Fin 4) : (s.ret r).port i = s.port i := rfl
@[simp] theorem State.isRequested_ret (r : Ret) (i : Fin 4) : (s.ret r).isRequested i = s.isRequested i := rfl
@[simp] theorem State.port_retErr (k : ErrKind) (i : Fin 4) : (s.retErr k).port i = s.port i := rfl
@[simp] theorem State.isRequested_retErr (k : ErrKind) (i : Fin 4) : (s.retErr k).isRequested i = s.isRequested i := rfl
@[simp] theorem State.port_record (ag : Agent) (dev : Device) (off : Nat) (v : Word) (i : Fin 4) : (s.record ag dev off v).port i = s.port i := rfl
@[simp] theorem State.isRequested_record (ag : Agent) (dev : Device) (off : Nat) (v : Word) (i : Fin 4) : (s.record ag dev off v).isRequested i = s.isRequested i := rfl

/-! `portBit` as the bit it names. -/

theorem portBit_getLsbD : ∀ i j : Fin 4, (portBit i).getLsbD j.val = decide (i = j) := by decide

/-- Setting and clearing port bits, bit by bit. -/
theorem getLsbD_or_portBit (v : BitVec 4) (i j : Fin 4) :
    (v ||| portBit i).getLsbD j.val = (v.getLsbD j.val || decide (i = j)) := by
  rw [BitVec.getLsbD_or, portBit_getLsbD]

theorem getLsbD_clear_portBit (v : BitVec 4) (i j : Fin 4) :
    (v &&& ~~~portBit i).getLsbD j.val = (v.getLsbD j.val && !decide (i = j)) := by
  rw [BitVec.getLsbD_and, BitVec.getLsbD_not, portBit_getLsbD]
  simp [j.isLt]

/-- Two 4-bit masks with the same port bits are the same. -/
theorem mask_ext {v w : BitVec 4} (h : ∀ i : Fin 4, v.getLsbD i.val = w.getLsbD i.val) : v = w := by
  apply BitVec.eq_of_getLsbD_eq
  intro k hk
  exact h ⟨k, hk⟩

end Sys2Proof.Machine

/-- The constraints of 00_scope.md R8 hold of every platform. -/
theorem Sys2Proof.Platform.meets_r8 (p : Sys2Proof.Platform) :
    (1 ≤ p.ngpio ∧ p.ngpio ≤ 256)
    ∧ (p.intcAckOff % 4 = 0 ∧ p.intcEnsetOff % 4 = 0 ∧ p.intcEnclrOff % 4 = 0)
    ∧ (p.intcAckOff ≠ p.intcEnsetOff ∧ p.intcAckOff ≠ p.intcEnclrOff ∧ p.intcEnsetOff ≠ p.intcEnclrOff)
    ∧ (1 ≤ p.maxMsgLen.toNat ∧ p.maxMsgLen.toNat ≤ 65535)
    ∧ p.noackCode < 0 ∧ 0 < p.tickPeriod ∧ p.statusPin.toNat < p.ngpio := by
  have h := p.ok
  simp only [Sys2Proof.platformOk, Bool.and_eq_true, bne_iff_ne, ne_eq, decide_eq_true_eq] at h
  obtain ⟨⟨⟨⟨ha, hb⟩, hc⟩, hd⟩, he⟩ := h
  have hl : p.maxMsgLen.toNat ≠ 0 := fun h => hd (BitVec.eq_of_toNat_eq (by simpa using h))
  have := p.maxMsgLen.isLt
  have := p.ngpioPred.isLt
  refine ⟨⟨?_, ?_⟩, ⟨?_, ?_, ?_⟩, ⟨?_, ?_, ?_⟩, ⟨Nat.one_le_iff_ne_zero.2 hl, by omega⟩, ?_, ?_, Nat.lt_succ_of_le he⟩ <;>
    simp only [Sys2Proof.Platform.ngpio, Sys2Proof.Platform.intcAckOff, Sys2Proof.Platform.intcEnsetOff,
      Sys2Proof.Platform.intcEnclrOff, Sys2Proof.Platform.noackCode, Sys2Proof.Platform.tickPeriod] <;> omega
end

