-- ==== Sys2Proof/Laws/Memory.lean ====
section
/-! SUPPORT. The laws of memory: what a read gives after a write, and that every operation keeps the canonical form. -/

namespace Sys2Proof.Machine

/-- A listing from a lower bound is one from any lower bound below it. -/
theorem Memory.wfFrom_mono {m : Memory} {lo lo' : Nat} (h : lo' ≤ lo) (hm : Memory.wfFrom lo m = true) :
    Memory.wfFrom lo' m = true := by
  cases m with
  | nil => rfl
  | cons c rest =>
    obtain ⟨x, b⟩ := c
    simp only [Memory.wfFrom, Bool.and_eq_true, decide_eq_true_eq] at hm ⊢
    exact ⟨⟨by omega, hm.1.2⟩, hm.2⟩

/-- A write at or above the lower bound keeps the form from it. -/
theorem Memory.wfFrom_write (m : Memory) (lo a : Nat) (b : Byte) (h : lo ≤ a) (hm : Memory.wfFrom lo m = true) :
    Memory.wfFrom lo (m.write a b) = true := by
  induction m generalizing lo with
  | nil =>
    simp only [Memory.write]
    split
    · rfl
    · rename_i hb
      simpa [Memory.wfFrom, h] using hb
  | cons c rest ih =>
    obtain ⟨x, v⟩ := c
    simp only [Memory.wfFrom, Bool.and_eq_true, decide_eq_true_eq] at hm
    obtain ⟨⟨hx, hv⟩, hr⟩ := hm
    simp only [Memory.write]
    split
    · split
      · simp only [Memory.wfFrom, Bool.and_eq_true, decide_eq_true_eq]
        exact ⟨⟨hx, hv⟩, hr⟩
      · rename_i hax hb
        simp only [Memory.wfFrom, Bool.and_eq_true, decide_eq_true_eq, bne_iff_ne, ne_eq]
        exact ⟨⟨h, hb⟩, ⟨by omega, by simpa using hv⟩, hr⟩
    · split
      · split
        · exact Memory.wfFrom_mono (by omega) hr
        · rename_i hax he hb
          simp only [Memory.wfFrom, Bool.and_eq_true, decide_eq_true_eq, bne_iff_ne, ne_eq]
          subst he
          exact ⟨⟨h, hb⟩, hr⟩
      · rename_i hax he
        simp only [Memory.wfFrom, Bool.and_eq_true, decide_eq_true_eq]
        exact ⟨⟨hx, hv⟩, ih (x + 1) (by omega) hr⟩

/-- A write keeps the canonical form. -/
theorem Memory.wf_write {m : Memory} (hm : m.wf = true) (a : Nat) (b : Byte) : (m.write a b).wf = true :=
  Memory.wfFrom_write m 0 a b (Nat.zero_le a) hm

/-- Writing a list of bytes keeps the canonical form. -/
theorem Memory.wf_writeBytes {m : Memory} (hm : m.wf = true) (a : Nat) (bs : List Byte) :
    (m.writeBytes a bs).wf = true := by
  induction bs generalizing m a with
  | nil => exact hm
  | cons b bs ih => exact ih (Memory.wf_write hm a b) (a + 1)

/-- Below a listing's lower bound a read finds nothing. -/
theorem Memory.read_below {m : Memory} {lo a : Nat} (hm : Memory.wfFrom lo m = true) (h : a < lo) : m.read a = 0 := by
  induction m generalizing lo with
  | nil => rfl
  | cons c rest ih =>
    obtain ⟨x, v⟩ := c
    simp only [Memory.wfFrom, Bool.and_eq_true, decide_eq_true_eq] at hm
    have hx : x ≠ a := by omega
    simp only [Memory.read, hx, if_false]
    exact ih hm.2 (by omega)

/-- What a read gives after a write, in a canonical memory. -/
theorem Memory.read_write_from (m : Memory) (lo a a' : Nat) (b : Byte) (hm : Memory.wfFrom lo m = true) :
    (m.write a b).read a' = if a' = a then b else m.read a' := by
  induction m generalizing lo with
  | nil =>
    simp only [Memory.write]
    split
    · rename_i hb
      by_cases ha : a' = a <;> simp only [Memory.read, ha, if_true, if_false, hb]
    · by_cases ha : a' = a
      · simp only [Memory.read, ha, if_true]
      · simp only [Memory.read, ha, Ne.symm ha, if_false]
  | cons c rest ih =>
    obtain ⟨x, v⟩ := c
    simp only [Memory.wfFrom, Bool.and_eq_true, decide_eq_true_eq] at hm
    obtain ⟨_, hr⟩ := hm
    have ihr := ih (x + 1) hr
    simp only [Memory.write]
    split
    · rename_i hax
      have h0 : Memory.read rest a = 0 := Memory.read_below hr (by omega)
      split
      · rename_i hb
        by_cases ha : a' = a
        · subst ha
          have hx : x ≠ a' := by omega
          simp only [Memory.read, hx, if_false, if_true, h0, hb]
        · simp [ha]
      · by_cases ha : a' = a
        · simp [Memory.read, ha]
        · simp [Memory.read, ha, Ne.symm ha]
    · split
      · rename_i hax he
        subst he
        have h0 : Memory.read rest a = 0 := Memory.read_below hr (by omega)
        split
        · rename_i hb
          by_cases ha : a' = a
          · subst ha; simp only [h0, hb, if_true]
          · simp [Memory.read, ha, Ne.symm ha]
        · by_cases ha : a' = a
          · simp [Memory.read, ha]
          · simp [Memory.read, ha, Ne.symm ha]
      · rename_i hax he
        simp only [Memory.read, ihr]
        by_cases hxa : x = a'
        · have : a' ≠ a := by omega
          simp [hxa, this]
        · simp [hxa]

/-- What a read gives after a write. -/
theorem Memory.read_write {m : Memory} (hm : m.wf = true) (a a' : Nat) (b : Byte) :
    (m.write a b).read a' = if a' = a then b else m.read a' :=
  Memory.read_write_from m 0 a a' b hm

/-- What a read gives after a list of bytes is written. -/
theorem Memory.read_writeBytes {m : Memory} (hm : m.wf = true) (a a' : Nat) (bs : List Byte) :
    (m.writeBytes a bs).read a' = if a ≤ a' ∧ a' < a + bs.length then bs.getD (a' - a) 0 else m.read a' := by
  induction bs generalizing m a with
  | nil =>
    have h : ¬(a ≤ a' ∧ a' < a + ([] : List Byte).length) := by simp
    simp only [Memory.writeBytes, h, if_false]
  | cons b bs ih =>
    simp only [Memory.writeBytes, List.length_cons]
    rw [ih (Memory.wf_write hm a b) (a + 1), Memory.read_write hm]
    by_cases h1 : a + 1 ≤ a' ∧ a' < a + 1 + bs.length
    · have h2 : a ≤ a' ∧ a' < a + (bs.length + 1) := by omega
      obtain ⟨k, rfl⟩ : ∃ k, a' = a + 1 + k := ⟨a' - (a + 1), by omega⟩
      have e1 : a + 1 + k - (a + 1) = k := by omega
      have e2 : a + 1 + k - a = k + 1 := by omega
      simp [h1, h2, e1, e2]
    · by_cases h3 : a' = a
      · subst h3
        simp
      · have h2 : ¬(a ≤ a' ∧ a' < a + (bs.length + 1)) := by omega
        simp only [h1, h2, h3, if_false]

/-- The bytes read back are the bytes written. -/
theorem Memory.bytes_writeBytes {m : Memory} (hm : m.wf = true) (a : Nat) (bs : List Byte) :
    (m.writeBytes a bs).bytes a bs.length = bs := by
  apply List.ext_getElem
  · simp [Memory.bytes]
  · intro k h1 h2
    simp only [Memory.bytes, List.getElem_map, List.getElem_range, Memory.read_writeBytes hm]
    have hk : a ≤ a + k ∧ a + k < a + bs.length := by omega
    simp [hk, List.getD_eq_getElem?_getD, List.getElem?_eq_getElem h2]

end Sys2Proof.Machine
end

