-- ==== Sys2Proof/Laws/Pins.lean ====
section
/-! SUPPORT. The laws of the pin primitives on the GpioPin of a pin number: each one's whole effect as one equation, and
what it does to the direction and the latch of every pin. -/

namespace Sys2Proof.Machine

/-! The registers a GpioPin names. -/

theorem gpioPin_mask (n : BitVec 8) : (gpioPin n).mask = 1#32 <<< pinBit n := by
  have h : n.toNat % 16 + n.toNat / 16 % 2 * 16 = n.toNat % 32 := by omega
  simp only [gpioPin, pinBit, h]

theorem gpioPin_block (n : BitVec 8) : n.toNat / 16 / 2 = n.toNat / 32 := by omega

theorem gpioReg_dirOff (n : BitVec 8) : gpioReg (gpioPin n).dirOff = some (pinBlock n, .dir) := by
  have hn := n.isLt
  have h1 : (n.toNat / 16 / 2 * 40 + 16) / 40 = n.toNat / 32 := by omega
  have h2 : (n.toNat / 16 / 2 * 40 + 16) % 40 = 16 := by omega
  have h3 : n.toNat / 32 < 8 := by omega
  simp [gpioReg, gpioPin, gpioPairStride, h1, h2, h3, pinBlock]

theorem gpioReg_setOff (n : BitVec 8) : gpioReg (gpioPin n).setOff = some (pinBlock n, .set) := by
  have hn := n.isLt
  have h1 : (n.toNat / 16 / 2 * 40 + 24) / 40 = n.toNat / 32 := by omega
  have h2 : (n.toNat / 16 / 2 * 40 + 24) % 40 = 24 := by omega
  have h3 : n.toNat / 32 < 8 := by omega
  simp [gpioReg, gpioPin, gpioPairStride, h1, h2, h3, pinBlock]

theorem gpioReg_clrOff (n : BitVec 8) : gpioReg (gpioPin n).clrOff = some (pinBlock n, .clr) := by
  have hn := n.isLt
  have h1 : (n.toNat / 16 / 2 * 40 + 28) / 40 = n.toNat / 32 := by omega
  have h2 : (n.toNat / 16 / 2 * 40 + 28) % 40 = 28 := by omega
  have h3 : n.toNat / 32 < 8 := by omega
  simp [gpioReg, gpioPin, gpioPairStride, h1, h2, h3, pinBlock]

theorem gpioReg_inOff (n : BitVec 8) : gpioReg (gpioPin n).inOff = some (pinBlock n, .inp) := by
  have hn := n.isLt
  have h1 : (n.toNat / 16 / 2 * 40 + 32) / 40 = n.toNat / 32 := by omega
  have h2 : (n.toNat / 16 / 2 * 40 + 32) % 40 = 32 := by omega
  have h3 : n.toNat / 32 < 8 := by omega
  simp [gpioReg, gpioPin, gpioPairStride, h1, h2, h3, pinBlock]

theorem gpioPin_aligned (n : BitVec 8) :
    (gpioPin n).dirOff % 4 = 0 ∧ (gpioPin n).setOff % 4 = 0 ∧ (gpioPin n).clrOff % 4 = 0 ∧ (gpioPin n).inOff % 4 = 0 := by
  simp only [gpioPin, gpioPairStride]
  omega

/-- Two pin numbers with one GpioPin are the same. -/
theorem gpioPin_injective {m n : BitVec 8} (h : gpioPin m = gpioPin n) : m = n := by
  have hd : (gpioPin m).dirOff = (gpioPin n).dirOff := by rw [h]
  have hm : (gpioPin m).mask = (gpioPin n).mask := by rw [h]
  rw [gpioPin_mask, gpioPin_mask] at hm
  have hb : pinBit m = pinBit n := by
    have h1 : pinBit m < 32 := by unfold pinBit; omega
    have h2 : (1#32 <<< pinBit m).getLsbD (pinBit m) = true := by simp [h1]
    rw [hm] at h2
    by_contra hne
    simp at h2
    omega
  have hk : m.toNat / 16 / 2 = n.toNat / 16 / 2 := by
    simp only [gpioPin, gpioPairStride] at hd
    omega
  apply BitVec.eq_of_toNat_eq
  unfold pinBit at hb
  omega

theorem mmioWrite32_dir (ag : Agent) (n : BitVec 8) (v : Word) (s : State) :
    mmioWrite32 ag (gpioPin n).dirOff v s
      = ({ s with gpio := s.gpio.write (pinBlock n) .dir v }).record ag .gpio (gpioPin n).dirOff v := by
  simp [mmioWrite32, (gpioPin_aligned n).1, gpioReg_dirOff]

theorem mmioWrite32_set (ag : Agent) (n : BitVec 8) (v : Word) (s : State) :
    mmioWrite32 ag (gpioPin n).setOff v s
      = ({ s with gpio := s.gpio.write (pinBlock n) .set v }).record ag .gpio (gpioPin n).setOff v := by
  simp [mmioWrite32, (gpioPin_aligned n).2.1, gpioReg_setOff]

theorem mmioWrite32_clr (ag : Agent) (n : BitVec 8) (v : Word) (s : State) :
    mmioWrite32 ag (gpioPin n).clrOff v s
      = ({ s with gpio := s.gpio.write (pinBlock n) .clr v }).record ag .gpio (gpioPin n).clrOff v := by
  simp [mmioWrite32, (gpioPin_aligned n).2.2.1, gpioReg_clrOff]

theorem mmioRead32_dir (n : BitVec 8) (ext : Word) (s : State) :
    mmioRead32 (gpioPin n).dirOff ext s = s.gpio.dir[pinBlock n] := by
  simp [mmioRead32, (gpioPin_aligned n).1, gpioReg_dirOff]

theorem mmioRead32_in (n : BitVec 8) (ext : Word) (s : State) :
    mmioRead32 (gpioPin n).inOff ext s = lineLevels s.plat.dirInBit s.gpio (pinBlock n) ext := by
  simp [mmioRead32, (gpioPin_aligned n).2.2.2, gpioReg_inOff]

theorem noteRead_dir (n : BitVec 8) (s : State) : noteRead (gpioPin n).dirOff s = s := by
  simp [noteRead, (gpioPin_aligned n).1, gpioReg_dirOff]

theorem noteRead_in (n : BitVec 8) (s : State) : noteRead (gpioPin n).inOff s = s := by
  simp [noteRead, (gpioPin_aligned n).2.2.2, gpioReg_inOff]

/-! Whole effects. -/

/-- The DIR word that makes a pin of it an output or an input. -/
def dirWord (dirInBit : BitVec 1) (d mask : Word) (output : Bool) : Word :=
  if output == (dirInBit == 0) then d ||| mask else d &&& ~~~mask

/-- The GPIO words after a pin's latch is set or cleared. -/
def gpioLatched (g : Gpio) (n : BitVec 8) (v : Bool) : Gpio :=
  g.write (pinBlock n) (if v then .set else .clr) (gpioPin n).mask

/-- The GPIO words after a pin's direction is changed. -/
def gpioDirected (dirInBit : BitVec 1) (g : Gpio) (n : BitVec 8) (output : Bool) : Gpio :=
  g.write (pinBlock n) .dir (dirWord dirInBit g.dir[pinBlock n] (gpioPin n).mask output)

/-- The trace entry of a latch write. -/
def latchEntry (ag : Agent) (s : State) (n : BitVec 8) (v : Bool) : TraceEntry :=
  ⟨s.eng.tick, ag, .gpio, if v then (gpioPin n).setOff else (gpioPin n).clrOff, (gpioPin n).mask⟩

/-- The trace entry of a direction write. -/
def dirEntry (ag : Agent) (s : State) (n : BitVec 8) (output : Bool) : TraceEntry :=
  ⟨s.eng.tick, ag, .gpio, (gpioPin n).dirOff, dirWord s.plat.dirInBit s.gpio.dir[pinBlock n] (gpioPin n).mask output⟩

theorem setDirection_eq (ag : Agent) (n : BitVec 8) (output : Bool) (s : State) :
    setDirection ag (gpioPin n) output s
      = { s with
          gpio := gpioDirected s.plat.dirInBit s.gpio n output
          obs := { s.obs with trace := s.obs.trace ++ [dirEntry ag s n output] } } := by
  simp only [setDirection, noteRead_dir, mmioRead32_dir, mmioWrite32_dir]
  rfl

/-- The latch half of Drive, and the status toggle's write (20_memory.md R66, R69). -/
theorem latchWrite_eq (ag : Agent) (n : BitVec 8) (v : Bool) (s : State) :
    mmioWrite32 ag (if v then (gpioPin n).setOff else (gpioPin n).clrOff) (gpioPin n).mask s
      = { s with
          gpio := gpioLatched s.gpio n v
          obs := { s.obs with trace := s.obs.trace ++ [latchEntry ag s n v] } } := by
  cases v
  · simp only [Bool.false_eq_true, if_false, mmioWrite32_clr]; rfl
  · simp only [if_true, mmioWrite32_set]; rfl

/-- Setting or clearing a latch leaves the direction words alone. -/
@[simp] theorem gpioLatched_dir (g : Gpio) (n : BitVec 8) (v : Bool) : (gpioLatched g n v).dir = g.dir := by
  cases v <;> rfl

/-- Changing a direction leaves the latches alone. -/
@[simp] theorem gpioDirected_latch (b : BitVec 1) (g : Gpio) (n : BitVec 8) (o : Bool) :
    (gpioDirected b g n o).latch = g.latch := rfl

/-- Drive's whole effect (20_memory.md R66). -/
theorem drive_eq (ag : Agent) (n : BitVec 8) (v : Bool) (s : State) :
    drive ag (gpioPin n) v s
      = { s with
          gpio := gpioDirected s.plat.dirInBit (gpioLatched s.gpio n v) n true
          obs := { s.obs with trace := s.obs.trace ++ [latchEntry ag s n v, dirEntry ag s n true] } } := by
  simp only [drive, latchWrite_eq, setDirection_eq]
  simp [dirEntry]

/-- Release's whole effect (20_memory.md R67). -/
theorem release_eq (ag : Agent) (n : BitVec 8) (s : State) :
    release ag (gpioPin n) s
      = { s with
          gpio := gpioDirected s.plat.dirInBit s.gpio n false
          obs := { s.obs with trace := s.obs.trace ++ [dirEntry ag s n false] } } :=
  setDirection_eq ag n false s

/-! Directions and latches, pin by pin. -/

/-- Two pins are the same exactly when their block and bit are. -/
theorem pin_ext {m n : BitVec 8} (hb : pinBlock m = pinBlock n) (hi : pinBit m = pinBit n) : m = n := by
  apply BitVec.eq_of_toNat_eq
  simp only [pinBlock, Fin.mk.injEq] at hb
  unfold pinBit at hi
  omega

theorem pinBit_lt (n : BitVec 8) : pinBit n < 32 := by unfold pinBit; omega

theorem mask_getLsbD (n : BitVec 8) (j : Nat) : (gpioPin n).mask.getLsbD j = decide (j = pinBit n) := by
  have h := pinBit_lt n
  rw [gpioPin_mask]
  by_cases hj : j = pinBit n
  · subst hj; simp [h]
  · simp [hj]
    omega

theorem dirWord_getLsbD (b : BitVec 1) (d : Word) (n : BitVec 8) (o : Bool) (j : Nat) (hj : j < 32) :
    (dirWord b d (gpioPin n).mask o).getLsbD j
      = if j = pinBit n then (o == (b == 0)) else d.getLsbD j := by
  unfold dirWord
  split <;> rename_i h
  · rw [BitVec.getLsbD_or, mask_getLsbD, h]
    by_cases hp : j = pinBit n <;> simp only [hp, decide_true, decide_false, Bool.or_true, Bool.or_false, if_true, if_false]
  · rw [Bool.not_eq_true] at h
    rw [BitVec.getLsbD_and, BitVec.getLsbD_not, mask_getLsbD, h]
    by_cases hp : j = pinBit n <;> simp only [hp, hj, pinBit_lt, decide_true, decide_false, Bool.not_true, Bool.not_false,
      Bool.and_true, Bool.and_false, if_true, if_false]

/-- A bit of the output mask. -/
theorem outputMask_getLsbD (b : BitVec 1) (g : Gpio) (k : Fin 8) (j : Nat) (hj : j < 32) :
    (outputMask b g k).getLsbD j = (g.dir[k].getLsbD j == (b == 0)) := by
  unfold outputMask
  have hb : b = 0 ∨ b = 1 := by
    have : ∀ c : BitVec 1, c = 0 ∨ c = 1 := by decide
    exact this b
  rcases hb with rfl | rfl
  · simp
  · simp [hj]

theorem vector_set_get {α : Type} (v : Vector α 8) (k k' : Fin 8) (x : α) :
    (v.set k x)[k'] = if k = k' then x else v[k'] := by
  simp only [Fin.getElem_fin, Vector.getElem_set, Fin.ext_iff]

theorem gpioDirected_dir (b : BitVec 1) (g : Gpio) (n : BitVec 8) (o : Bool) (k : Fin 8) (j : Nat) (hj : j < 32) :
    (gpioDirected b g n o).dir[k].getLsbD j
      = if pinBlock n = k ∧ j = pinBit n then (o == (b == 0)) else g.dir[k].getLsbD j := by
  simp only [gpioDirected, Gpio.write, vector_set_get]
  by_cases hk : pinBlock n = k
  · subst hk; simp only [if_true, true_and, dirWord_getLsbD _ _ _ _ _ hj]
  · simp only [hk, if_false, false_and]

theorem gpioLatched_latch (g : Gpio) (n : BitVec 8) (v : Bool) (k : Fin 8) (j : Nat) (hj : j < 32) :
    (gpioLatched g n v).latch[k].getLsbD j
      = if pinBlock n = k ∧ j = pinBit n then v else g.latch[k].getLsbD j := by
  by_cases hk : pinBlock n = k
  · subst hk
    cases v
    · simp only [gpioLatched, Gpio.write, vector_set_get, if_true, if_false, Bool.false_eq_true, true_and,
        BitVec.getLsbD_and, BitVec.getLsbD_not, mask_getLsbD, hj, decide_true, Bool.true_and]
      by_cases hp : j = pinBit n <;> simp only [hp, decide_true, decide_false, Bool.not_true, Bool.not_false,
        Bool.and_true, Bool.and_false, if_true, if_false]
    · simp only [gpioLatched, Gpio.write, vector_set_get, if_true, true_and, BitVec.getLsbD_or, mask_getLsbD]
      by_cases hp : j = pinBit n <;> simp only [hp, decide_true, decide_false, Bool.or_true, Bool.or_false, if_true,
        if_false]
  · cases v <;> simp only [gpioLatched, Gpio.write, vector_set_get, hk, if_false, false_and, Bool.false_eq_true, if_true]

/-- Which pins are outputs after a direction is changed. -/
theorem output_directed (b : BitVec 1) (g : Gpio) (n m : BitVec 8) (o : Bool) :
    (outputMask b (gpioDirected b g n o) (pinBlock m)).getLsbD (pinBit m)
      = if m = n then o else (outputMask b g (pinBlock m)).getLsbD (pinBit m) := by
  rw [outputMask_getLsbD _ _ _ _ (pinBit_lt m), outputMask_getLsbD _ _ _ _ (pinBit_lt m),
    gpioDirected_dir _ _ _ _ _ _ (pinBit_lt m)]
  by_cases h : m = n
  · subst h
    cases o <;> cases hb : (b == 0) <;> simp
  · have : ¬(pinBlock n = pinBlock m ∧ pinBit m = pinBit n) := fun e => h (pin_ext e.1.symm e.2)
    simp [h, this]

/-- Which latches are set after one is driven. -/
theorem latch_latched (g : Gpio) (n m : BitVec 8) (v : Bool) :
    (gpioLatched g n v).latch[pinBlock m].getLsbD (pinBit m)
      = if m = n then v else g.latch[pinBlock m].getLsbD (pinBit m) := by
  rw [gpioLatched_latch _ _ _ _ _ (pinBit_lt m)]
  by_cases h : m = n
  · subst h; simp
  · have : ¬(pinBlock n = pinBlock m ∧ pinBit m = pinBit n) := fun e => h (pin_ext e.1.symm e.2)
    simp [h, this]

theorem outputMask_congr (b : BitVec 1) {g g' : Gpio} (h : g.dir = g'.dir) (k : Fin 8) :
    outputMask b g k = outputMask b g' k := by
  simp [outputMask, h]

@[simp] theorem pinOutput_drive (ag : Agent) (n m : BitVec 8) (v : Bool) (s : State) :
    pinOutput (drive ag (gpioPin n) v s) m = if m = n then true else pinOutput s m := by
  simp only [pinOutput, drive_eq, output_directed]
  rw [outputMask_congr _ (gpioLatched_dir s.gpio n v)]

@[simp] theorem pinLatch_drive (ag : Agent) (n m : BitVec 8) (v : Bool) (s : State) :
    pinLatch (drive ag (gpioPin n) v s) m = if m = n then v else pinLatch s m := by
  simp only [pinLatch, drive_eq, gpioDirected_latch, latch_latched]

@[simp] theorem pinOutput_release (ag : Agent) (n m : BitVec 8) (s : State) :
    pinOutput (release ag (gpioPin n) s) m = if m = n then false else pinOutput s m := by
  simp only [pinOutput, release_eq, output_directed]

@[simp] theorem pinLatch_release (ag : Agent) (n m : BitVec 8) (s : State) :
    pinLatch (release ag (gpioPin n) s) m = pinLatch s m := by
  simp only [pinLatch, release_eq, gpioDirected_latch]

/-- The level of a pin's line (10_state.md R35): its latch when it is an output, else the bus. -/
theorem line_bit (b : BitVec 1) (g : Gpio) (n : BitVec 8) (v : Bool) :
    ((lineLevels b g (pinBlock n) (externalLevels (gpioPin n) v) &&& (gpioPin n).mask) != 0)
      = if (outputMask b g (pinBlock n)).getLsbD (pinBit n) then g.latch[pinBlock n].getLsbD (pinBit n) else v := by
  have key : ∀ w : Word, ((w &&& (gpioPin n).mask) != 0) = w.getLsbD (pinBit n) := by
    intro w
    cases hw : w.getLsbD (pinBit n)
    · have : w &&& (gpioPin n).mask = 0 := by
        apply BitVec.eq_of_getLsbD_eq
        intro j hj
        rw [BitVec.getLsbD_and, mask_getLsbD]
        by_cases hp : j = pinBit n
        · subst hp; simp [hw]
        · simp [hp]
      simp [this]
    · have : w &&& (gpioPin n).mask ≠ 0 := by
        intro h
        have h2 : (w &&& (gpioPin n).mask).getLsbD (pinBit n) = false := by rw [h]; simp
        rw [BitVec.getLsbD_and, mask_getLsbD, hw] at h2
        simp at h2
      exact bne_iff_ne.mpr this
  have hext : (externalLevels (gpioPin n) v).getLsbD (pinBit n) = v := by
    cases v
    · simp only [externalLevels, Bool.false_eq_true, if_false, BitVec.getLsbD_not, mask_getLsbD]; simp
    · simp only [externalLevels, if_true, BitVec.getLsbD_not, pinBit_lt, decide_true, Bool.true_and]; simp
  rw [key]
  simp only [lineLevels, BitVec.getLsbD_or, BitVec.getLsbD_and, BitVec.getLsbD_not, hext, pinBit_lt, decide_true,
    Bool.true_and]
  cases (outputMask b g (pinBlock n)).getLsbD (pinBit n) <;> simp

/-- What a sample reads (20_memory.md R68, 10_state.md R35). -/
theorem sampleBit_eq (s : State) (i : Fin 4) (d : BitVec 8) (h : (s.port i).sda = gpioPin d) :
    sampleBit i s = sdaLine s i d := by
  simp only [sampleBit, h, mmioRead32_in, sdaLine, pinOutput, pinLatch]
  exact line_bit _ _ _ _

/-- What a sample does to the state: one draw. -/
theorem noteSample_eq (s : State) (i : Fin 4) (d : BitVec 8) (h : (s.port i).sda = gpioPin d) :
    noteSample i s = { s with draws.bus := s.draws.bus.set i s.draws.bus[i].advance } := by
  simp only [noteSample, h, noteRead_in]

end Sys2Proof.Machine
end

