-- ==== Sys2Proof/Laws/Frames.lean ====
section
/-! SUPPORT. The frame of each shared operation: the fields it leaves alone, from every state (with pins of any form). -/

namespace Sys2Proof.Machine

variable (s : State)

/-! `mmioWrite32` touches gpio, obs, refused only. -/

@[simp] theorem mmioWrite32_plat (ag : Agent) (off : Nat) (v : Word) : (mmioWrite32 ag off v s).plat = s.plat := by
  unfold mmioWrite32; repeat (first | rfl | split)
@[simp] theorem mmioWrite32_eng (ag : Agent) (off : Nat) (v : Word) : (mmioWrite32 ag off v s).eng = s.eng := by
  unfold mmioWrite32; repeat (first | rfl | split)
@[simp] theorem mmioWrite32_ports (ag : Agent) (off : Nat) (v : Word) : (mmioWrite32 ag off v s).ports = s.ports := by
  unfold mmioWrite32; repeat (first | rfl | split)
@[simp] theorem mmioWrite32_store (ag : Agent) (off : Nat) (v : Word) : (mmioWrite32 ag off v s).store = s.store := by
  unfold mmioWrite32; repeat (first | rfl | split)
@[simp] theorem mmioWrite32_comp (ag : Agent) (off : Nat) (v : Word) : (mmioWrite32 ag off v s).comp = s.comp := by
  unfold mmioWrite32; repeat (first | rfl | split)
@[simp] theorem mmioWrite32_host (ag : Agent) (off : Nat) (v : Word) : (mmioWrite32 ag off v s).host = s.host := by
  unfold mmioWrite32; repeat (first | rfl | split)
@[simp] theorem mmioWrite32_draws (ag : Agent) (off : Nat) (v : Word) : (mmioWrite32 ag off v s).draws = s.draws := by
  unfold mmioWrite32; repeat (first | rfl | split)
@[simp] theorem mmioWrite32_env (ag : Agent) (off : Nat) (v : Word) : (mmioWrite32 ag off v s).env = s.env := by
  unfold mmioWrite32; repeat (first | rfl | split)
@[simp] theorem mmioWrite32_faults (ag : Agent) (off : Nat) (v : Word) : (mmioWrite32 ag off v s).faults = s.faults := by
  unfold mmioWrite32; repeat (first | rfl | split)
@[simp] theorem port_mmioWrite32 (ag : Agent) (off : Nat) (v : Word) (j : Fin 4) : (mmioWrite32 ag off v s).port j = s.port j :=
  State.port_congr (mmioWrite32_ports s ag off v) j
@[simp] theorem isRequested_mmioWrite32 (ag : Agent) (off : Nat) (v : Word) (j : Fin 4) : (mmioWrite32 ag off v s).isRequested j = s.isRequested j := by
  simp only [State.isRequested, mmioWrite32_eng]

/-! `noteRead` touches refused only. -/

@[simp] theorem noteRead_plat (off : Nat) : (noteRead off s).plat = s.plat := by
  unfold noteRead; repeat (first | rfl | split)
@[simp] theorem noteRead_eng (off : Nat) : (noteRead off s).eng = s.eng := by
  unfold noteRead; repeat (first | rfl | split)
@[simp] theorem noteRead_ports (off : Nat) : (noteRead off s).ports = s.ports := by
  unfold noteRead; repeat (first | rfl | split)
@[simp] theorem noteRead_gpio (off : Nat) : (noteRead off s).gpio = s.gpio := by
  unfold noteRead; repeat (first | rfl | split)
@[simp] theorem noteRead_store (off : Nat) : (noteRead off s).store = s.store := by
  unfold noteRead; repeat (first | rfl | split)
@[simp] theorem noteRead_comp (off : Nat) : (noteRead off s).comp = s.comp := by
  unfold noteRead; repeat (first | rfl | split)
@[simp] theorem noteRead_host (off : Nat) : (noteRead off s).host = s.host := by
  unfold noteRead; repeat (first | rfl | split)
@[simp] theorem noteRead_obs (off : Nat) : (noteRead off s).obs = s.obs := by
  unfold noteRead; repeat (first | rfl | split)
@[simp] theorem noteRead_draws (off : Nat) : (noteRead off s).draws = s.draws := by
  unfold noteRead; repeat (first | rfl | split)
@[simp] theorem noteRead_env (off : Nat) : (noteRead off s).env = s.env := by
  unfold noteRead; repeat (first | rfl | split)
@[simp] theorem noteRead_faults (off : Nat) : (noteRead off s).faults = s.faults := by
  unfold noteRead; repeat (first | rfl | split)
@[simp] theorem port_noteRead (off : Nat) (j : Fin 4) : (noteRead off s).port j = s.port j :=
  State.port_congr (noteRead_ports s off) j
@[simp] theorem isRequested_noteRead (off : Nat) (j : Fin 4) : (noteRead off s).isRequested j = s.isRequested j := by
  simp only [State.isRequested, noteRead_eng]

/-! `intcWrite32` touches obs, refused only. -/

@[simp] theorem intcWrite32_plat (ag : Agent) (off : Nat) (v : Word) : (intcWrite32 ag off v s).plat = s.plat := by
  unfold intcWrite32; repeat (first | rfl | split)
@[simp] theorem intcWrite32_eng (ag : Agent) (off : Nat) (v : Word) : (intcWrite32 ag off v s).eng = s.eng := by
  unfold intcWrite32; repeat (first | rfl | split)
@[simp] theorem intcWrite32_ports (ag : Agent) (off : Nat) (v : Word) : (intcWrite32 ag off v s).ports = s.ports := by
  unfold intcWrite32; repeat (first | rfl | split)
@[simp] theorem intcWrite32_gpio (ag : Agent) (off : Nat) (v : Word) : (intcWrite32 ag off v s).gpio = s.gpio := by
  unfold intcWrite32; repeat (first | rfl | split)
@[simp] theorem intcWrite32_store (ag : Agent) (off : Nat) (v : Word) : (intcWrite32 ag off v s).store = s.store := by
  unfold intcWrite32; repeat (first | rfl | split)
@[simp] theorem intcWrite32_comp (ag : Agent) (off : Nat) (v : Word) : (intcWrite32 ag off v s).comp = s.comp := by
  unfold intcWrite32; repeat (first | rfl | split)
@[simp] theorem intcWrite32_host (ag : Agent) (off : Nat) (v : Word) : (intcWrite32 ag off v s).host = s.host := by
  unfold intcWrite32; repeat (first | rfl | split)
@[simp] theorem intcWrite32_draws (ag : Agent) (off : Nat) (v : Word) : (intcWrite32 ag off v s).draws = s.draws := by
  unfold intcWrite32; repeat (first | rfl | split)
@[simp] theorem intcWrite32_env (ag : Agent) (off : Nat) (v : Word) : (intcWrite32 ag off v s).env = s.env := by
  unfold intcWrite32; repeat (first | rfl | split)
@[simp] theorem intcWrite32_faults (ag : Agent) (off : Nat) (v : Word) : (intcWrite32 ag off v s).faults = s.faults := by
  unfold intcWrite32; repeat (first | rfl | split)
@[simp] theorem port_intcWrite32 (ag : Agent) (off : Nat) (v : Word) (j : Fin 4) : (intcWrite32 ag off v s).port j = s.port j :=
  State.port_congr (intcWrite32_ports s ag off v) j
@[simp] theorem isRequested_intcWrite32 (ag : Agent) (off : Nat) (v : Word) (j : Fin 4) : (intcWrite32 ag off v s).isRequested j = s.isRequested j := by
  simp only [State.isRequested, intcWrite32_eng]

/-! `setDirection` touches gpio, obs, refused only. -/

@[simp] theorem setDirection_plat (ag : Agent) (pin : GpioPin) (out : Bool) : (setDirection ag pin out s).plat = s.plat := by
  simp [setDirection]
@[simp] theorem setDirection_eng (ag : Agent) (pin : GpioPin) (out : Bool) : (setDirection ag pin out s).eng = s.eng := by
  simp [setDirection]
@[simp] theorem setDirection_ports (ag : Agent) (pin : GpioPin) (out : Bool) : (setDirection ag pin out s).ports = s.ports := by
  simp [setDirection]
@[simp] theorem setDirection_store (ag : Agent) (pin : GpioPin) (out : Bool) : (setDirection ag pin out s).store = s.store := by
  simp [setDirection]
@[simp] theorem setDirection_comp (ag : Agent) (pin : GpioPin) (out : Bool) : (setDirection ag pin out s).comp = s.comp := by
  simp [setDirection]
@[simp] theorem setDirection_host (ag : Agent) (pin : GpioPin) (out : Bool) : (setDirection ag pin out s).host = s.host := by
  simp [setDirection]
@[simp] theorem setDirection_draws (ag : Agent) (pin : GpioPin) (out : Bool) : (setDirection ag pin out s).draws = s.draws := by
  simp [setDirection]
@[simp] theorem setDirection_env (ag : Agent) (pin : GpioPin) (out : Bool) : (setDirection ag pin out s).env = s.env := by
  simp [setDirection]
@[simp] theorem setDirection_faults (ag : Agent) (pin : GpioPin) (out : Bool) : (setDirection ag pin out s).faults = s.faults := by
  simp [setDirection]
@[simp] theorem port_setDirection (ag : Agent) (pin : GpioPin) (out : Bool) (j : Fin 4) : (setDirection ag pin out s).port j = s.port j :=
  State.port_congr (setDirection_ports s ag pin out) j
@[simp] theorem isRequested_setDirection (ag : Agent) (pin : GpioPin) (out : Bool) (j : Fin 4) : (setDirection ag pin out s).isRequested j = s.isRequested j := by
  simp only [State.isRequested, setDirection_eng]

/-! `drive` touches gpio, obs, refused only. -/

@[simp] theorem drive_plat (ag : Agent) (pin : GpioPin) (v : Bool) : (drive ag pin v s).plat = s.plat := by
  simp [drive]
@[simp] theorem drive_eng (ag : Agent) (pin : GpioPin) (v : Bool) : (drive ag pin v s).eng = s.eng := by
  simp [drive]
@[simp] theorem drive_ports (ag : Agent) (pin : GpioPin) (v : Bool) : (drive ag pin v s).ports = s.ports := by
  simp [drive]
@[simp] theorem drive_store (ag : Agent) (pin : GpioPin) (v : Bool) : (drive ag pin v s).store = s.store := by
  simp [drive]
@[simp] theorem drive_comp (ag : Agent) (pin : GpioPin) (v : Bool) : (drive ag pin v s).comp = s.comp := by
  simp [drive]
@[simp] theorem drive_host (ag : Agent) (pin : GpioPin) (v : Bool) : (drive ag pin v s).host = s.host := by
  simp [drive]
@[simp] theorem drive_draws (ag : Agent) (pin : GpioPin) (v : Bool) : (drive ag pin v s).draws = s.draws := by
  simp [drive]
@[simp] theorem drive_env (ag : Agent) (pin : GpioPin) (v : Bool) : (drive ag pin v s).env = s.env := by
  simp [drive]
@[simp] theorem drive_faults (ag : Agent) (pin : GpioPin) (v : Bool) : (drive ag pin v s).faults = s.faults := by
  simp [drive]
@[simp] theorem port_drive (ag : Agent) (pin : GpioPin) (v : Bool) (j : Fin 4) : (drive ag pin v s).port j = s.port j :=
  State.port_congr (drive_ports s ag pin v) j
@[simp] theorem isRequested_drive (ag : Agent) (pin : GpioPin) (v : Bool) (j : Fin 4) : (drive ag pin v s).isRequested j = s.isRequested j := by
  simp only [State.isRequested, drive_eng]

/-! `release` touches gpio, obs, refused only. -/

@[simp] theorem release_plat (ag : Agent) (pin : GpioPin) : (release ag pin s).plat = s.plat := by
  simp [release]
@[simp] theorem release_eng (ag : Agent) (pin : GpioPin) : (release ag pin s).eng = s.eng := by
  simp [release]
@[simp] theorem release_ports (ag : Agent) (pin : GpioPin) : (release ag pin s).ports = s.ports := by
  simp [release]
@[simp] theorem release_store (ag : Agent) (pin : GpioPin) : (release ag pin s).store = s.store := by
  simp [release]
@[simp] theorem release_comp (ag : Agent) (pin : GpioPin) : (release ag pin s).comp = s.comp := by
  simp [release]
@[simp] theorem release_host (ag : Agent) (pin : GpioPin) : (release ag pin s).host = s.host := by
  simp [release]
@[simp] theorem release_draws (ag : Agent) (pin : GpioPin) : (release ag pin s).draws = s.draws := by
  simp [release]
@[simp] theorem release_env (ag : Agent) (pin : GpioPin) : (release ag pin s).env = s.env := by
  simp [release]
@[simp] theorem release_faults (ag : Agent) (pin : GpioPin) : (release ag pin s).faults = s.faults := by
  simp [release]
@[simp] theorem port_release (ag : Agent) (pin : GpioPin) (j : Fin 4) : (release ag pin s).port j = s.port j :=
  State.port_congr (release_ports s ag pin) j
@[simp] theorem isRequested_release (ag : Agent) (pin : GpioPin) (j : Fin 4) : (release ag pin s).isRequested j = s.isRequested j := by
  simp only [State.isRequested, release_eng]

/-! `sclDrive` touches gpio, obs, refused only. -/

@[simp] theorem sclDrive_plat (i : Fin 4) (v : Bool) : (sclDrive i v s).plat = s.plat := by
  simp [sclDrive]
@[simp] theorem sclDrive_eng (i : Fin 4) (v : Bool) : (sclDrive i v s).eng = s.eng := by
  simp [sclDrive]
@[simp] theorem sclDrive_ports (i : Fin 4) (v : Bool) : (sclDrive i v s).ports = s.ports := by
  simp [sclDrive]
@[simp] theorem sclDrive_store (i : Fin 4) (v : Bool) : (sclDrive i v s).store = s.store := by
  simp [sclDrive]
@[simp] theorem sclDrive_comp (i : Fin 4) (v : Bool) : (sclDrive i v s).comp = s.comp := by
  simp [sclDrive]
@[simp] theorem sclDrive_host (i : Fin 4) (v : Bool) : (sclDrive i v s).host = s.host := by
  simp [sclDrive]
@[simp] theorem sclDrive_draws (i : Fin 4) (v : Bool) : (sclDrive i v s).draws = s.draws := by
  simp [sclDrive]
@[simp] theorem sclDrive_env (i : Fin 4) (v : Bool) : (sclDrive i v s).env = s.env := by
  simp [sclDrive]
@[simp] theorem sclDrive_faults (i : Fin 4) (v : Bool) : (sclDrive i v s).faults = s.faults := by
  simp [sclDrive]
@[simp] theorem port_sclDrive (i : Fin 4) (v : Bool) (j : Fin 4) : (sclDrive i v s).port j = s.port j :=
  State.port_congr (sclDrive_ports s i v) j
@[simp] theorem isRequested_sclDrive (i : Fin 4) (v : Bool) (j : Fin 4) : (sclDrive i v s).isRequested j = s.isRequested j := by
  simp only [State.isRequested, sclDrive_eng]

/-! `sdaDrive` touches gpio, obs, refused only. -/

@[simp] theorem sdaDrive_plat (i : Fin 4) (v : Bool) : (sdaDrive i v s).plat = s.plat := by
  simp [sdaDrive]
@[simp] theorem sdaDrive_eng (i : Fin 4) (v : Bool) : (sdaDrive i v s).eng = s.eng := by
  simp [sdaDrive]
@[simp] theorem sdaDrive_ports (i : Fin 4) (v : Bool) : (sdaDrive i v s).ports = s.ports := by
  simp [sdaDrive]
@[simp] theorem sdaDrive_store (i : Fin 4) (v : Bool) : (sdaDrive i v s).store = s.store := by
  simp [sdaDrive]
@[simp] theorem sdaDrive_comp (i : Fin 4) (v : Bool) : (sdaDrive i v s).comp = s.comp := by
  simp [sdaDrive]
@[simp] theorem sdaDrive_host (i : Fin 4) (v : Bool) : (sdaDrive i v s).host = s.host := by
  simp [sdaDrive]
@[simp] theorem sdaDrive_draws (i : Fin 4) (v : Bool) : (sdaDrive i v s).draws = s.draws := by
  simp [sdaDrive]
@[simp] theorem sdaDrive_env (i : Fin 4) (v : Bool) : (sdaDrive i v s).env = s.env := by
  simp [sdaDrive]
@[simp] theorem sdaDrive_faults (i : Fin 4) (v : Bool) : (sdaDrive i v s).faults = s.faults := by
  simp [sdaDrive]
@[simp] theorem port_sdaDrive (i : Fin 4) (v : Bool) (j : Fin 4) : (sdaDrive i v s).port j = s.port j :=
  State.port_congr (sdaDrive_ports s i v) j
@[simp] theorem isRequested_sdaDrive (i : Fin 4) (v : Bool) (j : Fin 4) : (sdaDrive i v s).isRequested j = s.isRequested j := by
  simp only [State.isRequested, sdaDrive_eng]

/-! `sdaRelease` touches gpio, obs, refused only. -/

@[simp] theorem sdaRelease_plat (i : Fin 4) : (sdaRelease i s).plat = s.plat := by
  simp [sdaRelease]
@[simp] theorem sdaRelease_eng (i : Fin 4) : (sdaRelease i s).eng = s.eng := by
  simp [sdaRelease]
@[simp] theorem sdaRelease_ports (i : Fin 4) : (sdaRelease i s).ports = s.ports := by
  simp [sdaRelease]
@[simp] theorem sdaRelease_store (i : Fin 4) : (sdaRelease i s).store = s.store := by
  simp [sdaRelease]
@[simp] theorem sdaRelease_comp (i : Fin 4) : (sdaRelease i s).comp = s.comp := by
  simp [sdaRelease]
@[simp] theorem sdaRelease_host (i : Fin 4) : (sdaRelease i s).host = s.host := by
  simp [sdaRelease]
@[simp] theorem sdaRelease_draws (i : Fin 4) : (sdaRelease i s).draws = s.draws := by
  simp [sdaRelease]
@[simp] theorem sdaRelease_env (i : Fin 4) : (sdaRelease i s).env = s.env := by
  simp [sdaRelease]
@[simp] theorem sdaRelease_faults (i : Fin 4) : (sdaRelease i s).faults = s.faults := by
  simp [sdaRelease]
@[simp] theorem port_sdaRelease (i : Fin 4) (j : Fin 4) : (sdaRelease i s).port j = s.port j :=
  State.port_congr (sdaRelease_ports s i) j
@[simp] theorem isRequested_sdaRelease (i : Fin 4) (j : Fin 4) : (sdaRelease i s).isRequested j = s.isRequested j := by
  simp only [State.isRequested, sdaRelease_eng]

/-! `noteSample` touches draws, refused only. -/

@[simp] theorem noteSample_plat (i : Fin 4) : (noteSample i s).plat = s.plat := by
  simp [noteSample]
@[simp] theorem noteSample_eng (i : Fin 4) : (noteSample i s).eng = s.eng := by
  simp [noteSample]
@[simp] theorem noteSample_ports (i : Fin 4) : (noteSample i s).ports = s.ports := by
  simp [noteSample]
@[simp] theorem noteSample_gpio (i : Fin 4) : (noteSample i s).gpio = s.gpio := by
  simp [noteSample]
@[simp] theorem noteSample_store (i : Fin 4) : (noteSample i s).store = s.store := by
  simp [noteSample]
@[simp] theorem noteSample_comp (i : Fin 4) : (noteSample i s).comp = s.comp := by
  simp [noteSample]
@[simp] theorem noteSample_host (i : Fin 4) : (noteSample i s).host = s.host := by
  simp [noteSample]
@[simp] theorem noteSample_obs (i : Fin 4) : (noteSample i s).obs = s.obs := by
  simp [noteSample]
@[simp] theorem noteSample_env (i : Fin 4) : (noteSample i s).env = s.env := by
  simp [noteSample]
@[simp] theorem noteSample_faults (i : Fin 4) : (noteSample i s).faults = s.faults := by
  simp [noteSample]
@[simp] theorem port_noteSample (i : Fin 4) (j : Fin 4) : (noteSample i s).port j = s.port j :=
  State.port_congr (noteSample_ports s i) j
@[simp] theorem isRequested_noteSample (i : Fin 4) (j : Fin 4) : (noteSample i s).isRequested j = s.isRequested j := by
  simp only [State.isRequested, noteSample_eng]

/-! `noteBufRead` touches faults only. -/

@[simp] theorem noteBufRead_plat (i : Fin 4) (k : BitVec 1) (j : BitVec 16) : (noteBufRead i k j s).plat = s.plat := by
  unfold noteBufRead; split <;> rfl
@[simp] theorem noteBufRead_eng (i : Fin 4) (k : BitVec 1) (j : BitVec 16) : (noteBufRead i k j s).eng = s.eng := by
  unfold noteBufRead; split <;> rfl
@[simp] theorem noteBufRead_ports (i : Fin 4) (k : BitVec 1) (j : BitVec 16) : (noteBufRead i k j s).ports = s.ports := by
  unfold noteBufRead; split <;> rfl
@[simp] theorem noteBufRead_gpio (i : Fin 4) (k : BitVec 1) (j : BitVec 16) : (noteBufRead i k j s).gpio = s.gpio := by
  unfold noteBufRead; split <;> rfl
@[simp] theorem noteBufRead_store (i : Fin 4) (k : BitVec 1) (j : BitVec 16) : (noteBufRead i k j s).store = s.store := by
  unfold noteBufRead; split <;> rfl
@[simp] theorem noteBufRead_comp (i : Fin 4) (k : BitVec 1) (j : BitVec 16) : (noteBufRead i k j s).comp = s.comp := by
  unfold noteBufRead; split <;> rfl
@[simp] theorem noteBufRead_host (i : Fin 4) (k : BitVec 1) (j : BitVec 16) : (noteBufRead i k j s).host = s.host := by
  unfold noteBufRead; split <;> rfl
@[simp] theorem noteBufRead_obs (i : Fin 4) (k : BitVec 1) (j : BitVec 16) : (noteBufRead i k j s).obs = s.obs := by
  unfold noteBufRead; split <;> rfl
@[simp] theorem noteBufRead_draws (i : Fin 4) (k : BitVec 1) (j : BitVec 16) : (noteBufRead i k j s).draws = s.draws := by
  unfold noteBufRead; split <;> rfl
@[simp] theorem noteBufRead_env (i : Fin 4) (k : BitVec 1) (j : BitVec 16) : (noteBufRead i k j s).env = s.env := by
  unfold noteBufRead; split <;> rfl
@[simp] theorem noteBufRead_refused (i : Fin 4) (k : BitVec 1) (j : BitVec 16) : (noteBufRead i k j s).refused = s.refused := by
  unfold noteBufRead; split <;> rfl
@[simp] theorem port_noteBufRead (i : Fin 4) (k : BitVec 1) (j : BitVec 16) (l : Fin 4) : (noteBufRead i k j s).port l = s.port l :=
  State.port_congr (noteBufRead_ports s i k j) l
@[simp] theorem isRequested_noteBufRead (i : Fin 4) (k : BitVec 1) (j : BitVec 16) (l : Fin 4) : (noteBufRead i k j s).isRequested l = s.isRequested l := by
  simp only [State.isRequested, noteBufRead_eng]

/-! `bufWrite` touches store, faults only. -/

@[simp] theorem bufWrite_plat (i : Fin 4) (k : BitVec 1) (j : BitVec 16) (b : Byte) : (bufWrite i k j b s).plat = s.plat := by
  unfold bufWrite; split <;> rfl
@[simp] theorem bufWrite_eng (i : Fin 4) (k : BitVec 1) (j : BitVec 16) (b : Byte) : (bufWrite i k j b s).eng = s.eng := by
  unfold bufWrite; split <;> rfl
@[simp] theorem bufWrite_ports (i : Fin 4) (k : BitVec 1) (j : BitVec 16) (b : Byte) : (bufWrite i k j b s).ports = s.ports := by
  unfold bufWrite; split <;> rfl
@[simp] theorem bufWrite_gpio (i : Fin 4) (k : BitVec 1) (j : BitVec 16) (b : Byte) : (bufWrite i k j b s).gpio = s.gpio := by
  unfold bufWrite; split <;> rfl
@[simp] theorem bufWrite_comp (i : Fin 4) (k : BitVec 1) (j : BitVec 16) (b : Byte) : (bufWrite i k j b s).comp = s.comp := by
  unfold bufWrite; split <;> rfl
@[simp] theorem bufWrite_host (i : Fin 4) (k : BitVec 1) (j : BitVec 16) (b : Byte) : (bufWrite i k j b s).host = s.host := by
  unfold bufWrite; split <;> rfl
@[simp] theorem bufWrite_obs (i : Fin 4) (k : BitVec 1) (j : BitVec 16) (b : Byte) : (bufWrite i k j b s).obs = s.obs := by
  unfold bufWrite; split <;> rfl
@[simp] theorem bufWrite_draws (i : Fin 4) (k : BitVec 1) (j : BitVec 16) (b : Byte) : (bufWrite i k j b s).draws = s.draws := by
  unfold bufWrite; split <;> rfl
@[simp] theorem bufWrite_env (i : Fin 4) (k : BitVec 1) (j : BitVec 16) (b : Byte) : (bufWrite i k j b s).env = s.env := by
  unfold bufWrite; split <;> rfl
@[simp] theorem bufWrite_refused (i : Fin 4) (k : BitVec 1) (j : BitVec 16) (b : Byte) : (bufWrite i k j b s).refused = s.refused := by
  unfold bufWrite; split <;> rfl
@[simp] theorem port_bufWrite (i : Fin 4) (k : BitVec 1) (j : BitVec 16) (b : Byte) (l : Fin 4) : (bufWrite i k j b s).port l = s.port l :=
  State.port_congr (bufWrite_ports s i k j b) l
@[simp] theorem isRequested_bufWrite (i : Fin 4) (k : BitVec 1) (j : BitVec 16) (b : Byte) (l : Fin 4) : (bufWrite i k j b s).isRequested l = s.isRequested l := by
  simp only [State.isRequested, bufWrite_eng]

/-! `goto` touches ports only. -/

@[simp] theorem goto_plat (i : Fin 4) (st : SeqState) : (goto i st s).plat = s.plat := by
  rfl
@[simp] theorem goto_eng (i : Fin 4) (st : SeqState) : (goto i st s).eng = s.eng := by
  rfl
@[simp] theorem goto_gpio (i : Fin 4) (st : SeqState) : (goto i st s).gpio = s.gpio := by
  rfl
@[simp] theorem goto_store (i : Fin 4) (st : SeqState) : (goto i st s).store = s.store := by
  rfl
@[simp] theorem goto_comp (i : Fin 4) (st : SeqState) : (goto i st s).comp = s.comp := by
  rfl
@[simp] theorem goto_host (i : Fin 4) (st : SeqState) : (goto i st s).host = s.host := by
  rfl
@[simp] theorem goto_obs (i : Fin 4) (st : SeqState) : (goto i st s).obs = s.obs := by
  rfl
@[simp] theorem goto_draws (i : Fin 4) (st : SeqState) : (goto i st s).draws = s.draws := by
  rfl
@[simp] theorem goto_env (i : Fin 4) (st : SeqState) : (goto i st s).env = s.env := by
  rfl
@[simp] theorem goto_refused (i : Fin 4) (st : SeqState) : (goto i st s).refused = s.refused := by
  rfl
@[simp] theorem goto_faults (i : Fin 4) (st : SeqState) : (goto i st s).faults = s.faults := by
  rfl
@[simp] theorem isRequested_goto (i : Fin 4) (st : SeqState) (j : Fin 4) : (goto i st s).isRequested j = s.isRequested j := by
  simp only [State.isRequested, goto_eng]

/-! `clockGen` touches ports, gpio, obs, refused only. -/

@[simp] theorem clockGen_plat (i : Fin 4) : (clockGen i s).plat = s.plat := by
  simp [clockGen]
@[simp] theorem clockGen_eng (i : Fin 4) : (clockGen i s).eng = s.eng := by
  simp [clockGen]
@[simp] theorem clockGen_store (i : Fin 4) : (clockGen i s).store = s.store := by
  simp [clockGen]
@[simp] theorem clockGen_comp (i : Fin 4) : (clockGen i s).comp = s.comp := by
  simp [clockGen]
@[simp] theorem clockGen_host (i : Fin 4) : (clockGen i s).host = s.host := by
  simp [clockGen]
@[simp] theorem clockGen_draws (i : Fin 4) : (clockGen i s).draws = s.draws := by
  simp [clockGen]
@[simp] theorem clockGen_env (i : Fin 4) : (clockGen i s).env = s.env := by
  simp [clockGen]
@[simp] theorem clockGen_faults (i : Fin 4) : (clockGen i s).faults = s.faults := by
  simp [clockGen]
@[simp] theorem isRequested_clockGen (i : Fin 4) (j : Fin 4) : (clockGen i s).isRequested j = s.isRequested j := by
  simp only [State.isRequested, clockGen_eng]

/-! `statusToggle` touches eng, gpio, obs, refused only. -/

@[simp] theorem statusToggle_plat  : (statusToggle s).plat = s.plat := by
  simp [statusToggle]
@[simp] theorem statusToggle_ports  : (statusToggle s).ports = s.ports := by
  simp [statusToggle]
@[simp] theorem statusToggle_store  : (statusToggle s).store = s.store := by
  simp [statusToggle]
@[simp] theorem statusToggle_comp  : (statusToggle s).comp = s.comp := by
  simp [statusToggle]
@[simp] theorem statusToggle_host  : (statusToggle s).host = s.host := by
  simp [statusToggle]
@[simp] theorem statusToggle_draws  : (statusToggle s).draws = s.draws := by
  simp [statusToggle]
@[simp] theorem statusToggle_env  : (statusToggle s).env = s.env := by
  simp [statusToggle]
@[simp] theorem statusToggle_faults  : (statusToggle s).faults = s.faults := by
  simp [statusToggle]
@[simp] theorem port_statusToggle  (j : Fin 4) : (statusToggle s).port j = s.port j :=
  State.port_congr (statusToggle_ports s) j


/-- The clock generator inverts the phase of its own port. -/
theorem clockGen_ports (i : Fin 4) :
    (clockGen i s).ports = s.ports.set i { s.port i with phase := !(s.port i).phase } := by
  simp [clockGen]

theorem port_clockGen (i j : Fin 4) :
    (clockGen i s).port j = if i = j then { s.port i with phase := !(s.port i).phase } else s.port j := by
  rw [State.port_congr (t := s.setPort i { s.port i with phase := !(s.port i).phase }) (clockGen_ports s i),
    State.port_setPort]

@[simp] theorem port_clockGen_self (i : Fin 4) :
    (clockGen i s).port i = { s.port i with phase := !(s.port i).phase } := by
  simp [port_clockGen]

theorem port_goto (i j : Fin 4) (st : SeqState) :
    (goto i st s).port j = if i = j then { s.port i with state := st } else s.port j := by
  simp only [goto, State.port_setPort]

@[simp] theorem port_goto_self (i : Fin 4) (st : SeqState) : (goto i st s).port i = { s.port i with state := st } := by
  simp [port_goto]

/-- A status toggle changes two fields of the engine. -/
theorem statusToggle_eng :
    (statusToggle s).eng = { s.eng with statusLevel := !s.eng.statusLevel, toggles := s.eng.toggles + 1 } := by
  simp [statusToggle]

end Sys2Proof.Machine
end

