-- ==== Sys2Proof/Laws/Lines.lean ====
section
/-! SUPPORT. What a step of a port does to the pins and what it leaves alone, for a port whose pins are pins (`PortPins`):
one lemma per primitive for the direction and the latch of every pin, and one for the frame `OnlyPort`. -/

namespace Sys2Proof.Machine

variable (s : State)

/-! Updates that no pin sees. -/

@[simp] theorem pinOutput_setPort (i : Fin 4) (p : Port) (m : BitVec 8) : pinOutput (s.setPort i p) m = pinOutput s m := rfl
@[simp] theorem pinLatch_setPort (i : Fin 4) (p : Port) (m : BitVec 8) : pinLatch (s.setPort i p) m = pinLatch s m := rfl
@[simp] theorem pinOutput_goto (i : Fin 4) (st : SeqState) (m : BitVec 8) : pinOutput (goto i st s) m = pinOutput s m := rfl
@[simp] theorem pinLatch_goto (i : Fin 4) (st : SeqState) (m : BitVec 8) : pinLatch (goto i st s) m = pinLatch s m := rfl
@[simp] theorem pinOutput_noteSample (i : Fin 4) (m : BitVec 8) : pinOutput (noteSample i s) m = pinOutput s m := by
  simp [pinOutput]
@[simp] theorem pinLatch_noteSample (i : Fin 4) (m : BitVec 8) : pinLatch (noteSample i s) m = pinLatch s m := by
  simp [pinLatch]
@[simp] theorem pinOutput_noteBufRead (i : Fin 4) (k : BitVec 1) (j : BitVec 16) (m : BitVec 8) :
    pinOutput (noteBufRead i k j s) m = pinOutput s m := by
  simp [pinOutput]
@[simp] theorem pinLatch_noteBufRead (i : Fin 4) (k : BitVec 1) (j : BitVec 16) (m : BitVec 8) :
    pinLatch (noteBufRead i k j s) m = pinLatch s m := by
  simp [pinLatch]
@[simp] theorem pinOutput_bufWrite (i : Fin 4) (k : BitVec 1) (j : BitVec 16) (b : Byte) (m : BitVec 8) :
    pinOutput (bufWrite i k j b s) m = pinOutput s m := by
  simp [pinOutput]
@[simp] theorem pinLatch_bufWrite (i : Fin 4) (k : BitVec 1) (j : BitVec 16) (b : Byte) (m : BitVec 8) :
    pinLatch (bufWrite i k j b s) m = pinLatch s m := by
  simp [pinLatch]

/-! The pin primitives of a port. -/

variable {s} {i : Fin 4} {n : BitVec 8}

theorem pinOutput_sdaDrive (h : (s.port i).sda = gpioPin n) (v : Bool) (m : BitVec 8) :
    pinOutput (sdaDrive i v s) m = if m = n then true else pinOutput s m := by
  simp [sdaDrive, h]

theorem pinLatch_sdaDrive (h : (s.port i).sda = gpioPin n) (v : Bool) (m : BitVec 8) :
    pinLatch (sdaDrive i v s) m = if m = n then v else pinLatch s m := by
  simp [sdaDrive, h]

theorem pinOutput_sclDrive (h : (s.port i).scl = gpioPin n) (v : Bool) (m : BitVec 8) :
    pinOutput (sclDrive i v s) m = if m = n then true else pinOutput s m := by
  simp [sclDrive, h]

theorem pinLatch_sclDrive (h : (s.port i).scl = gpioPin n) (v : Bool) (m : BitVec 8) :
    pinLatch (sclDrive i v s) m = if m = n then v else pinLatch s m := by
  simp [sclDrive, h]

theorem pinOutput_sdaRelease (h : (s.port i).sda = gpioPin n) (m : BitVec 8) :
    pinOutput (sdaRelease i s) m = if m = n then false else pinOutput s m := by
  simp [sdaRelease, h]

theorem pinLatch_sdaRelease (h : (s.port i).sda = gpioPin n) (m : BitVec 8) :
    pinLatch (sdaRelease i s) m = pinLatch s m := by
  simp [sdaRelease, h]

/-- The clock generator makes SCL an output (40_tick_dispatch.md R124). -/
theorem pinOutput_clockGen (h : (s.port i).scl = gpioPin n) (m : BitVec 8) :
    pinOutput (clockGen i s) m = if m = n then true else pinOutput s m := by
  simp [clockGen, pinOutput_sclDrive (n := n), h]

/-- The clock generator drives SCL to the new phase (40_tick_dispatch.md R124). -/
theorem pinLatch_clockGen (h : (s.port i).scl = gpioPin n) (m : BitVec 8) :
    pinLatch (clockGen i s) m = if m = n then !(s.port i).phase else pinLatch s m := by
  simp [clockGen, pinLatch_sclDrive (n := n), h]

/-- The pins of a port survive a change of its other fields. -/
theorem PortPins.of_port {s t : State} {i : Fin 4} {d c : BitVec 8} (h : PortPins s i d c)
    (hd : (t.port i).sda = (s.port i).sda) (hc : (t.port i).scl = (s.port i).scl) : PortPins t i d c :=
  ⟨hd.trans h.1, hc.trans h.2.1, h.2.2⟩

/-- The whole effect of the status toggle (20_memory.md R69). -/
theorem statusToggle_eq {s : State} {n : BitVec 8} (h : s.eng.statusPin = gpioPin n) :
    statusToggle s = { s with
      eng := { s.eng with statusLevel := !s.eng.statusLevel, toggles := s.eng.toggles + 1 }
      gpio := gpioLatched s.gpio n (!s.eng.statusLevel)
      obs := { s.obs with trace := s.obs.trace ++ [latchEntry .tick s n (!s.eng.statusLevel)] } } := by
  have e := latchWrite_eq .tick n (!s.eng.statusLevel)
    { s with eng := { s.eng with statusLevel := !s.eng.statusLevel, toggles := s.eng.toggles + 1 } }
  have h' : gpioPin n = s.eng.statusPin := h.symm
  rw [h'] at e
  exact e

/-- The status toggle writes the new level to the status pin's latch and changes no direction (20_memory.md R69). -/
theorem statusToggle_lines {s : State} {n : BitVec 8} (h : s.eng.statusPin = gpioPin n) (m : BitVec 8) :
    pinOutput (statusToggle s) m = pinOutput s m
    ∧ pinLatch (statusToggle s) m = if m = n then !s.eng.statusLevel else pinLatch s m := by
  simp only [statusToggle_eq h, pinOutput, pinLatch, latch_latched]
  exact ⟨by rw [outputMask_congr _ (gpioLatched_dir s.gpio n _)], trivial⟩

/-- The address byte as the concatenation of its parts (30_encoding.md R94). -/
theorem addrByte_append (m : MsgRec) : addrByte m = m.addr ++ BitVec.ofBool m.rd := by
  unfold addrByte
  apply BitVec.eq_of_getLsbD_eq
  intro j hj
  simp only [BitVec.getLsbD_append, BitVec.getLsbD_or, BitVec.getLsbD_shiftLeft, BitVec.truncate_eq_setWidth,
    BitVec.getLsbD_setWidth, BitVec.getLsbD_ofBool]
  by_cases h : j = 0
  · subst h; simp
  · have : ¬ j < 1 := by omega
    have : j - 1 < 8 := by omega
    simp [*]

/-- The bit under BIT_MASK_INIT is bit 7. -/
theorem and_bitMaskInit (b : BitVec 8) : (b &&& bitMaskInit != 0) = b.getLsbD 7 := by
  revert b; decide

/-- The bit under a mask of one bit. -/
theorem and_shifted (b : BitVec 8) (k : Nat) (hk : k < 8) : (b &&& (0x80#8 >>> k) != 0) = b.getLsbD (7 - k) := by
  revert b; revert k; decide

/-! The frame `OnlyPort`. -/

theorem OnlyPort.refl (i : Fin 4) (s : State) : OnlyPort i s s := by
  refine ⟨?_, List.prefix_refl _⟩
  simp [State.port]

/-- `OnlyPort` field by field. -/
theorem OnlyPort.mk' {i : Fin 4} {s t : State} (hplat : t.plat = s.plat) (heng : t.eng = s.eng)
    (hports : t.ports = s.ports.set i (t.port i)) (hstore : t.store = s.store) (hcomp : t.comp = s.comp)
    (hhost : t.host = s.host) (htr : s.obs.trace <+: t.obs.trace) (hret : t.obs.returns = s.obs.returns)
    (hev : t.obs.events = s.obs.events) (hdraws : t.draws = s.draws) (henv : t.env = s.env)
    (href : t.refused = s.refused) (hf : t.faults = s.faults) : OnlyPort i s t := by
  refine ⟨?_, htr⟩
  rcases s with ⟨pl, e, p, g, st, co, ho, ⟨tr, re, ev⟩, dr, en, rf, fa⟩
  rcases t with ⟨pl', e', p', g', st', co', ho', ⟨tr', re', ev'⟩, dr', en', rf', fa'⟩
  simp only [State.mk.injEq, Obs.mk.injEq, true_and] at *
  exact ⟨hplat, heng, hports, hstore, hcomp, hhost, ⟨hret, hev⟩, hdraws, henv, href, hf⟩

theorem OnlyPort.trans {i : Fin 4} {s t u : State} (h : OnlyPort i s t) (k : OnlyPort i t u) : OnlyPort i s u := by
  refine ⟨?_, h.2.trans k.2⟩
  have e := k.1
  rw [h.1] at e
  rw [e]
  simp [State.port]

theorem OnlyPort.setPort (i : Fin 4) (s : State) (p : Port) : OnlyPort i s (s.setPort i p) := by
  refine ⟨?_, List.prefix_refl _⟩
  simp [State.setPort, State.port]

theorem OnlyPort.goto (i : Fin 4) (st : SeqState) (s : State) : OnlyPort i s (goto i st s) := OnlyPort.setPort i s _

theorem OnlyPort.drive (i : Fin 4) (ag : Agent) (n : BitVec 8) (v : Bool) (s : State) :
    OnlyPort i s (drive ag (gpioPin n) v s) := by
  rw [drive_eq]
  refine ⟨?_, List.prefix_append _ _⟩
  simp [State.port]

theorem OnlyPort.release (i : Fin 4) (ag : Agent) (n : BitVec 8) (s : State) :
    OnlyPort i s (release ag (gpioPin n) s) := by
  rw [release_eq]
  refine ⟨?_, List.prefix_append _ _⟩
  simp [State.port]

theorem OnlyPort.sdaDrive {s : State} {i : Fin 4} {n : BitVec 8} (h : (s.port i).sda = gpioPin n) (v : Bool) :
    OnlyPort i s (sdaDrive i v s) := by
  simp only [Machine.sdaDrive, h]
  exact OnlyPort.drive i _ _ _ _

theorem OnlyPort.sclDrive {s : State} {i : Fin 4} {n : BitVec 8} (h : (s.port i).scl = gpioPin n) (v : Bool) :
    OnlyPort i s (sclDrive i v s) := by
  simp only [Machine.sclDrive, h]
  exact OnlyPort.drive i _ _ _ _

theorem OnlyPort.sdaRelease {s : State} {i : Fin 4} {n : BitVec 8} (h : (s.port i).sda = gpioPin n) :
    OnlyPort i s (sdaRelease i s) := by
  simp only [Machine.sdaRelease, h]
  exact OnlyPort.release i _ _ _

theorem OnlyPort.clockGen {s : State} {i : Fin 4} {n : BitVec 8} (h : (s.port i).scl = gpioPin n) :
    OnlyPort i s (clockGen i s) := by
  refine (OnlyPort.setPort i s _).trans (OnlyPort.sclDrive (n := n) ?_ _)
  simp [h]

/-- The clock generator keeps the port's pins. -/
theorem PortPins.clockGen {s : State} {i : Fin 4} {d c : BitVec 8} (h : PortPins s i d c) :
    PortPins (clockGen i s) i d c := h.of_port (by simp) (by simp)

/-- The frame with the same faults on both sides. -/
theorem OnlyPort.faults {i : Fin 4} {s t : State} (h : OnlyPort i s t) (f : List Fault) :
    OnlyPort i { s with faults := f } { t with faults := f } := by
  refine ⟨?_, h.2⟩
  have := h.1
  rw [this]
  simp [State.port]

theorem OnlyPort.noteBufRead (i : Fin 4) (k : BitVec 1) (j : BitVec 16) (s : State) :
    OnlyPort i { s with faults := (noteBufRead i k j s).faults } (noteBufRead i k j s) := by
  unfold Machine.noteBufRead
  split
  · exact OnlyPort.refl i s
  · exact OnlyPort.refl i (s.fault _)

/-- A sample adds one draw to the frame. -/
theorem OnlyPort.sampled {i : Fin 4} {s t u : State} {d : BitVec 8} (h : OnlyPort i s t)
    (hd : (t.port i).sda = gpioPin d) (k : OnlyPort i (noteSample i t) u) : OnlyPortSampled i s u := by
  have e := k.1
  have e2 := k.2
  rw [noteSample_eq t i d hd] at e e2
  refine ⟨?_, h.2.trans e2⟩
  rw [h.1] at e
  rw [e]
  simp [State.port]

/-! The trace (20_memory.md R70). -/

/-- A drive's entries depend on the tick number, DIR_IN_BIT and the direction words alone. -/
theorem driveEntries_congr {s t : State} (he : t.eng = s.eng) (hp : t.plat = s.plat) (hd : t.gpio.dir = s.gpio.dir)
    (ag : Agent) (n : BitVec 8) (v : Bool) : driveEntries ag t n v = driveEntries ag s n v := by
  simp only [driveEntries, he, hp, hd]

/-- So do a release's entries. -/
theorem releaseEntries_congr {s t : State} (he : t.eng = s.eng) (hp : t.plat = s.plat) (hd : t.gpio.dir = s.gpio.dir)
    (ag : Agent) (n : BitVec 8) : releaseEntries ag t n = releaseEntries ag s n := by
  simp only [releaseEntries, he, hp, hd]

/-- The direction word by DIR_IN_BIT, as the rules R66 and R67 write it. -/
theorem dirWord_cases (b : BitVec 1) (d mask : Word) (o : Bool) :
    dirWord b d mask o = if (b = 1) = o then d &&& ~~~mask else d ||| mask := by
  have hb : b = 0 ∨ b = 1 := by revert b; decide
  rcases hb with rfl | rfl <;> cases o <;> simp [dirWord]

theorem drive_trace (ag : Agent) (n : BitVec 8) (v : Bool) (s : State) :
    Traced s (drive ag (gpioPin n) v s) (driveEntries ag s n v) := by
  simp [Traced, drive_eq, driveEntries, latchEntry, dirEntry, dirWord_cases]

theorem release_trace (ag : Agent) (n : BitVec 8) (s : State) :
    Traced s (release ag (gpioPin n) s) (releaseEntries ag s n) := by
  by_cases h : s.plat.dirInBit = 1 <;> simp [Traced, release_eq, releaseEntries, dirEntry, dirWord_cases, h]

/-- What a drive leaves in the direction words. -/
theorem drive_dir (ag : Agent) (n : BitVec 8) (v : Bool) (s : State) :
    (drive ag (gpioPin n) v s).gpio.dir = (asOutput s n).gpio.dir := by
  simp [drive_eq, asOutput, gpioDirected, Gpio.write, dirWord_cases]

theorem sdaDrive_trace {s : State} {i : Fin 4} {n : BitVec 8} (h : (s.port i).sda = gpioPin n) (v : Bool) :
    (sdaDrive i v s).obs.trace = s.obs.trace ++ driveEntries .tick s n v := by
  rw [sdaDrive, h]; exact drive_trace .tick n v s

theorem sdaRelease_trace {s : State} {i : Fin 4} {n : BitVec 8} (h : (s.port i).sda = gpioPin n) :
    (sdaRelease i s).obs.trace = s.obs.trace ++ releaseEntries .tick s n := by
  rw [sdaRelease, h]; exact release_trace .tick n s

/-- The clock generator's two writes (40_tick_dispatch.md R124). -/
theorem clockGen_trace {s : State} {i : Fin 4} {n : BitVec 8} (h : (s.port i).scl = gpioPin n) :
    (clockGen i s).obs.trace = s.obs.trace ++ driveEntries .tick s n (!(s.port i).phase) := by
  rw [clockGen, sclDrive, State.port_setPort_self, h]
  exact drive_trace .tick n _ _

/-- What the clock generator leaves in the direction words. -/
theorem clockGen_dir {s : State} {i : Fin 4} {n : BitVec 8} (h : (s.port i).scl = gpioPin n) :
    (clockGen i s).gpio.dir = (asOutput s n).gpio.dir := by
  rw [clockGen, sclDrive, State.port_setPort_self, h, drive_dir]
  rfl

/-- The entries of a drive after the clock generator. -/
theorem driveEntries_clocked {s t : State} {i : Fin 4} {c : BitVec 8} (hc : (s.port i).scl = gpioPin c) (he : t.eng = s.eng)
    (hp : t.plat = s.plat) (hg : t.gpio = (clockGen i s).gpio) (ag : Agent) (n : BitVec 8) (v : Bool) :
    driveEntries ag t n v = driveEntries ag (asOutput s c) n v :=
  driveEntries_congr (s := asOutput s c) he hp (by rw [hg, clockGen_dir hc]) ag n v

/-- The entries of a release after the clock generator. -/
theorem releaseEntries_clocked {s t : State} {i : Fin 4} {c : BitVec 8} (hc : (s.port i).scl = gpioPin c) (he : t.eng = s.eng)
    (hp : t.plat = s.plat) (hg : t.gpio = (clockGen i s).gpio) (ag : Agent) (n : BitVec 8) :
    releaseEntries ag t n = releaseEntries ag (asOutput s c) n :=
  releaseEntries_congr (s := asOutput s c) he hp (by rw [hg, clockGen_dir hc]) ag n

/-- WBIT's action writes SDA alone, at phase 0 (42_transmit_states.md R149). -/
theorem wbitAction_trace {s : State} {i : Fin 4} {n : BitVec 8} (h : (s.port i).sda = gpioPin n) :
    (wbitAction i s).obs.trace = s.obs.trace ++ if (s.port i).phase = false then
      driveEntries .tick s n ((s.port i).dataByte &&& (s.port i).bitMask != 0) else [] := by
  unfold wbitAction
  cases hp : (s.port i).phase <;> simp only [hp, if_true, Bool.true_eq_false, if_false, List.append_nil]
  · simp [sdaDrive_trace h]
  · split <;> rfl

/-- TxSetup writes what WBIT's action writes of bit 7 (R148). -/
theorem txSetup_trace {s : State} {i : Fin 4} {n : BitVec 8} (h : (s.port i).sda = gpioPin n) :
    (txSetup i s).obs.trace = s.obs.trace ++ if (s.port i).phase = false then
      driveEntries .tick s n ((s.port i).dataByte.getLsbD 7) else [] := by
  rw [txSetup, wbitAction_trace (n := n) (by simp [h])]
  simp only [State.setPort_obs, State.port_setPort_self, and_bitMaskInit]
  rfl

/-- RBIT's action writes no register (43_receive_states.md R162). -/
theorem rbitAction_trace {s : State} {i : Fin 4} {n : BitVec 8} (h : (s.port i).sda = gpioPin n) :
    (rbitAction i s).obs.trace = s.obs.trace := by
  unfold rbitAction
  simp only
  repeat' split
  all_goals simp [noteSample_eq s i n h]

end Sys2Proof.Machine
end

