-- ==== Sys2Proof/Laws/Step.lean ====
section
/-! SUPPORT. What a step can do, said once: every instruction answers a next state (`exec_eq`), a step is one of the turns of
`Turn` (`step_turn`), and an invariant that every turn keeps every step keeps (`step_inv`). -/

namespace Sys2Proof.Machine

/-- The effect of each instruction, as a function. -/
def effect (i : Instr) (s : State) : State :=
  match i with
  | .idle => idleStep s.eng.cur s
  | .start => startStep s.eng.cur s
  | .start2 => start2Step s.eng.cur s
  | .addr => addrStep s.eng.cur s
  | .write => writeStep s.eng.cur s
  | .read => readStep s.eng.cur s
  | .wbit => wbitStep s.eng.cur s
  | .rbit => rbitStep s.eng.cur s
  | .wack => wackStep s.eng.cur s
  | .rack => rackStep s.eng.cur s
  | .stop => stopStep s.eng.cur s
  | .stop2 => stop2Step s.eng.cur s
  | .stop3 => stop3Step s.eng.cur s
  | .restart => restartStep s.eng.cur s
  | .wait => waitStep s.eng.cur s
  | .complete => completeStep s.eng.cur s
  | .init => initStep s
  | .req port sda scl => reqStep port sda scl s
  | .rel port => relStep port s
  | .xfer port msgs => xferStep port msgs s
  | .unload => unloadStep s
  | .tick => tickStep s
  | .sirq => sirqStep s

/-- Every instruction answers a next state. -/
theorem exec_eq (i : Instr) (s : State) : exec i s = .next (effect i s) := by cases i <;> rfl

/-- The STATE row of a port's state is its PortStep (40_tick_dispatch.md R122, 30_encoding.md R107). -/
theorem effect_stateInstr (s : State) :
    effect (stateInstr (s.port s.eng.cur).state) s = portStep s.eng.cur s := by
  unfold portStep
  split <;> rename_i h <;> rw [h] <;> rfl

@[simp] theorem mapNext_next (f : State → State) (s : State) : mapNext f (.next s) = .next (f s) := rfl

/-- The CMD decoder yields CMD rows only. -/
theorem decodeCmd_format {rd : Nat → Byte} {a n : Nat} {i : Instr} (h : decodeCmd rd a = .ok i n) :
    i.format = .cmd := by
  unfold decodeCmd ifUnusedZero at h
  simp only at h
  repeat' split at h
  all_goals cases h
  all_goals rfl

/-- A word of the command stream is a CMD row. -/
theorem nextWord_format {s : State} {i : Instr} {n : Nat} (h : nextWord s = some (.ok i n)) : i.format = .cmd := by
  unfold nextWord at h
  split at h
  · exact decodeCmd_format (Option.some.inj h)
  · cases h

/-- The turns of the agents, from a state with this step's environment slot used up. -/
inductive Turn (s : State) : State → Prop where
  | tick (h : tickDeliverable s = true) : Turn s (tickStep s)
  | callback (c : PendingCb) (h : s.comp.pendingCb = some c) : Turn s (companionCallback c s)
  | service (hc : s.comp.pendingCb = none) (h : s.comp.active = true) : Turn s (companionService s)
  | sirq (h : sirqDeliverable s = true) : Turn s (sirqStep s)
  | sirqWord (n : Nat) (h : sirqDeliverable s = true) : Turn s (advance n (sirqStep s))
  | pass (n : Nat) : Turn s (advance n s)
  | fire : Turn s (timerFire s)
  | fireTick (h : tickDeliverable (timerFire s) = true) : Turn s (tickStep (timerFire s))
  | fireWord (n : Nat) : Turn s (advance n (timerFire s))
  | fireTickWord (n : Nat) (h : tickDeliverable (timerFire s) = true) : Turn s (advance n (tickStep (timerFire s)))
  | held (p : Fin 4) (h : heldReady s = some p) : Turn s (commitRel p s)
  | rest : Turn s s
  | refused (n : Nat) (r : Refusal) : Turn s (advance n (s.refuse r))
  | command (i : Instr) (n : Nat) (hh : s.host.held = []) (hw : nextWord s = some (.ok i n)) (ht : i ≠ .tick)
      (hs : i ≠ .sirq) : Turn s (advance n (effect i s))

theorem turn_fireTick {s t : State} (h : Machine.fireTick s = .next t) : Turn s t := by
  unfold Machine.fireTick at h
  split at h
  · rename_i hd; cases h; exact .fireTick hd
  · cases h; exact .fire

theorem turn_fireWord {s t : State} {n : Nat} (h : mapNext (advance n) (Machine.fireTick s) = .next t) : Turn s t := by
  unfold Machine.fireTick at h
  split at h
  · rename_i hd; cases h; exact .fireTickWord n hd
  · cases h; exact .fireWord n

theorem turn_idleOrFire {s t : State} (h : idleOrFire s = .next t) : Turn s t := by
  unfold idleOrFire at h
  split at h
  · exact turn_fireTick h
  · cases h; exact .rest

theorem turn_hostIssue {s t : State} {i : Instr} {n : Nat} (hw : nextWord s = some (.ok i n)) (ht : i ≠ .tick)
    (hs : i ≠ .sirq) (h : hostIssue i n s = .next t) : Turn s t := by
  unfold hostIssue at h
  split at h
  · rename_i hh
    rw [exec_eq] at h
    cases h
    exact .command i n hh hw ht hs
  · split at h
    · cases h; exact .refused n _
    · exact turn_idleOrFire h

theorem turn_streamStep {s t : State} (h : streamStep s = .next t) : Turn s t := by
  unfold streamStep at h
  split at h
  · unfold Machine.sirqWord at h
    split at h
    · rename_i n _ hd
      cases h
      exact .sirqWord n hd
    · cases h; exact .pass _
  · split at h
    · exact turn_fireWord h
    · split at h
      · rename_i p hp; cases h; exact .held p hp
      · exact turn_fireWord h
  · rename_i hsirq htick
    split at h
    · rename_i hd; cases h; exact .sirq hd
    · split at h
      · rename_i p hp; cases h; exact .held p hp
      · split at h
        · exact turn_idleOrFire h
        · unfold badWord at h
          split at h
          · cases h; exact .refused 4 _
          · exact turn_idleOrFire h
        · rename_i i n hw
          refine turn_hostIssue hw ?_ ?_ h
          · rintro rfl; exact htick n hw
          · rintro rfl; exact hsirq n hw

theorem turn_agentStep {s t : State} (h : agentStep s = .next t) : Turn s t := by
  unfold agentStep at h
  split at h
  · rename_i hd; cases h; exact .tick hd
  · split at h
    · rename_i c hc; cases h; exact .callback c hc
    · rename_i hc
      split at h
      · rename_i ha; cases h; exact .service hc ha
      · exact turn_streamStep h

/-- A step is an agent's turn, with or without an empty environment slot before it, or an environment event. -/
theorem step_turn {s t : State} (h : step s = .next t) :
    Turn s t ∨ (∃ rest, Turn { s with env := rest } t) ∨ ∃ e rest, t = applyEnv e { s with env := rest } := by
  unfold step stepOf at h
  split at h
  · exact .inl (turn_agentStep h)
  · exact .inr (.inl ⟨_, turn_agentStep h⟩)
  · cases h; exact .inr (.inr ⟨_, _, rfl⟩)

/-- What every turn and every environment event keeps, every step keeps. -/
theorem step_inv {Inv : State → Prop} (hdrop : ∀ s es, Inv s → Inv { s with env := es })
    (henv : ∀ s e, Inv s → Inv (applyEnv e s)) (hturn : ∀ s t, Turn s t → Inv s → Inv t)
    {s t : State} (h : step s = .next t) (hi : Inv s) : Inv t := by
  rcases step_turn h with h | ⟨es, h⟩ | ⟨e, es, rfl⟩
  · exact hturn _ _ h hi
  · exact hturn _ _ h (hdrop s es hi)
  · exact henv _ e (hdrop s es hi)

end Sys2Proof.Machine
end

