-- ==== Sys2Proof/Laws/PortStep.lean ====
section
/-! SUPPORT. What one PortStep can do, said once (`portStep_frame`), from every state; the same for a turn of the dispatch loop
and for the ports of a whole tick. -/

namespace Sys2Proof.Machine

/-- The fields of a port that no PortStep writes (10_state.md R25). -/
def PortConfig (p q : Port) : Prop :=
  q.sda = p.sda ∧ q.scl = p.scl ∧ q.numMsg = p.numMsg ∧ q.msg0 = p.msg0 ∧ q.msg1 = p.msg1 ∧ q.orig0 = p.orig0
  ∧ q.orig1 = p.orig1 ∧ q.cb = p.cb ∧ q.ctx = p.ctx ∧ q.requested = p.requested

theorem PortConfig.refl (p : Port) : PortConfig p p := ⟨rfl, rfl, rfl, rfl, rfl, rfl, rfl, rfl, rfl, rfl⟩

theorem PortConfig.trans {p q r : Port} (h : PortConfig p q) (k : PortConfig q r) : PortConfig p r := by
  obtain ⟨a1, a2, a3, a4, a5, a6, a7, a8, a9, a10⟩ := h
  obtain ⟨b1, b2, b3, b4, b5, b6, b7, b8, b9, b10⟩ := k
  exact ⟨b1.trans a1, b2.trans a2, b3.trans a3, b4.trans a4, b5.trans a5, b6.trans a6, b7.trans a7, b8.trans a8,
    b9.trans a9, b10.trans a10⟩

/-- The engine with another `status_level` and toggle count. -/
def engToggled (e : Engine) (lvl : Bool) (n : Nat) : Engine := { e with statusLevel := lvl, toggles := n }

/-- All that a step of port `i` leaves alone. -/
structure StepFrame (i : Fin 4) (s t : State) : Prop where
  plat : t.plat = s.plat
  eng : t.eng = engToggled s.eng t.eng.statusLevel t.eng.toggles
  ports : ∀ j, j ≠ i → t.port j = s.port j
  config : PortConfig (s.port i) (t.port i)
  wf : s.store.wf = true → t.store.wf = true
  store : s.store.wf = true → ∀ a, (∀ k j, j < 65536 → a ≠ storeAddr i k j) → t.store.read a = s.store.read a
  comp : t.comp = s.comp
  host : t.host = s.host
  trace : s.obs.trace <+: t.obs.trace
  returns : t.obs.returns = s.obs.returns
  events : t.obs.events = s.obs.events
  draws : t.draws = { s.draws with bus := t.draws.bus }
  bus : ∀ j : Fin 4, j ≠ i → t.draws.bus[j] = s.draws.bus[j]
  env : t.env = s.env
  refused : ∀ r, r ∈ s.refused → r ∈ t.refused
  faults : ∀ f, f ∈ s.faults → f ∈ t.faults

theorem StepFrame.refl (i : Fin 4) (s : State) : StepFrame i s s where
  plat := rfl
  eng := rfl
  ports := fun _ _ => rfl
  config := PortConfig.refl _
  wf := id
  store := fun _ _ _ => rfl
  comp := rfl
  host := rfl
  trace := List.prefix_refl _
  returns := rfl
  events := rfl
  draws := rfl
  bus := fun _ _ => rfl
  env := rfl
  refused := fun _ => id
  faults := fun _ => id

theorem StepFrame.trans {i : Fin 4} {s t u : State} (h : StepFrame i s t) (k : StepFrame i t u) : StepFrame i s u where
  plat := k.plat.trans h.plat
  eng := by rw [k.eng, h.eng]; rfl
  ports := fun j hj => (k.ports j hj).trans (h.ports j hj)
  config := h.config.trans k.config
  wf := fun hw => k.wf (h.wf hw)
  store := fun hw a ha => (k.store (h.wf hw) a ha).trans (h.store hw a ha)
  comp := k.comp.trans h.comp
  host := k.host.trans h.host
  trace := h.trace.trans k.trace
  returns := k.returns.trans h.returns
  events := k.events.trans h.events
  draws := by rw [k.draws, h.draws]
  bus := fun j hj => (k.bus j hj).trans (h.bus j hj)
  env := k.env.trans h.env
  refused := fun r hr => k.refused r (h.refused r hr)
  faults := fun f hf => k.faults f (h.faults f hf)

theorem StepFrame.setPort (i : Fin 4) (s : State) (p : Port) (h : PortConfig (s.port i) p) :
    StepFrame i s (s.setPort i p) :=
  { StepFrame.refl i s with
    plat := rfl
    eng := rfl
    ports := fun _ hj => State.port_setPort_ne s (Ne.symm hj) p
    config := by rw [State.port_setPort_self]; exact h
    wf := id
    store := fun _ _ _ => rfl
    trace := List.prefix_refl _
    bus := fun _ _ => rfl
    refused := fun _ => id
    faults := fun _ => id }

theorem StepFrame.goto (i : Fin 4) (st : SeqState) (s : State) : StepFrame i s (goto i st s) :=
  StepFrame.setPort i s _ (PortConfig.refl _)

theorem addOnce_mem {α : Type} [DecidableEq α] {x y : α} {l : List α} (h : y ∈ l) : y ∈ addOnce x l := by
  unfold addOnce
  split
  · exact h
  · exact List.mem_append_left _ h

/-- A register write grows the trace or the refusals, and the GPIO words are its own. -/
theorem mmioWrite32_marks (ag : Agent) (off : Nat) (v : Word) (s : State) :
    s.obs.trace <+: (mmioWrite32 ag off v s).obs.trace
    ∧ (mmioWrite32 ag off v s).obs.returns = s.obs.returns
    ∧ (mmioWrite32 ag off v s).obs.events = s.obs.events
    ∧ ∀ r, r ∈ s.refused → r ∈ (mmioWrite32 ag off v s).refused := by
  unfold mmioWrite32
  repeat' split
  all_goals first
    | exact ⟨List.prefix_append _ _, rfl, rfl, fun _ h => h⟩
    | exact ⟨List.prefix_refl _, rfl, rfl, fun _ h => addOnce_mem h⟩

theorem noteRead_refused (off : Nat) (s : State) : ∀ r, r ∈ s.refused → r ∈ (noteRead off s).refused := by
  unfold noteRead
  repeat' split
  all_goals first
    | exact fun _ h => h
    | exact fun _ h => addOnce_mem h

theorem StepFrame.mmioWrite32 (i : Fin 4) (ag : Agent) (off : Nat) (v : Word) (s : State) :
    StepFrame i s (mmioWrite32 ag off v s) := by
  obtain ⟨ht, hr, he, hm⟩ := mmioWrite32_marks ag off v s
  constructor <;> simp_all [engToggled, PortConfig.refl]

theorem StepFrame.noteRead (i : Fin 4) (off : Nat) (s : State) : StepFrame i s (noteRead off s) := by
  have hm := noteRead_refused off s
  constructor <;> simp_all [engToggled, PortConfig.refl]

theorem StepFrame.setDirection (i : Fin 4) (ag : Agent) (pin : GpioPin) (o : Bool) (s : State) :
    StepFrame i s (setDirection ag pin o s) :=
  (StepFrame.noteRead i _ s).trans (StepFrame.mmioWrite32 i _ _ _ _)

theorem StepFrame.drive (i : Fin 4) (ag : Agent) (pin : GpioPin) (v : Bool) (s : State) :
    StepFrame i s (drive ag pin v s) :=
  (StepFrame.mmioWrite32 i _ _ _ s).trans (StepFrame.setDirection i _ _ _ _)

theorem StepFrame.sdaDrive (i : Fin 4) (v : Bool) (s : State) : StepFrame i s (sdaDrive i v s) := StepFrame.drive i _ _ _ _
theorem StepFrame.sclDrive (i : Fin 4) (v : Bool) (s : State) : StepFrame i s (sclDrive i v s) := StepFrame.drive i _ _ _ _
theorem StepFrame.sdaRelease (i : Fin 4) (s : State) : StepFrame i s (sdaRelease i s) := StepFrame.setDirection i _ _ _ _

theorem StepFrame.clockGen (i : Fin 4) (s : State) : StepFrame i s (clockGen i s) :=
  (StepFrame.setPort i s { s.port i with phase := !(s.port i).phase } (PortConfig.refl _)).trans (StepFrame.sclDrive i _ _)

theorem StepFrame.noteSample (i : Fin 4) (s : State) : StepFrame i s (noteSample i s) := by
  refine StepFrame.trans (t := { s with draws.bus := s.draws.bus.set i s.draws.bus[i].advance }) ?_ (StepFrame.noteRead i _ _)
  exact { StepFrame.refl i s with
    eng := rfl
    ports := fun _ _ => rfl
    config := PortConfig.refl _
    wf := id
    store := fun _ _ _ => rfl
    trace := List.prefix_refl _
    draws := rfl
    bus := fun j hj => by
      have : (i.val : Nat) ≠ j.val := fun e => hj (Fin.ext e.symm)
      simp [this]
    refused := fun _ => id
    faults := fun _ => id }

theorem StepFrame.fault (i : Fin 4) (f : Fault) (s : State) : StepFrame i s (s.fault f) :=
  { StepFrame.refl i s with
    eng := rfl
    ports := fun _ _ => rfl
    config := PortConfig.refl _
    wf := id
    store := fun _ _ _ => rfl
    trace := List.prefix_refl _
    bus := fun _ _ => rfl
    refused := fun _ => id
    faults := fun _ h => addOnce_mem h }

theorem StepFrame.noteBufRead (i : Fin 4) (k : BitVec 1) (j : BitVec 16) (s : State) :
    StepFrame i s (noteBufRead i k j s) := by
  unfold Machine.noteBufRead
  split
  · exact StepFrame.refl i s
  · exact StepFrame.fault i _ s

theorem StepFrame.bufWrite (i : Fin 4) (k : BitVec 1) (j : BitVec 16) (b : Byte) (s : State) :
    StepFrame i s (bufWrite i k j b s) := by
  unfold Machine.bufWrite
  split
  · exact { StepFrame.refl i s with
      eng := rfl
      ports := fun _ _ => rfl
      config := PortConfig.refl _
      wf := fun h => Memory.wf_write h _ _
      store := fun hw a ha => by
        have := ha k j.toNat j.isLt
        simp only [Memory.read_write hw, this, if_false]
      trace := List.prefix_refl _
      bus := fun _ _ => rfl
      refused := fun _ => id
      faults := fun _ => id }
  · exact StepFrame.fault i _ s

theorem StepFrame.statusToggle (i : Fin 4) (s : State) : StepFrame i s (statusToggle s) := by
  refine StepFrame.trans (t := { s with
    eng := { s.eng with statusLevel := !s.eng.statusLevel, toggles := s.eng.toggles + 1 } }) ?_ (StepFrame.mmioWrite32 i _ _ _ _)
  exact { StepFrame.refl i s with
    eng := rfl
    ports := fun _ _ => rfl
    config := PortConfig.refl _
    wf := id
    store := fun _ _ _ => rfl
    trace := List.prefix_refl _
    bus := fun _ _ => rfl
    refused := fun _ => id
    faults := fun _ => id }

/-! The actions. -/

theorem wbitAction_frame (i : Fin 4) (s : State) : StepFrame i s (wbitAction i s) := by
  unfold wbitAction
  simp only
  split
  · exact (StepFrame.sdaDrive i _ s).trans (StepFrame.setPort i _ _ (PortConfig.refl _))
  · split
    · exact StepFrame.goto i _ s
    · exact StepFrame.refl i s

theorem txSetup_frame (i : Fin 4) (s : State) : StepFrame i s (txSetup i s) :=
  (StepFrame.setPort i s { s.port i with bitMask := bitMaskInit, state := .wbit } (PortConfig.refl _)).trans
    (wbitAction_frame i _)

theorem rbitAction_frame (i : Fin 4) (s : State) : StepFrame i s (rbitAction i s) := by
  unfold rbitAction
  simp only
  split
  · exact StepFrame.refl i s
  · have h := (StepFrame.noteSample i s).trans (StepFrame.setPort i _ { (noteSample i s).port i with
      dataByte := if sampleBit i s then (s.port i).dataByte ||| (s.port i).bitMask else (s.port i).dataByte
      bitMask := (s.port i).bitMask >>> 1 } (PortConfig.refl _))
    split
    · exact h.trans ((StepFrame.bufWrite i _ _ _ _).trans (StepFrame.setPort i _ _ (PortConfig.refl _)))
    · exact h

/-- A port write after a step. -/
theorem StepFrame.thenSet {i : Fin 4} {s t : State} (h : StepFrame i s t) (p : Port) (hp : PortConfig (t.port i) p) :
    StepFrame i s (t.setPort i p) := h.trans (StepFrame.setPort i t p hp)

theorem addrStep_frame (i : Fin 4) (s : State) : StepFrame i s (addrStep i s) := by
  unfold addrStep
  refine StepFrame.trans ?_ (txSetup_frame i _)
  exact StepFrame.thenSet (StepFrame.clockGen i s) _ (PortConfig.refl _)

theorem writeStep_frame (i : Fin 4) (s : State) : StepFrame i s (writeStep i s) := by
  have h : StepFrame i s (noteBufRead i ((clockGen i s).port i).curMsg ((clockGen i s).port i).bufOffset (clockGen i s)) :=
    (StepFrame.clockGen i s).trans (StepFrame.noteBufRead i _ _ _)
  unfold writeStep
  simp only
  generalize bufRead i _ _ _ = b
  generalize noteBufRead i _ _ _ = t at h
  refine StepFrame.trans ?_ (txSetup_frame i _)
  exact StepFrame.thenSet h _ (PortConfig.refl _)

theorem readStep_frame (i : Fin 4) (s : State) : StepFrame i s (readStep i s) := by
  unfold readStep
  refine StepFrame.trans ?_ (rbitAction_frame i _)
  refine StepFrame.thenSet ?_ _ ⟨rfl, rfl, rfl, rfl, rfl, rfl, rfl, rfl, rfl, rfl⟩
  exact (StepFrame.clockGen i s).trans (StepFrame.sdaRelease i _)

theorem wackStep_frame (i : Fin 4) (s : State) : StepFrame i s (wackStep i s) := by
  unfold wackStep
  simp only
  split
  · exact (StepFrame.clockGen i s).trans (StepFrame.sdaDrive i _ _)
  · split
    · exact StepFrame.thenSet (StepFrame.clockGen i s) _ ⟨rfl, rfl, rfl, rfl, rfl, rfl, rfl, rfl, rfl, rfl⟩
    · exact (StepFrame.clockGen i s).trans (StepFrame.goto i _ _)

theorem rackStep_frame (i : Fin 4) (s : State) : StepFrame i s (rackStep i s) := by
  unfold rackStep
  simp only
  have h := (StepFrame.clockGen i s).trans (StepFrame.noteSample i _)
  split
  · exact (StepFrame.clockGen i s).trans (StepFrame.sdaRelease i _)
  · split
    · split
      · exact StepFrame.thenSet h _ ⟨rfl, rfl, rfl, rfl, rfl, rfl, rfl, rfl, rfl, rfl⟩
      · exact h.trans (StepFrame.goto i _ _)
    · exact StepFrame.thenSet h _ ⟨rfl, rfl, rfl, rfl, rfl, rfl, rfl, rfl, rfl, rfl⟩

theorem stopStep_frame (i : Fin 4) (s : State) : StepFrame i s (stopStep i s) := by
  unfold stopStep
  simp only
  split
  · exact (StepFrame.clockGen i s).trans (StepFrame.sdaDrive i _ _)
  · exact (StepFrame.clockGen i s).trans ((StepFrame.sdaDrive i _ _).trans (StepFrame.goto i _ _))

theorem stop2Step_frame (i : Fin 4) (s : State) : StepFrame i s (stop2Step i s) := by
  unfold stop2Step
  simp only
  split
  · refine StepFrame.trans ?_ (StepFrame.goto i _ _)
    refine StepFrame.trans ?_ (StepFrame.sclDrive i _ _)
    exact StepFrame.setPort i s _ ⟨rfl, rfl, rfl, rfl, rfl, rfl, rfl, rfl, rfl, rfl⟩
  · exact StepFrame.goto i _ s

theorem start2Step_frame (i : Fin 4) (s : State) : StepFrame i s (start2Step i s) := by
  unfold start2Step
  exact StepFrame.thenSet (StepFrame.sdaDrive i false s) _ ⟨rfl, rfl, rfl, rfl, rfl, rfl, rfl, rfl, rfl, rfl⟩

/-- One PortStep, whatever the state. -/
theorem portStep_frame (i : Fin 4) (s : State) : StepFrame i s (portStep i s) := by
  unfold portStep
  split
  · exact StepFrame.refl i s
  · exact StepFrame.setPort i s _ ⟨rfl, rfl, rfl, rfl, rfl, rfl, rfl, rfl, rfl, rfl⟩
  · exact start2Step_frame i s
  · exact addrStep_frame i s
  · exact writeStep_frame i s
  · exact readStep_frame i s
  · exact (StepFrame.clockGen i s).trans (wbitAction_frame i _)
  · exact (StepFrame.clockGen i s).trans (rbitAction_frame i _)
  · exact wackStep_frame i s
  · exact rackStep_frame i s
  · exact stopStep_frame i s
  · exact stop2Step_frame i s
  · exact (StepFrame.sdaRelease i s).trans (StepFrame.goto i _ _)
  · exact (StepFrame.sclDrive i _ s).trans (StepFrame.goto i _ _)
  · exact StepFrame.setPort i s _ ⟨rfl, rfl, rfl, rfl, rfl, rfl, rfl, rfl, rfl, rfl⟩
  · exact StepFrame.statusToggle i s

end Sys2Proof.Machine
end

