-- ==== Sys2Proof/Laws/Tick.lean ====
section
/-! SUPPORT. The turn of a port in a tick, the tick's end, and the tick as a whole. -/

namespace Sys2Proof.Machine

variable (s : State)

/-- What a PortStep does to the engine: a port in COMPLETE toggles the status level (44_stop_wait_states.md R185). -/
theorem portStep_eng (i : Fin 4) :
    (portStep i s).eng = if (s.port i).state = .complete then
      engToggled s.eng (!s.eng.statusLevel) (s.eng.toggles + 1) else s.eng := by
  have hw : ∀ t : State, (wbitAction i t).eng = t.eng := by
    intro t; unfold wbitAction; simp only; repeat' split
    all_goals simp
  have hr : ∀ t : State, (rbitAction i t).eng = t.eng := by
    intro t; unfold rbitAction; simp only; repeat' split
    all_goals simp
  unfold portStep
  split <;> rename_i h <;> simp only [h, if_true, if_false, reduceCtorEq]
  · rfl
  · simp [startStep]
  · simp [start2Step]
  · simp [addrStep, txSetup, hw]
  · simp [writeStep, txSetup, hw]
  · simp [readStep, hr]
  · simp [wbitStep, hw]
  · simp [rbitStep, hr]
  · unfold wackStep; simp only; repeat' split
    all_goals simp
  · unfold rackStep; simp only; repeat' split
    all_goals simp
  · unfold stopStep; simp only; repeat' split
    all_goals simp
  · unfold stop2Step; simp only; repeat' split
    all_goals simp
  · simp [stop3Step]
  · simp [restartStep]
  · simp [waitStep]
  · simp [completeStep, statusToggle_eng, engToggled]

/-- No PortStep writes IDLE (40_tick_dispatch.md R126). -/
theorem portStep_state (i : Fin 4) (h : (s.port i).state ≠ .idle) : ((portStep i s).port i).state ≠ .idle := by
  have hw : ∀ t : State, (t.port i).state ≠ .idle → ((wbitAction i t).port i).state ≠ .idle := by
    intro t ht; unfold wbitAction; simp only; repeat' split
    all_goals simp [ht]
  have hr : ∀ t : State, (t.port i).state ≠ .idle → ((rbitAction i t).port i).state ≠ .idle := by
    intro t ht; unfold rbitAction; simp only; repeat' split
    all_goals simp [ht]
  unfold portStep
  split <;> rename_i hs
  · exact absurd hs h
  · simp [startStep]
  · simp [start2Step]
  · exact hw _ (by simp)
  · exact hw _ (by simp)
  · exact hr _ (by simp)
  · exact hw _ (by simp [hs])
  · exact hr _ (by simp [hs])
  · unfold wackStep; simp only; repeat' split
    all_goals simp [hs]
  · unfold rackStep; simp only; repeat' split
    all_goals simp [hs]
  · unfold stopStep; simp only; repeat' split
    all_goals simp [hs]
  · unfold stop2Step; simp only; repeat' split
    all_goals simp
  · simp [stop3Step]
  · simp [restartStep]
  · simp only [waitStep, State.port_setPort_self]; repeat' split
    all_goals simp [hs]
  · simp [completeStep, hs]

/-! One turn of the dispatch loop. -/

@[simp] theorem State.isRequested_cur (i j : Fin 4) :
    State.isRequested { s with eng := { s.eng with cur := i } } j = s.isRequested j := rfl
@[simp] theorem State.port_cur (i j : Fin 4) : State.port { s with eng := { s.eng with cur := i } } j = s.port j := rfl
@[simp] theorem State.isActive_cur (i j : Fin 4) :
    State.isActive { s with eng := { s.eng with cur := i } } j = s.isActive j := rfl

theorem tickPort_active {s : State} {i : Fin 4} (h : s.isActive i = true) :
    tickPort i s = portStep i { s with eng := { s.eng with cur := i } } := by
  simp [tickPort, h]

theorem tickPort_skip {s : State} {i : Fin 4} (h : s.isActive i = false) :
    tickPort i s = { s with eng := { s.eng with cur := i } } := by
  simp [tickPort, h]

theorem tickPort_frame (i : Fin 4) : StepFrame i { s with eng := { s.eng with cur := i } } (tickPort i s) := by
  cases h : s.isActive i
  · rw [tickPort_skip h]; exact StepFrame.refl _ _
  · rw [tickPort_active h]; exact portStep_frame i _

/-- A turn changes the engine's `cur`, and, of a requested port in COMPLETE, the status level and the toggle count. -/
theorem tickPort_eng (i : Fin 4) :
    (tickPort i s).eng = if s.isRequested i = true ∧ (s.port i).state = .complete then
      { engToggled s.eng (!s.eng.statusLevel) (s.eng.toggles + 1) with cur := i } else { s.eng with cur := i } := by
  cases h : s.isActive i
  · rw [tickPort_skip h]
    have : ¬(s.isRequested i = true ∧ (s.port i).state = .complete) := by
      rintro ⟨h1, h2⟩
      simp [State.isActive, h1, h2] at h
    simp [this]
  · rw [tickPort_active h, portStep_eng]
    have hr : s.isRequested i = true := by
      simp only [State.isActive, Bool.and_eq_true] at h; exact h.1
    simp only [State.port_cur, hr, true_and]
    by_cases hc : (s.port i).state = .complete
    · simp [hc, engToggled]
    · simp [hc]

theorem requested_tickPort (i : Fin 4) : (tickPort i s).eng.requested = s.eng.requested := by
  rw [tickPort_eng]
  split <;> rfl

theorem isRequested_tickPort (i j : Fin 4) : (tickPort i s).isRequested j = s.isRequested j := by
  simp only [State.isRequested, requested_tickPort]

/-- A turn of one port leaves the records of the others alone. -/
theorem port_tickPort_ne {i j : Fin 4} (h : j ≠ i) : (tickPort i s).port j = s.port j :=
  (tickPort_frame s i).ports j h

/-- A turn makes no port active and no port inactive. -/
theorem isActive_tickPort (i j : Fin 4) : (tickPort i s).isActive j = s.isActive j := by
  by_cases hj : j = i
  · subst hj
    cases h : s.isActive j
    · rw [tickPort_skip h]; exact h
    · have hr := isRequested_tickPort s j j
      simp only [State.isActive, Bool.and_eq_true, bne_iff_ne, ne_eq] at h ⊢
      refine ⟨by rw [hr]; exact h.1, ?_⟩
      rw [tickPort_active (by simp [State.isActive, h.1, h.2])]
      exact portStep_state _ j h.2
  · simp only [State.isActive, isRequested_tickPort, port_tickPort_ne s hj]

/-- What the turns of a tick leave alone, and that the trace grows. -/
structure TurnFrame (s t : State) : Prop where
  plat : t.plat = s.plat
  eng : t.eng = { engToggled s.eng t.eng.statusLevel t.eng.toggles with cur := t.eng.cur }
  config : ∀ i, PortConfig (s.port i) (t.port i)
  wf : s.store.wf = true → t.store.wf = true
  comp : t.comp = s.comp
  host : t.host = s.host
  trace : s.obs.trace <+: t.obs.trace
  returns : t.obs.returns = s.obs.returns
  events : t.obs.events = s.obs.events
  draws : t.draws = { s.draws with bus := t.draws.bus }
  env : t.env = s.env
  refused : ∀ r, r ∈ s.refused → r ∈ t.refused
  faults : ∀ f, f ∈ s.faults → f ∈ t.faults

theorem TurnFrame.trans {s t u : State} (h : TurnFrame s t) (k : TurnFrame t u) : TurnFrame s u where
  plat := k.plat.trans h.plat
  eng := by rw [k.eng, h.eng]; rfl
  config := fun i => (h.config i).trans (k.config i)
  wf := fun hw => k.wf (h.wf hw)
  comp := k.comp.trans h.comp
  host := k.host.trans h.host
  trace := h.trace.trans k.trace
  returns := k.returns.trans h.returns
  events := k.events.trans h.events
  draws := by rw [k.draws, h.draws]
  env := k.env.trans h.env
  refused := fun r hr => k.refused r (h.refused r hr)
  faults := fun f hf => k.faults f (h.faults f hf)

theorem tickPort_turnFrame (i : Fin 4) : TurnFrame s (tickPort i s) := by
  have h := tickPort_frame s i
  exact {
    plat := h.plat
    eng := by rw [h.eng]; rfl
    config := fun j => by
      by_cases hj : j = i
      · subst hj; exact h.config
      · rw [h.ports j hj]; exact PortConfig.refl _
    wf := h.wf
    comp := h.comp
    host := h.host
    trace := h.trace
    returns := h.returns
    events := h.events
    draws := h.draws
    env := h.env
    refused := h.refused
    faults := h.faults }

/-- The four turns of a tick. -/
theorem tickPorts_frame : TurnFrame s (tickPorts s) :=
  (tickPort_turnFrame s 0).trans ((tickPort_turnFrame _ 1).trans ((tickPort_turnFrame _ 2).trans (tickPort_turnFrame _ 3)))

/-- The port is requested and in COMPLETE: its turn toggles the status pin (44_stop_wait_states.md R185). -/
def toggling (s : State) (i : Fin 4) : Bool := s.isRequested i && (s.port i).state == .complete

theorem toggling_tickPort {i j : Fin 4} (h : j ≠ i) : toggling (tickPort i s) j = toggling s j := by
  simp only [toggling, isRequested_tickPort, port_tickPort_ne s h]

theorem toggles_tickPort (i : Fin 4) :
    (tickPort i s).eng.toggles = s.eng.toggles + (toggling s i).toNat
    ∧ (tickPort i s).eng.statusLevel = (s.eng.statusLevel ^^ toggling s i) := by
  have h : (s.isRequested i = true ∧ (s.port i).state = .complete) ↔ toggling s i = true := by simp [toggling]
  rw [tickPort_eng]
  cases ht : toggling s i
  · rw [if_neg (by rw [h, ht]; simp)]
    simp
  · rw [if_pos (h.2 ht)]
    simp [engToggled]

/-- The toggles of a tick, port by port (46_completion_service.md R216). -/
theorem toggles_tickPorts :
    (tickPorts s).eng.toggles = s.eng.toggles + (toggling s 0).toNat + (toggling s 1).toNat + (toggling s 2).toNat
      + (toggling s 3).toNat
    ∧ (tickPorts s).eng.statusLevel
      = (s.eng.statusLevel ^^ toggling s 0 ^^ toggling s 1 ^^ toggling s 2 ^^ toggling s 3) := by
  unfold tickPorts
  obtain ⟨a3, b3⟩ := toggles_tickPort (tickPort 2 (tickPort 1 (tickPort 0 s))) 3
  obtain ⟨a2, b2⟩ := toggles_tickPort (tickPort 1 (tickPort 0 s)) 2
  obtain ⟨a1, b1⟩ := toggles_tickPort (tickPort 0 s) 1
  obtain ⟨a0, b0⟩ := toggles_tickPort s 0
  rw [a3, a2, a1, a0, b3, b2, b1, b0]
  have h10 : toggling (tickPort 0 s) 1 = toggling s 1 := toggling_tickPort s (by decide)
  have h20 : toggling (tickPort 1 (tickPort 0 s)) 2 = toggling s 2 :=
    (toggling_tickPort _ (by decide)).trans (toggling_tickPort s (by decide))
  have h30 : toggling (tickPort 2 (tickPort 1 (tickPort 0 s))) 3 = toggling s 3 :=
    (toggling_tickPort _ (by decide)).trans ((toggling_tickPort _ (by decide)).trans (toggling_tickPort s (by decide)))
  rw [h10, h20, h30]
  exact ⟨rfl, rfl⟩

/-- After its turn `cur` is the port's number. -/
theorem cur_tickPort (i : Fin 4) : (tickPort i s).eng.cur = i := by
  rw [(tickPort_frame s i).eng]; rfl

/-! The tick's end. -/

/-- The interrupt controller's writes are recorded: its offsets are multiples of 4. -/
theorem ackTimer_eq (ag : Agent) :
    ackTimer ag s = { s with
      eng := { s.eng with timerPending := false }
      obs := { s.obs with trace := s.obs.trace ++ [⟨s.eng.tick, ag, .intc, s.plat.intcAckOff, s.eng.timerIrq⟩] } } := by
  have h : s.plat.intcAckOff % 4 = 0 := by simp [Platform.intcAckOff]
  simp [ackTimer, intcWrite32, h]

theorem disableTimer_eq (ag : Agent) :
    disableTimer ag s = { s with
      eng := { s.eng with timerEnabled := false }
      obs := { s.obs with trace := s.obs.trace ++ [⟨s.eng.tick, ag, .intc, s.plat.intcEnclrOff, s.eng.timerIrq⟩] } } := by
  have h : s.plat.intcEnclrOff % 4 = 0 := by simp [Platform.intcEnclrOff]
  simp [disableTimer, intcWrite32, h]

theorem enableTimer_eq (ag : Agent) :
    enableTimer ag s = { s with
      eng := { s.eng with timerEnabled := true }
      obs := { s.obs with trace := s.obs.trace ++ [⟨s.eng.tick, ag, .intc, s.plat.intcEnsetOff, s.eng.timerIrq⟩] } } := by
  have h : s.plat.intcEnsetOff % 4 = 0 := by simp [Platform.intcEnsetOff]
  simp [enableTimer, intcWrite32, h]

/-- The trace entries of the timer housekeeping (40_tick_dispatch.md R126, R127). -/
def timerEntries : List TraceEntry :=
  (if needsTicks s then [] else [⟨s.eng.tick, .tick, .intc, s.plat.intcEnclrOff, s.eng.timerIrq⟩])
    ++ [⟨s.eng.tick, .tick, .intc, s.plat.intcAckOff, s.eng.timerIrq⟩]

/-- The whole effect of the tick's end. -/
theorem tickEnd_eq :
    tickEnd s = edgeLatch { s with
      eng := { s.eng with timerEnabled := s.eng.timerEnabled && needsTicks s, timerPending := false }
      obs := { s.obs with trace := s.obs.trace ++ timerEntries s } } := by
  unfold tickEnd
  cases h : needsTicks s
  · simp [ackTimer_eq, disableTimer_eq, timerEntries, h]
  · simp [ackTimer_eq, timerEntries, h]

/-- The edge latch writes `status_pending` and draws `glitch_edge` (46_completion_service.md R216). -/
theorem edgeLatch_eq :
    edgeLatch s = { s with
      eng := { s.eng with statusPending :=
        if s.eng.toggles % 2 = 1 then true
        else if s.eng.toggles = 0 then s.eng.statusPending
        else s.eng.statusPending || Tape.value Config.glitchEdge s.draws.glitchEdge }
      draws := { s.draws with glitchEdge :=
        if s.eng.toggles % 2 = 0 ∧ s.eng.toggles ≠ 0 then s.draws.glitchEdge.advance else s.draws.glitchEdge } } := by
  unfold edgeLatch
  by_cases h1 : s.eng.toggles % 2 = 1
  · have : ¬ s.eng.toggles % 2 = 0 := by omega
    simp [h1]
  · by_cases h2 : s.eng.toggles = 0
    · rw [if_neg h1, if_pos h2, if_neg h1, if_pos h2, if_neg (by simp [h2])]
    · have : s.eng.toggles % 2 = 0 := by omega
      simp [h2, this]

theorem needsTicks_tickPort (i : Fin 4) : needsTicks (tickPort i s) = needsTicks s := by
  simp only [needsTicks, isActive_tickPort]

/-- Stepping the ports changes nothing in whether ticks are needed. -/
theorem needsTicks_tickPorts : needsTicks (tickPorts s) = needsTicks s := by
  simp only [tickPorts, needsTicks_tickPort]

end Sys2Proof.Machine
end

