-- ==== Sys2Proof/Laws/Commands.lean ====
section
/-! SUPPORT. The whole effect of each host command and of each companion step, as one equation each. -/

namespace Sys2Proof.Machine

variable {s : State}

/-- The whole effect of engine creation (70_reset_and_hazards.md R270). -/
theorem createEngine_eq :
    createEngine s = { s with
      eng := { initEngine s with tick := 0 }
      ports := Vector.replicate 4 Port.fresh
      gpio := gpioDirected s.plat.dirInBit (gpioLatched s.gpio s.plat.statusPin false) s.plat.statusPin true
      store := []
      comp := Companion.idle
      obs := { s.obs with trace := s.obs.trace ++
        [latchEntry .host s s.plat.statusPin false, dirEntry .host s s.plat.statusPin true] }
      draws := { s.draws with timerPendingAtInit := s.draws.timerPendingAtInit.advance } } := by
  unfold createEngine
  simp only [initEngine]
  rw [drive_eq]
  rfl

/-- The whole effect of INIT on an engine that is not ready. -/
theorem initStep_eq (h : s.eng.ready = false) :
    initStep s =
      let claimed := Tape.value Config.vectorClaim s.draws.vectorClaim
      { createEngine s with
        eng := { initEngine s with tick := 0, ready := claimed, vectorOwned := claimed }
        draws := { s.draws with
          timerPendingAtInit := s.draws.timerPendingAtInit.advance
          vectorClaim := s.draws.vectorClaim.advance }
        obs := { (createEngine s).obs with returns := s.obs.returns ++ [if claimed then .ok else .err .busy] } } := by
  have hc : (createEngine s).draws.vectorClaim = s.draws.vectorClaim := by rw [createEngine_eq]
  simp only [initStep, h, Bool.false_eq_true, if_false, hc]
  cases hv : Tape.value Config.vectorClaim s.draws.vectorClaim
  · simp [createEngine_eq, State.retErr, State.ret, initEngine]
  · simp [createEngine_eq, State.ret, initEngine]

/-- A port field below 4 names its port. -/
theorem portIndex_some {p : BitVec 4} {i : Fin 4} (h : p.toNat = i.val) : portIndex p = some i := by
  unfold portIndex
  have : p.toNat < 4 := by have := i.isLt; omega
  simp only [this, dif_pos]
  congr 1
  exact Fin.ext h
/-- A port field from 4 on names none (30_encoding.md R103). -/
theorem portIndex_none {p : BitVec 4} (h : 4 ≤ p.toNat) : portIndex p = none := by
  unfold portIndex
  rw [dif_neg (by omega)]

theorem portHasPin_iff {i : Fin 4} {q : BitVec 8} :
    portHasPin i q s = true ↔ s.isRequested i = true ∧ ((s.port i).sda = gpioPin q ∨ (s.port i).scl = gpioPin q) := by
  simp [portHasPin]

/-- Which pins REQ may not claim (45_port_lifecycle.md R194). -/
theorem pinFree_false_iff {q : BitVec 8} :
    pinFree q s = false ↔ s.plat.ngpio ≤ q.toNat ∨ q = s.plat.statusPin
      ∨ ∃ j : Fin 4, s.isRequested j = true ∧ ((s.port j).sda = gpioPin q ∨ (s.port j).scl = gpioPin q) := by
  have : (∃ j : Fin 4, s.isRequested j = true
      ∧ ((s.port j).sda = gpioPin q ∨ (s.port j).scl = gpioPin q)) ↔
         (portHasPin 0 q s || portHasPin 1 q s || portHasPin 2 q s || portHasPin 3 q s) = true := by
    simp only [← portHasPin_iff, Bool.or_eq_true]
    constructor
    · rintro ⟨j, hj⟩
      match j with
      | 0 => simp [hj]
      | 1 => simp [hj]
      | 2 => simp [hj]
      | 3 => simp [hj]
    · rintro (((h|h)|h)|h)
      exacts [⟨_, h⟩, ⟨_, h⟩, ⟨_, h⟩, ⟨_, h⟩]
  rw [this]
  simp only [pinFree]
  by_cases h1 : q.toNat < s.plat.ngpio
  · by_cases h2 : q = s.plat.statusPin
    · simp [h2]
    · have h3 : ¬ s.plat.ngpio ≤ q.toNat := by omega
      cases portHasPin 0 q s <;> cases portHasPin 1 q s <;> cases portHasPin 2 q s <;> cases portHasPin 3 q s <;>
        simp [h1, h2, h3]
  · simp [h1]; left; omega

/-- The message record XFER keeps of a message (45_port_lifecycle.md R203). -/
def msgRecOf (m : Msg) : MsgRec := ⟨m.addr.setWidth 7, m.rd, BitVec.ofNat 16 m.bytes.length⟩

/-- Host memory after slot `k` of port `i` is copied back (46_completion_service.md R217). -/
def copiedBack (i : Fin 4) (k : BitVec 1) (s : State) (m : Memory) : Memory :=
  if k.toNat < (s.port i).numMsg.toNat ∧ ((s.port i).msg k).rd = true then
    m.writeBytes ((s.port i).orig k) (s.store.bytes (storeAddr i k 0) ((s.port i).msg k).len.toNat)
  else m

/-- The copy-back of one slot: host memory only. -/
theorem copyBack_eq (i : Fin 4) (k : BitVec 1) {u : State} (hp : u.ports = s.ports) (hs : u.store = s.store) :
    (if k.toNat < (s.port i).numMsg.toNat then copyBack i k u else u)
      = { u with host := { u.host with mem := copiedBack i k s u.host.mem } } := by
  have e : u.port i = s.port i := State.port_congr hp i
  unfold copiedBack copyBack
  simp only [e, ← hs]
  by_cases h1 : k.toNat < (s.port i).numMsg.toNat
  · by_cases h2 : ((s.port i).msg k).rd = true
    · rw [if_pos h1, if_pos h2, if_pos ⟨h1, h2⟩]
    · rw [if_pos h1, if_neg h2, if_neg fun h => h2 h.2]
  · rw [if_neg h1, if_neg fun h => h1 h.1]

/-- The whole effect of the copy-back: host memory only. -/
theorem copyBackAll_eq (i : Fin 4) :
    copyBackAll i s = { s with host := { s.host with mem := copiedBack i 1 s (copiedBack i 0 s s.host.mem) } } := by
  have h0 := copyBack_eq (s := s) (u := s) i 0 rfl rfl
  have h1 := copyBack_eq (s := s) (u := { s with host := { s.host with mem := copiedBack i 0 s s.host.mem } }) i 1 rfl rfl
  rw [← h0] at h1
  exact h1.trans (by rw [h0])

/-- What the copy-back of one slot makes of a byte of host memory. -/
theorem read_copiedBack (i : Fin 4) (k : BitVec 1) {m : Memory} (hm : m.wf = true) (a : Nat) :
    (copiedBack i k s m).read a =
      if k.toNat < (s.port i).numMsg.toNat ∧ ((s.port i).msg k).rd = true ∧ (s.port i).orig k ≤ a
          ∧ a < (s.port i).orig k + ((s.port i).msg k).len.toNat then
        s.store.read (storeAddr i k (a - (s.port i).orig k))
      else m.read a := by
  unfold copiedBack
  by_cases h : k.toNat < (s.port i).numMsg.toNat ∧ ((s.port i).msg k).rd = true
  · rw [if_pos h, Memory.read_writeBytes hm]
    have hl : (s.store.bytes (storeAddr i k 0) ((s.port i).msg k).len.toNat).length = ((s.port i).msg k).len.toNat := by
      simp [Memory.bytes]
    rw [hl]
    by_cases h2 : (s.port i).orig k ≤ a ∧ a < (s.port i).orig k + ((s.port i).msg k).len.toNat
    · rw [if_pos h2, if_pos ⟨h.1, h.2, h2⟩]
      have h3 : a - (s.port i).orig k < ((s.port i).msg k).len.toNat := by omega
      have h4 : ∀ j, storeAddr i k 0 + j = storeAddr i k j := fun j => by unfold storeAddr; omega
      simp [Memory.bytes, List.getD_eq_getElem?_getD, h3, h4]
    · rw [if_neg h2, if_neg fun h' => h2 h'.2.2]
  · rw [if_neg h, if_neg fun h' => h ⟨h'.1, h'.2.1⟩]

theorem wf_copiedBack (i : Fin 4) (k : BitVec 1) {m : Memory} (hm : m.wf = true) : (copiedBack i k s m).wf = true := by
  unfold copiedBack
  split
  · exact Memory.wf_writeBytes hm _ _
  · exact hm

/-- The whole effect of the service of a requested port in COMPLETE. -/
theorem servicePort_complete {i : Fin 4} (hr : s.isRequested i = true) (hs : (s.port i).state = .complete) :
    servicePort i s = { s with
      eng := { s.eng with fiqMasked := false }
      ports := s.ports.set i { s.port i with state := .idle }
      comp := { s.comp with
        next := s.comp.next + 1
        pendingCb := some ⟨i, (s.port i).result, (s.port i).cb, (s.port i).ctx⟩ }
      host := { s.host with mem := copiedBack i 1 s (copiedBack i 0 s s.host.mem) } } := by
  have hc : ∀ k m, copiedBack i k { s with eng := { s.eng with fiqMasked := true } } m = copiedBack i k s m :=
    fun _ _ => rfl
  have hr' : State.isRequested { s with eng := { s.eng with fiqMasked := true } } i = true := hr
  have hs' : (State.port { s with eng := { s.eng with fiqMasked := true } } i).state = .complete := hs
  simp only [servicePort, hr', hs', copyBackAll_eq, hc]
  rfl

/-- The service of any other port only moves on. -/
theorem servicePort_other {i : Fin 4} (h : ¬(s.isRequested i = true ∧ (s.port i).state = .complete)) :
    servicePort i s = { s with
      eng := { s.eng with fiqMasked := false }
      comp := { s.comp with next := s.comp.next + 1 } } := by
  have hn : (State.isRequested { s with eng := { s.eng with fiqMasked := true } } i
      && (State.port { s with eng := { s.eng with fiqMasked := true } } i).state == .complete) = false := by
    rw [Bool.eq_false_iff]
    intro e
    rw [Bool.and_eq_true, beq_iff_eq] at e
    exact h e
  simp only [servicePort, hn]
  rfl

/-- The whole effect of XFER's commit with one message. -/
theorem commitXfer_one (i : Fin 4) (m : Msg) :
    commitXfer i [m] s = { s with
      eng := { s.eng with timerEnabled := true }
      ports := s.ports.set i { s.port i with
        msg0 := msgRecOf m, orig0 := s.host.pc + 8, numMsg := 1, cb := s.host.cb, ctx := s.host.ctx, state := .start }
      store := s.store.writeBytes (storeAddr i 0 0) m.bytes
      obs := { s.obs with
        trace := s.obs.trace ++ [⟨s.eng.tick, .host, .intc, s.plat.intcEnsetOff, s.eng.timerIrq⟩] } } := by
  simp only [commitXfer, copyMsgs, copyIn, enableTimer_eq]
  simp [State.setPort, State.port, msgRecOf, BitVec.setWidth_eq_extractLsb']

/-- The whole effect of XFER's commit with two messages. -/
theorem commitXfer_two (i : Fin 4) (m n : Msg) :
    commitXfer i [m, n] s = { s with
      eng := { s.eng with timerEnabled := true }
      ports := s.ports.set i { s.port i with
        msg0 := msgRecOf m, orig0 := s.host.pc + 8, msg1 := msgRecOf n
        orig1 := s.host.pc + 8 + (m.bytes.length + 4)
        numMsg := 2, cb := s.host.cb, ctx := s.host.ctx, state := .start }
      store := (s.store.writeBytes (storeAddr i 0 0) m.bytes).writeBytes (storeAddr i 1 0) n.bytes
      obs := { s.obs with
        trace := s.obs.trace ++ [⟨s.eng.tick, .host, .intc, s.plat.intcEnsetOff, s.eng.timerIrq⟩] } } := by
  simp only [commitXfer, copyMsgs, copyIn, enableTimer_eq]
  simp [State.setPort, State.port, msgRecOf, BitVec.setWidth_eq_extractLsb']
  have e : s.host.pc + 4 + 4 + m.bytes.length + 4 = s.host.pc + 8 + (m.bytes.length + 4) := by omega
  rw [e]

/-! What each command can do, said once. -/

theorem initStep_cases (s : State) :
    (s.eng.ready = true ∧ initStep s = s.refuse .reInit) ∨ s.eng.ready = false := by
  cases h : s.eng.ready
  · exact .inr rfl
  · exact .inl ⟨rfl, by simp [initStep, h]⟩

theorem reqStep_cases (s : State) (port : BitVec 4) (sda scl : BitVec 8) :
    (∃ k, reqStep port sda scl s = s.retErr k) ∨ reqStep port sda scl s = s.refuse .pinConflict
    ∨ ∃ i, port.toNat = i.val ∧ s.eng.ready = true ∧ s.isRequested i = false ∧ sda ≠ scl ∧ pinFree sda s = true
        ∧ pinFree scl s = true ∧ reqStep port sda scl s = requestHandler i sda scl s := by
  unfold reqStep
  split
  · exact .inl ⟨_, rfl⟩
  · rename_i hr
    by_cases hp : port.toNat < 4
    · rw [portIndex_some (i := ⟨port.toNat, hp⟩) rfl]
      simp only
      split
      · exact .inl ⟨_, rfl⟩
      · rename_i hq
        split
        · exact .inr (.inl rfl)
        · rename_i hc
          simp only [not_or, Bool.not_eq_false] at hc
          exact .inr (.inr ⟨⟨port.toNat, hp⟩, rfl, by simpa using hr, by simpa using hq, hc.1, hc.2.1, hc.2.2, rfl⟩)
    · rw [portIndex_none (Nat.le_of_not_lt hp)]
      exact .inl ⟨_, rfl⟩

theorem requestHandler_cases (i : Fin 4) (sda scl : BitVec 8) (s : State) :
    (∃ code, requestHandler i sda scl s
      = State.retErr (.resourceError code) { s with draws := { s.draws with irqRequest := s.draws.irqRequest.advance } })
    ∨ requestHandler i sda scl s
      = (commitReq i sda scl { s with draws := { s.draws with irqRequest := s.draws.irqRequest.advance } }).ret .ok := by
  unfold requestHandler
  cases h : Tape.value Config.irqRequest s.draws.irqRequest
  · exact .inr rfl
  · exact .inl ⟨_, rfl⟩

theorem relStep_cases (s : State) (port : BitVec 4) :
    relStep port s = s.refuse .releaseUnrequested
    ∨ ∃ i, port.toNat = i.val ∧ s.isRequested i = true
      ∧ (((s.port i).state = .idle ∧ relStep port s = commitRel i s)
        ∨ ((s.port i).state ≠ .idle ∧ relStep port s = { s with host := { s.host with held := s.host.held ++ [i] } })) := by
  unfold relStep
  by_cases hp : port.toNat < 4
  · rw [portIndex_some (i := ⟨port.toNat, hp⟩) rfl]
    simp only
    split
    · exact .inl rfl
    · rename_i hq
      refine .inr ⟨⟨port.toNat, hp⟩, rfl, by simpa using hq, ?_⟩
      split
      · rename_i h; exact .inl ⟨h, rfl⟩
      · rename_i h; exact .inr ⟨h, rfl⟩
  · rw [portIndex_none (Nat.le_of_not_lt hp)]
    exact .inl rfl

theorem xferStep_cases (s : State) (port : BitVec 4) (msgs : List Msg) :
    (∃ k, xferStep port msgs s = s.retErr k) ∨ xferStep port msgs s = s.refuse .badMessage
    ∨ ∃ i, port.toNat = i.val ∧ s.isRequested i = true ∧ (s.port i).state = .idle
      ∧ xferStep port msgs s = (commitXfer i msgs s).ret .ok
      ∧ ((∃ m, msgs = [m]) ∨ ∃ m n, msgs = [m, n]) := by
  unfold xferStep
  by_cases hp : port.toNat < 4
  · rw [portIndex_some (i := ⟨port.toNat, hp⟩) rfl]
    simp only
    split
    · exact .inl ⟨_, rfl⟩
    · rename_i hq
      split
      · exact .inl ⟨_, rfl⟩
      · rename_i hl
        split
        · exact .inr (.inl rfl)
        · split
          · exact .inl ⟨_, rfl⟩
          · rename_i hs
            refine .inr (.inr ⟨⟨port.toNat, hp⟩, rfl, by simpa using hq, by simpa using hs, rfl, ?_⟩)
            match msgs, hl with
            | [], hl => simp at hl
            | [m], _ => exact .inl ⟨m, rfl⟩
            | [m, n], _ => exact .inr ⟨m, n, rfl⟩
            | _ :: _ :: _ :: _, hl => simp [maxMsgs] at hl
  · rw [portIndex_none (Nat.le_of_not_lt hp)]
    exact .inl ⟨_, rfl⟩

theorem unloadStep_cases (s : State) :
    unloadStep s = s.refuse .unloadWhileInUse
    ∨ (s.eng.ready = true ∧ s.eng.requested = 0 ∧ unloadStep s = { s with
        eng := { s.eng with timerEnabled := false, ready := false, vectorOwned := false }
        obs := { s.obs with trace := s.obs.trace ++
          [⟨s.eng.tick, .host, .intc, s.plat.intcEnclrOff, s.eng.timerIrq⟩] } }) := by
  unfold unloadStep
  split
  · exact .inl rfl
  · rename_i h
    simp only [not_or, Bool.not_eq_false, ne_eq, not_not] at h
    exact .inr ⟨h.1, h.2, by rw [disableTimer_eq]⟩

/-- The companion's service. -/
theorem companionService_cases (s : State) :
    (∃ i : Fin 4, s.comp.next = i.val ∧ s.isRequested i = true ∧ (s.port i).state = .complete
      ∧ companionService s = { s with
        eng := { s.eng with fiqMasked := false }
        ports := s.ports.set i { s.port i with state := .idle }
        comp := { s.comp with
          next := s.comp.next + 1
          pendingCb := some ⟨i, (s.port i).result, (s.port i).cb, (s.port i).ctx⟩ }
        host := { s.host with mem := copiedBack i 1 s (copiedBack i 0 s s.host.mem) } })
    ∨ (s.comp.next < 4 ∧ companionService s = { s with
        eng := { s.eng with fiqMasked := false }
        comp := { s.comp with next := s.comp.next + 1 } })
    ∨ (4 ≤ s.comp.next ∧ companionService s = endScan s) := by
  unfold companionService
  split
  · rename_i h
    by_cases hc : s.isRequested ⟨s.comp.next, h⟩ = true ∧ (s.port ⟨s.comp.next, h⟩).state = .complete
    · exact .inl ⟨⟨s.comp.next, h⟩, rfl, hc.1, hc.2, servicePort_complete hc.1 hc.2⟩
    · exact .inr (.inl ⟨h, servicePort_other hc⟩)
  · rename_i h
    exact .inr (.inr ⟨Nat.le_of_not_lt h, rfl⟩)

/-- A tick's effect outside the engine, the draws and the observation is that of its turns. -/
theorem tickStep_shape (s : State) :
    ∃ g e o, tickStep s = { tickPorts (tickBegin s) with eng := g, draws := e, obs := o } := by
  unfold tickStep
  rw [tickEnd_eq, edgeLatch_eq]
  exact ⟨_, _, _, rfl⟩

/-- What giving up a port does to the requested bits and to the ports (45_port_lifecycle.md R205). -/
theorem commitRel_ports (s : State) (i : Fin 4) :
    (∀ j, (commitRel i s).isRequested j = (s.isRequested j && !decide (i = j)))
    ∧ (∀ j, i ≠ j → (commitRel i s).port j = s.port j)
    ∧ (commitRel i s).port i = { s.port i with requested := false } := by
  refine ⟨fun j => ?_, fun j hj => State.port_setPort_ne s hj _, State.port_setPort_self s i _⟩
  simp only [commitRel, State.isRequested, State.ret_eng, getLsbD_clear_portBit]
  rfl

/-- What REQ's commit does to the requested bits and to the ports (45_port_lifecycle.md R190). -/
theorem commitReq_ports (s : State) (i : Fin 4) (sda scl : BitVec 8) :
    (∀ j, (commitReq i sda scl s).isRequested j = (s.isRequested j || decide (i = j)))
    ∧ (∀ j, i ≠ j → (commitReq i sda scl s).port j = s.port j)
    ∧ (commitReq i sda scl s).port i
      = { s.port i with sda := gpioPin sda, scl := gpioPin scl, requested := true } := by
  refine ⟨fun j => ?_, fun j hj => State.port_setPort_ne s hj _, State.port_setPort_self s i _⟩
  simp only [commitReq, State.isRequested, getLsbD_or_portBit]
  rfl

/-- A word of the command stream other than TICK and SIRQ is one of the five commands. -/
theorem command_cases {i : Instr} (h : i.format = .cmd) (ht : i ≠ .tick) (hs : i ≠ .sirq) :
    i = .init ∨ (∃ p a b, i = .req p a b) ∨ (∃ p, i = .rel p) ∨ (∃ p ms, i = .xfer p ms) ∨ i = .unload := by
  cases i <;> simp_all [Instr.format]

end Sys2Proof.Machine
end

