-- ==== Sys2Proof/Laws/Encoding.lean ====
section
/-! SUPPORT. The laws of the encoding: what the decoder reads back of the words, the message descriptors and the command
words that the encoder writes. -/

namespace Sys2Proof

/-- The word read back. -/
theorem wordAt_wordToBytes (w : Word) (rest : List Byte) : wordAt (listSource (wordToBytes w ++ rest)) 0 = w := by
  have : ∀ i, i < 4 → listSource (wordToBytes w ++ rest) i = w.extractLsb' (8 * i) 8 := by
    intro i hi
    interval_cases i <;> simp [listSource, wordToBytes]
  simp only [wordAt, Nat.zero_add]
  rw [this 0 (by omega), this 1 (by omega), this 2 (by omega), this 3 (by omega)]
  apply BitVec.eq_of_getLsbD_eq
  intro j hj
  simp only [BitVec.getLsbD_append, BitVec.getLsbD_extractLsb']
  split <;> [skip; split <;> [skip; split]]
  · simp; omega
  · simp
    have : j - 8 < 8 := by omega
    have e : 8 + (j - 8) = j := by omega
    simp [this, e]
  · have : j - 8 - 8 < 8 := by omega
    have e : 8 * 2 + (j - 8 - 8) = j := by omega
    simp [this, e]
  · have : j - 8 - 8 - 8 < 8 := by omega
    have e : 8 * 3 + (j - 8 - 8 - 8) = j := by omega
    simp [this, e]

/-- A field is 0 exactly when its bits are. -/
theorem extract_zero (w : Word) (a k : Nat) : w.extractLsb' a k = 0 ↔ ∀ j, j < k → w.getLsbD (a + j) = false := by
  constructor
  · intro h j hj
    have := congrArg (fun v => v.getLsbD j) h
    simpa [BitVec.getLsbD_extractLsb', hj] using this
  · intro h
    apply BitVec.eq_of_getLsbD_eq
    intro j hj
    simp [hj, h j hj]

/-- A field is 0 exactly when its two parts are. -/
theorem extract_zero_append (w : Word) (a m n : Nat) :
    w.extractLsb' a (m + n) = 0 ↔ w.extractLsb' a m = 0 ∧ w.extractLsb' (a + m) n = 0 := by
  simp only [extract_zero]
  constructor
  · intro h
    refine ⟨fun j hj => h j (by omega), fun j hj => ?_⟩
    have := h (m + j) (by omega)
    rwa [← Nat.add_assoc] at this
  · rintro ⟨h1, h2⟩ j hj
    by_cases hm : j < m
    · exact h1 j hm
    · have := h2 (j - m) (by omega)
      have e : a + m + (j - m) = a + j := by omega
      rwa [e] at this

/-- What is read of a list after the bytes before it. -/
theorem listSource_shift (pre l : List Byte) (i : Nat) : listSource (pre ++ l) (pre.length + i) = listSource l i := by
  simp [listSource, List.getD_eq_getElem?_getD, List.getElem?_append_right]

theorem wordAt_shift (pre l : List Byte) : wordAt (listSource (pre ++ l)) pre.length = wordAt (listSource l) 0 := by
  have h0 := listSource_shift pre l 0
  simp only [Nat.add_zero] at h0
  simp only [wordAt, listSource_shift, h0, Nat.zero_add]

/-- The fields of a message descriptor (30_encoding.md R98). -/
theorem msgWord_fields (m : Msg) (h : m.wf = true) :
    ((msgWord m).extractLsb' 0 7).zeroExtend 8 = m.addr ∧ (msgWord m).getLsbD 7 = m.rd
    ∧ (msgWord m).extractLsb' 24 8 = m.rsvd ∧ ((msgWord m).extractLsb' 8 16).toNat = m.bytes.length := by
  simp only [Msg.wf, Bool.and_eq_true, decide_eq_true_eq] at h
  obtain ⟨ha, hl⟩ := h
  have hg : ∀ j, (msgWord m).getLsbD j = if j < 7 then m.addr.getLsbD j else if j < 8 then m.rd
      else if j < 24 then (BitVec.ofNat 16 m.bytes.length).getLsbD (j - 8) else m.rsvd.getLsbD (j - 24) := by
    intro j
    simp only [msgWord, BitVec.getLsbD_append, BitVec.getLsbD_extractLsb', BitVec.getLsbD_ofBool]
    by_cases h7 : j < 7
    · simp [h7]
    · by_cases h8 : j < 8
      · have : j = 7 := by omega
        subst this; simp
      · by_cases h24 : j < 24
        · have e1 : ¬ (j - 7 < 1) := by omega
          have e2 : j - 8 < 16 := by omega
          have e3 : j - 7 - 1 = j - 8 := by omega
          simp only [h7, h8, h24, e1, e2, if_false, if_true, e3]
        · have e1 : ¬ (j - 7 < 1) := by omega
          have e2 : ¬ (j - 7 - 1 < 16) := by omega
          have e3 : j - 7 - 1 - 16 = j - 24 := by omega
          simp only [h7, h8, h24, e1, e2, if_false, e3]
  refine ⟨?_, ?_, ?_, ?_⟩
  · apply BitVec.eq_of_getLsbD_eq
    intro j hj
    simp only [BitVec.truncate_eq_setWidth, BitVec.getLsbD_setWidth, BitVec.getLsbD_extractLsb', hg]
    by_cases h7 : j < 7
    · simp [hj, h7]
    · have : j = 7 := by omega
      subst this
      have : m.addr.getLsbD 7 = false := by
        rw [BitVec.getLsbD, Nat.testBit_lt_two_pow (by omega)]
      rw [this]; simp
  · rw [hg]; simp
  · apply BitVec.eq_of_getLsbD_eq
    intro j hj
    rw [BitVec.getLsbD_extractLsb', hg]
    have e1 : ¬ (24 + j < 7) := by omega
    have e2 : ¬ (24 + j < 8) := by omega
    have e3 : ¬ (24 + j < 24) := by omega
    simp only [hj, decide_true, Bool.true_and, e1, e2, e3, if_false, Nat.add_sub_cancel_left]
  · have : (msgWord m).extractLsb' 8 16 = BitVec.ofNat 16 m.bytes.length := by
      apply BitVec.eq_of_getLsbD_eq
      intro j hj
      rw [BitVec.getLsbD_extractLsb', hg]
      have e1 : ¬ (8 + j < 7) := by omega
      have e2 : ¬ (8 + j < 8) := by omega
      have e3 : (8 + j < 24) := by omega
      simp only [hj, decide_true, Bool.true_and, e1, e2, e3, if_false, if_true, Nat.add_sub_cancel_left]
    rw [this, BitVec.toNat_ofNat]
    omega

/-- The messages read back, wherever they lie in the stream (30_encoding.md R104). -/
theorem decodeMsgs_encode (pre : List Byte) (msgs : List Msg) (rest : List Byte) (h : msgs.all Msg.wf = true) :
    decodeMsgs (listSource (pre ++ (msgs.flatMap encodeMsg ++ rest))) msgs.length pre.length
      = (msgs, pre.length + (msgs.flatMap encodeMsg).length) := by
  induction msgs generalizing pre with
  | nil => simp [decodeMsgs]
  | cons m ms ih =>
    simp only [List.all_cons, Bool.and_eq_true] at h
    obtain ⟨hm, hms⟩ := h
    obtain ⟨f1, f2, f3, f4⟩ := msgWord_fields m hm
    have hsrc : pre ++ ((m :: ms).flatMap encodeMsg ++ rest)
        = (pre ++ wordToBytes (msgWord m) ++ m.bytes) ++ (ms.flatMap encodeMsg ++ rest) := by
      simp [encodeMsg, List.append_assoc]
    have hw : wordAt (listSource (pre ++ ((m :: ms).flatMap encodeMsg ++ rest))) pre.length = msgWord m := by
      rw [wordAt_shift]
      simp only [List.flatMap_cons, encodeMsg, List.append_assoc]
      exact wordAt_wordToBytes _ _
    have hl : (pre ++ wordToBytes (msgWord m) ++ m.bytes).length = pre.length + 4 + m.bytes.length := by
      simp [wordToBytes]; omega
    have := ih (pre ++ wordToBytes (msgWord m) ++ m.bytes) hms
    rw [← hsrc, hl] at this
    simp only [List.length_cons, decodeMsgs, hw, f1, f2, f3, f4, this]
    refine Prod.ext ?_ ?_
    · simp only [List.cons.injEq, and_true]
      have hb : (List.range m.bytes.length).map (fun j =>
          listSource (pre ++ ((m :: ms).flatMap encodeMsg ++ rest)) (pre.length + 4 + j)) = m.bytes := by
        apply List.ext_getElem
        · simp
        · intro j h1 h2
          simp only [List.getElem_map, List.getElem_range]
          have e : pre ++ ((m :: ms).flatMap encodeMsg ++ rest)
              = (pre ++ wordToBytes (msgWord m)) ++ (m.bytes ++ (ms.flatMap encodeMsg ++ rest)) := by
            rw [hsrc]; simp [List.append_assoc]
          have el : pre.length + 4 = (pre ++ wordToBytes (msgWord m)).length := by simp [wordToBytes]
          rw [e, el, listSource_shift]
          simp only [listSource, List.getD_eq_getElem?_getD, List.getElem?_append_left h2, List.getElem?_eq_getElem h2,
            Option.getD_some]
      rw [hb]
    · simp [encodeMsg, wordToBytes]; omega

/-- The fields of a command word (30_encoding.md R99). -/
theorem cmdWord_fields (op port : BitVec 4) (a b : BitVec 8) :
    (cmdWord op port a b).extractLsb' 0 4 = op ∧ (cmdWord op port a b).extractLsb' 4 4 = port
    ∧ (cmdWord op port a b).extractLsb' 8 8 = a ∧ (cmdWord op port a b).extractLsb' 16 8 = b
    ∧ (cmdWord op port a b).extractLsb' 24 8 = 0 ∧ (cmdWord op port a b).extractLsb' 8 2 = a.extractLsb' 0 2
    ∧ (cmdWord op port a b).extractLsb' 10 6 = a.extractLsb' 2 6 := by
  refine ⟨?_, ?_, ?_, ?_, ?_, ?_, ?_⟩ <;> apply BitVec.eq_of_getLsbD_eq <;> intro j hj <;>
    simp only [cmdWord, BitVec.getLsbD_append, BitVec.getLsbD_extractLsb', hj, decide_true, Bool.true_and]
  · simp [hj]
  · have e1 : ¬ (4 + j < 4) := by omega
    simp [e1, hj]
  · have e1 : ¬ (8 + j < 4) := by omega
    have e2 : ¬ (8 + j - 4 < 4) := by omega
    have e3 : (8 + j - 4 - 4) = j := by omega
    simp [e1, e2, e3, hj]
  · have e1 : ¬ (16 + j < 4) := by omega
    have e2 : ¬ (16 + j - 4 < 4) := by omega
    have e3 : ¬ (16 + j - 4 - 4 < 8) := by omega
    have e4 : (16 + j - 4 - 4 - 8) = j := by omega
    simp only [e1, e2, e3, if_false, e4, hj, if_true]
  · have e1 : ¬ (24 + j < 4) := by omega
    have e2 : ¬ (24 + j - 4 < 4) := by omega
    have e3 : ¬ (24 + j - 4 - 4 < 8) := by omega
    have e4 : ¬ (24 + j - 4 - 4 - 8 < 8) := by omega
    simp only [e1, e2, e3, e4, if_false]; simp
  · have e1 : ¬ (8 + j < 4) := by omega
    have e2 : ¬ (8 + j - 4 < 4) := by omega
    have e3 : (8 + j - 4 - 4) = j := by omega
    have e4 : j < 8 := by omega
    simp [e1, e2, e3, e4]
  · have e1 : ¬ (10 + j < 4) := by omega
    have e2 : ¬ (10 + j - 4 < 4) := by omega
    have e3 : (10 + j - 4 - 4) = 2 + j := by omega
    have e4 : 2 + j < 8 := by omega
    simp [e1, e2, e3, e4]

end Sys2Proof
end

