-- ==== Sys2Proof/Laws/Ended.lean ====
section
/-! SUPPORT. The laws of the end of a run (70_reset_and_hazards.md R296), of the environment's events, and of 10_state.md R34
as it is written. -/

namespace Sys2Proof.Machine

variable {s : State}

/-- The invariant of a port gives R34 as it is written, but for START's clause on `cur_msg` (assumption 20). -/
theorem PortInv.r34 {i : Fin 4} (h : PortInv s i)
    (hs : (s.port i).state = .start → (s.port i).curMsg.toNat < (s.port i).numMsg.toNat) : PortR34 s i := by
  obtain ⟨ha, hb, hn, hc, hd, he, hf, hg, -⟩ := h
  refine ⟨ha, hb, fun hi => ⟨hn hi, ?_⟩, fun hm => ?_, fun hm => he ?_, hf, hg⟩
  · by_cases hst : (s.port i).state = .start
    · exact hs hst
    · exact hc hi hst
  · simp only [List.mem_cons, List.not_mem_nil, or_false] at hm hd he
    have lt := fun h => BitVec.le_of_lt (he h)
    rcases hm with hm | hm | hm | hm | hm | hm | hm
    · exact lt (.inl hm)
    · exact lt (.inr (.inl hm))
    · exact hd (.inl hm)
    · exact lt (.inr (.inr (.inl hm)))
    · exact hd (.inr (.inl hm))
    · exact hd (.inr (.inr hm))
    · exact lt (.inr (.inr (.inr hm)))
  · simp only [List.mem_cons, List.not_mem_nil, or_false] at hm ⊢
    rcases hm with hm | hm <;> simp [hm]

/-! The end of a run. -/

/-- The stream is at its end exactly when its next address is not below its limit. -/
theorem nextWord_none : nextWord s = none ↔ s.host.limit ≤ s.host.pc := by
  unfold nextWord
  split <;> simp <;> omega

/-- With every requested port IDLE no port is active. -/
theorem isActive_of_idle (h : ∀ i, s.isRequested i = true → (s.port i).state = .idle) (i : Fin 4) : s.isActive i = false := by
  unfold State.isActive
  cases hr : s.isRequested i
  · rfl
  · simp [h i hr]

/-- What holds from the end of a run on, while a spurious SIRQ and its scans may still pass. -/
structure Over (s : State) : Prop where
  stream : s.host.limit ≤ s.host.pc
  held : s.host.held = []
  idle : ∀ i, s.isRequested i = true → (s.port i).state = .idle
  noCallback : s.comp.pendingCb = none
  timerOff : s.eng.timerEnabled = false

theorem Ended.over (h : Ended s) : Over s :=
  ⟨nextWord_none.1 h.1.1.1, h.1.1.2, h.1.2.1, h.1.2.2.2, h.2⟩

/-- What the end of a run keeps: the observation, the ports, the GPIO words, the message store and the marks. -/
structure Final (s t : State) : Prop where
  obs : t.obs = s.obs
  ports : t.ports = s.ports
  gpio : t.gpio = s.gpio
  store : t.store = s.store
  refused : t.refused = s.refused
  faults : t.faults = s.faults

theorem Final.refl (s : State) : Final s s := ⟨rfl, rfl, rfl, rfl, rfl, rfl⟩

theorem Final.trans {t u : State} (h : Final s t) (k : Final t u) : Final s u :=
  ⟨k.obs.trans h.obs, k.ports.trans h.ports, k.gpio.trans h.gpio, k.store.trans h.store, k.refused.trans h.refused,
    k.faults.trans h.faults⟩

/-- A service after the end of the run finds no port in COMPLETE (46_completion_service.md R219). -/
theorem servicePort_over (h : Over s) (i : Fin 4) :
    servicePort i s = { s with
      eng := { s.eng with fiqMasked := false }
      comp := { s.comp with next := s.comp.next + 1 } } :=
  servicePort_other fun ⟨hr, hc⟩ => by rw [h.idle i hr] at hc; cases hc

/-- An agent's turn after the end of the run. -/
theorem agentStep_over (h : Over s) : ∃ t, agentStep s = .next t ∧ Over t ∧ Final s t := by
  have hd : tickDeliverable s = false := by simp [tickDeliverable, h.timerOff]
  unfold agentStep
  simp only [hd, Bool.false_eq_true, if_false, h.noCallback]
  split
  · refine ⟨_, rfl, ?_⟩
    unfold companionService
    split
    · rw [servicePort_over h]
      exact ⟨⟨h.stream, h.held, h.idle, h.noCallback, h.timerOff⟩, rfl, rfl, rfl, rfl, rfl, rfl⟩
    · unfold endScan
      split <;> exact ⟨⟨h.stream, h.held, h.idle, h.noCallback, h.timerOff⟩, rfl, rfl, rfl, rfl, rfl, rfl⟩
  · have hr : heldReady s = none := by simp [heldReady, h.held]
    simp only [streamStep, nextWord_none.2 h.stream]
    split
    · exact ⟨_, exec_eq _ _, ⟨h.stream, h.held, h.idle, h.noCallback, h.timerOff⟩, rfl, rfl, rfl, rfl, rfl, rfl⟩
    · simp only [hr, idleOrFire, h.timerOff, Bool.and_false, Bool.false_and, Bool.false_eq_true, if_false]
      exact ⟨s, rfl, h, Final.refl s⟩

/-- An environment event after the end of the run. -/
theorem applyEnv_over (h : Over s) (e : EnvEvent) : Over (applyEnv e s) ∧ Final s (applyEnv e s) := by
  have same : ∀ t : State, t.host.pc = s.host.pc → t.host.limit = s.host.limit → t.host.held = s.host.held →
      t.eng.requested = s.eng.requested → t.ports = s.ports → t.comp = s.comp → t.eng.timerEnabled = s.eng.timerEnabled →
      t.obs = s.obs → t.gpio = s.gpio → t.store = s.store → t.refused = s.refused → t.faults = s.faults →
      Over t ∧ Final s t := by
    intro t h1 h2 h3 h4 h5 h6 h7 h8 h9 ha hb hc
    refine ⟨⟨by rw [h1, h2]; exact h.stream, h3.trans h.held, fun i hr => ?_, by rw [h6]; exact h.noCallback,
      h7.trans h.timerOff⟩, h8, h5, h9, ha, hb, hc⟩
    have := h.idle i (by simpa [State.isRequested, h4] using hr)
    simpa [State.port, h5] using this
  cases e <;> simp only [applyEnv, timerFire] <;> (try split) <;>
    exact same _ rfl rfl rfl rfl rfl rfl rfl rfl rfl rfl rfl rfl

/-- A step after the end of the run (R296): whatever the environment does, the observation is final. -/
theorem step_over (h : Over s) : ∃ t, step s = .next t ∧ Over t ∧ Final s t := by
  have used : ∀ rest, Over { s with env := rest } := fun rest => ⟨h.stream, h.held, h.idle, h.noCallback, h.timerOff⟩
  have kept : ∀ rest, Final s { s with env := rest } := fun rest => ⟨rfl, rfl, rfl, rfl, rfl, rfl⟩
  unfold step stepOf
  split
  · exact agentStep_over h
  · rename_i rest _
    obtain ⟨t, ht, ho, hf⟩ := agentStep_over (used rest)
    exact ⟨t, ht, ho, (kept rest).trans hf⟩
  · rename_i e rest _ _
    obtain ⟨ho, hf⟩ := applyEnv_over (used rest) e
    exact ⟨_, rfl, ho, (kept rest).trans hf⟩

/-- Any number of steps after the end of the run. -/
theorem stepTimes_over (h : Over s) (n : Nat) : ∃ t, stepTimes n s = .next t ∧ Over t ∧ Final s t := by
  induction n generalizing s with
  | zero => exact ⟨s, rfl, h, Final.refl s⟩
  | succ n ih =>
    obtain ⟨t, ht, ho, hf⟩ := step_over h
    obtain ⟨u, hu, ho', hf'⟩ := ih ho
    exact ⟨u, by simp only [stepTimes, ht, hu], ho', hf.trans hf'⟩

/-- The turns of a tick in which no port is active. -/
theorem tickPorts_idle (h : ∀ i, s.isActive i = false) : tickPorts s = { s with eng.cur := 3 } := by
  have skip : ∀ (t : State) (i : Fin 4), (∀ j, t.isActive j = false) →
      tickPort i t = { t with eng.cur := i } ∧ ∀ j, (tickPort i t).isActive j = false := by
    intro t i ht
    rw [tickPort_skip (ht i)]
    exact ⟨rfl, ht⟩
  obtain ⟨e0, h0⟩ := skip s 0 h
  obtain ⟨e1, h1⟩ := skip _ 1 h0
  obtain ⟨e2, h2⟩ := skip _ 2 h1
  obtain ⟨e3, -⟩ := skip _ 3 h2
  rw [tickPorts, e3, e2, e1, e0]

/-- The last tick of a run (R296(d)): it disables the timer line and acknowledges it, and nothing more. -/
theorem tickStep_last (h : ∀ i, s.isActive i = false) :
    tickStep s = { s with
      eng := { s.eng with tick := s.eng.tick + 1, toggles := 0, cur := 3, timerEnabled := false, timerPending := false }
      obs := { s.obs with trace := s.obs.trace ++
        [⟨s.eng.tick + 1, .tick, .intc, s.plat.intcEnclrOff, s.eng.timerIrq⟩,
          ⟨s.eng.tick + 1, .tick, .intc, s.plat.intcAckOff, s.eng.timerIrq⟩] } } := by
  have hb : ∀ i, (tickBegin s).isActive i = false := h
  have hn : needsTicks { tickBegin s with eng.cur := 3 } = false := by
    simp only [needsTicks]
    simp [show ∀ i, State.isActive { tickBegin s with eng.cur := 3 } i = false from h]
  rw [tickStep, tickPorts_idle hb, tickEnd, hn]
  simp only [Bool.false_eq_true, if_false, disableTimer_eq, ackTimer_eq, edgeLatch, tickBegin]
  simp

end Sys2Proof.Machine
end

