-- ==== Sys2Proof/Laws/Independent.lean ====
section
/-! SUPPORT. The ports are independent: which pins a PortStep can touch (`portStep_pins`), and that what it does to its own port
does not depend on anything else (`portStep_view`). -/

namespace Sys2Proof.Machine

/-! The pins a step of port `i` can touch. -/

/-- From a state in which port `i` has SDA on `d` and SCL on `c`, and the status pin is `n`, a step that keeps these and touches
the three pins only. -/
def PinFrame (i : Fin 4) (d c n : BitVec 8) (s t : State) : Prop :=
  PortPins s i d c → s.eng.statusPin = gpioPin n →
    PortPins t i d c ∧ t.eng.statusPin = gpioPin n ∧ PinsKept s t [d, c, n]

theorem PinFrame.refl (i : Fin 4) (d c n : BitVec 8) (s : State) : PinFrame i d c n s s :=
  fun h k => ⟨h, k, fun _ _ => ⟨rfl, rfl⟩⟩

theorem PinFrame.trans {i : Fin 4} {d c n : BitVec 8} {s t u : State} (h : PinFrame i d c n s t)
    (k : PinFrame i d c n t u) : PinFrame i d c n s u := fun hp hn => by
  obtain ⟨h1, h2, h3⟩ := h hp hn
  obtain ⟨k1, k2, k3⟩ := k h1 h2
  exact ⟨k1, k2, fun m hm => ⟨(k3 m hm).1.trans (h3 m hm).1, (k3 m hm).2.trans (h3 m hm).2⟩⟩

variable {i : Fin 4} {d c n : BitVec 8} {s t : State}

/-- A write of the port's record that keeps its pins. -/
theorem PinFrame.thenSet (h : PinFrame i d c n s t) (p : Port) (hd : p.sda = (t.port i).sda := by simp)
    (hc : p.scl = (t.port i).scl := by simp) : PinFrame i d c n s (t.setPort i p) := h.trans fun hp hn =>
  ⟨hp.of_port (by simp [hd]) (by simp [hc]), hn, fun _ _ => ⟨rfl, rfl⟩⟩

theorem PinFrame.goto (h : PinFrame i d c n s t) (st : SeqState) : PinFrame i d c n s (goto i st t) :=
  h.thenSet _

theorem PinFrame.sdaDrive (h : PinFrame i d c n s t) (v : Bool) : PinFrame i d c n s (sdaDrive i v t) :=
  h.trans fun hp hn => ⟨hp.of_port (by simp) (by simp), by simpa using hn, fun m hm => by
    simp only [List.mem_cons, List.not_mem_nil, or_false, not_or] at hm
    simp [PinKept, pinOutput_sdaDrive hp.1, pinLatch_sdaDrive hp.1, hm]⟩

theorem PinFrame.sclDrive (h : PinFrame i d c n s t) (v : Bool) : PinFrame i d c n s (sclDrive i v t) :=
  h.trans fun hp hn => ⟨hp.of_port (by simp) (by simp), by simpa using hn, fun m hm => by
    simp only [List.mem_cons, List.not_mem_nil, or_false, not_or] at hm
    simp [PinKept, pinOutput_sclDrive hp.2.1, pinLatch_sclDrive hp.2.1, hm]⟩

theorem PinFrame.sdaRelease (h : PinFrame i d c n s t) : PinFrame i d c n s (sdaRelease i t) :=
  h.trans fun hp hn => ⟨hp.of_port (by simp) (by simp), by simpa using hn, fun m hm => by
    simp only [List.mem_cons, List.not_mem_nil, or_false, not_or] at hm
    simp [PinKept, pinOutput_sdaRelease hp.1, pinLatch_sdaRelease hp.1, hm]⟩

theorem PinFrame.clockGen (h : PinFrame i d c n s t) : PinFrame i d c n s (clockGen i t) :=
  (h.thenSet { t.port i with phase := !(t.port i).phase }).sclDrive _

theorem PinFrame.noteSample (h : PinFrame i d c n s t) : PinFrame i d c n s (noteSample i t) :=
  h.trans fun hp hn => ⟨hp.of_port (by simp) (by simp), by simpa using hn, fun m _ => by simp [PinKept]⟩

theorem PinFrame.noteBufRead (h : PinFrame i d c n s t) (k : BitVec 1) (j : BitVec 16) :
    PinFrame i d c n s (noteBufRead i k j t) :=
  h.trans fun hp hn => ⟨hp.of_port (by simp) (by simp), by simpa using hn, fun m _ => by simp [PinKept]⟩

theorem PinFrame.bufWrite (h : PinFrame i d c n s t) (k : BitVec 1) (j : BitVec 16) (b : Byte) :
    PinFrame i d c n s (bufWrite i k j b t) :=
  h.trans fun hp hn => ⟨hp.of_port (by simp) (by simp), by simpa using hn, fun m _ => by simp [PinKept]⟩

theorem wbitAction_pins (h : PinFrame i d c n s t) : PinFrame i d c n s (wbitAction i t) := by
  unfold wbitAction
  simp only
  split
  · exact (h.sdaDrive _).thenSet _
  · split
    · exact h.goto _
    · exact h

theorem txSetup_pins (h : PinFrame i d c n s t) : PinFrame i d c n s (txSetup i t) :=
  wbitAction_pins (h.thenSet _)

theorem rbitAction_pins (h : PinFrame i d c n s t) : PinFrame i d c n s (rbitAction i t) := by
  unfold rbitAction
  simp only
  split
  · exact h
  · split
    · exact ((h.noteSample.thenSet _).bufWrite _ _ _).thenSet _
    · exact h.noteSample.thenSet _

theorem statusToggle_pins (h : PinFrame i d c n s t) : PinFrame i d c n s (statusToggle t) :=
  h.trans fun hp hn => ⟨hp.of_port (by simp) (by simp), by simpa [statusToggle_eng] using hn, fun m hm => by
    simp only [List.mem_cons, List.not_mem_nil, or_false, not_or] at hm
    have hl := statusToggle_lines hn m
    rw [if_neg hm.2.2] at hl
    exact hl⟩

/-- A PortStep touches the port's SDA and SCL and the status pin, and no other pin. -/
theorem portStep_pins (i : Fin 4) (d c n : BitVec 8) (s : State) : PinFrame i d c n s (portStep i s) := by
  have h := PinFrame.refl i d c n s
  unfold portStep
  split
  · exact h
  · exact h.thenSet _
  · exact (h.sdaDrive _).thenSet _
  · exact txSetup_pins (h.clockGen.thenSet _)
  · exact txSetup_pins ((h.clockGen.noteBufRead _ _).thenSet _)
  · exact rbitAction_pins (h.clockGen.sdaRelease.thenSet _)
  · exact wbitAction_pins h.clockGen
  · exact rbitAction_pins h.clockGen
  · unfold wackStep
    simp only
    split
    · exact h.clockGen.sdaDrive _
    · split
      · exact h.clockGen.thenSet _
      · exact h.clockGen.goto _
  · unfold rackStep
    simp only
    split
    · exact h.clockGen.sdaRelease
    · split
      · split
        · exact h.clockGen.noteSample.thenSet _
        · exact h.clockGen.noteSample.goto _
      · exact h.clockGen.noteSample.thenSet _
  · unfold stopStep
    simp only
    split
    · exact h.clockGen.sdaDrive _
    · exact (h.clockGen.sdaDrive _).goto _
  · unfold stop2Step
    simp only
    split
    · exact ((h.thenSet _).sclDrive _).goto _
    · exact h.goto _
  · exact h.sdaRelease.goto _
  · exact (h.sclDrive _).goto _
  · exact h.thenSet _
  · exact statusToggle_pins h

/-! What a PortStep does to its own port. -/

/-- Two states that agree in everything of port `i`: its record, its draws, its part of the message store and its pins. -/
structure SameView (i : Fin 4) (d c : BitVec 8) (s t : State) : Prop where
  plat : t.plat = s.plat
  port : t.port i = s.port i
  bus : t.draws.bus[i] = s.draws.bus[i]
  wf : s.store.wf = true ∧ t.store.wf = true
  store : ∀ k j, j < 65536 → t.store.read (storeAddr i k j) = s.store.read (storeAddr i k j)
  pins : PortPins s i d c
  sda : PinKept s t d
  scl : PinKept s t c

theorem SameView.thenSet (h : SameView i d c s t) (p : Port) (hd : p.sda = (s.port i).sda := by simp)
    (hc : p.scl = (s.port i).scl := by simp) : SameView i d c (s.setPort i p) (t.setPort i p) :=
  { plat := h.plat, port := by simp, bus := h.bus, wf := h.wf, store := h.store
    pins := h.pins.of_port (by simp [hd]) (by simp [hc]), sda := h.sda, scl := h.scl }

theorem SameView.goto (h : SameView i d c s t) (st : SeqState) :
    SameView i d c (goto i st s) (goto i st t) := by
  unfold Machine.goto
  rw [h.port]
  exact h.thenSet _

theorem SameView.pins_right (h : SameView i d c s t) : PortPins t i d c := h.pins.of_port (by rw [h.port]) (by rw [h.port])

theorem SameView.sdaDrive (h : SameView i d c s t) (v : Bool) : SameView i d c (sdaDrive i v s) (sdaDrive i v t) where
  plat := by simpa using h.plat
  port := by simpa using h.port
  bus := by simpa using h.bus
  wf := by simpa using h.wf
  store := by simpa using h.store
  pins := h.pins.of_port (by simp) (by simp)
  sda := by simp [PinKept, pinOutput_sdaDrive h.pins.1, pinLatch_sdaDrive h.pins.1, pinOutput_sdaDrive h.pins_right.1,
    pinLatch_sdaDrive h.pins_right.1]
  scl := by
    simp [PinKept, pinOutput_sdaDrive h.pins.1, pinLatch_sdaDrive h.pins.1, pinOutput_sdaDrive h.pins_right.1,
      pinLatch_sdaDrive h.pins_right.1, h.scl.1, h.scl.2]

theorem SameView.sclDrive (h : SameView i d c s t) (v : Bool) : SameView i d c (sclDrive i v s) (sclDrive i v t) where
  plat := by simpa using h.plat
  port := by simpa using h.port
  bus := by simpa using h.bus
  wf := by simpa using h.wf
  store := by simpa using h.store
  pins := h.pins.of_port (by simp) (by simp)
  sda := by
    simp [PinKept, pinOutput_sclDrive h.pins.2.1, pinLatch_sclDrive h.pins.2.1, pinOutput_sclDrive h.pins_right.2.1,
      pinLatch_sclDrive h.pins_right.2.1, h.sda.1, h.sda.2]
  scl := by simp [PinKept, pinOutput_sclDrive h.pins.2.1, pinLatch_sclDrive h.pins.2.1,
    pinOutput_sclDrive h.pins_right.2.1, pinLatch_sclDrive h.pins_right.2.1]

theorem SameView.sdaRelease (h : SameView i d c s t) : SameView i d c (sdaRelease i s) (sdaRelease i t) where
  plat := by simpa using h.plat
  port := by simpa using h.port
  bus := by simpa using h.bus
  wf := by simpa using h.wf
  store := by simpa using h.store
  pins := h.pins.of_port (by simp) (by simp)
  sda := by
    simp [PinKept, pinOutput_sdaRelease h.pins.1, pinLatch_sdaRelease h.pins.1, pinOutput_sdaRelease h.pins_right.1,
      pinLatch_sdaRelease h.pins_right.1, h.sda.2]
  scl := by
    simp [PinKept, pinOutput_sdaRelease h.pins.1, pinLatch_sdaRelease h.pins.1, pinOutput_sdaRelease h.pins_right.1,
      pinLatch_sdaRelease h.pins_right.1, h.scl.1, h.scl.2]

theorem SameView.clockGen (h : SameView i d c s t) : SameView i d c (clockGen i s) (clockGen i t) := by
  unfold Machine.clockGen
  simp only [h.port]
  exact (h.thenSet _).sclDrive _

/-- The sample itself. -/
theorem SameView.sampleBit (h : SameView i d c s t) : sampleBit i t = sampleBit i s := by
  rw [sampleBit_eq t i d h.pins_right.1, sampleBit_eq s i d h.pins.1, sdaLine, sdaLine, h.sda.1, h.sda.2, busBit, busBit,
    h.bus]

theorem SameView.noteSample (h : SameView i d c s t) : SameView i d c (noteSample i s) (noteSample i t) := by
  rw [noteSample_eq s i d h.pins.1, noteSample_eq t i d h.pins_right.1]
  exact { plat := h.plat, port := h.port, bus := by simp [h.bus], wf := h.wf, store := h.store, pins := h.pins
          sda := h.sda, scl := h.scl }

/-- The byte read from the message store. -/
theorem SameView.bufRead (h : SameView i d c s t) (k : BitVec 1) (j : BitVec 16) : bufRead i k j t = bufRead i k j s := by
  unfold Machine.bufRead
  rw [h.port, h.store k j.toNat j.isLt]

theorem SameView.fault (h : SameView i d c s t) (f : Fault) : SameView i d c (s.fault f) (t.fault f) :=
  { plat := h.plat, port := h.port, bus := h.bus, wf := h.wf, store := h.store, pins := h.pins, sda := h.sda, scl := h.scl }

theorem SameView.noteBufRead (h : SameView i d c s t) (k : BitVec 1) (j : BitVec 16) :
    SameView i d c (noteBufRead i k j s) (noteBufRead i k j t) := by
  unfold Machine.noteBufRead
  rw [h.port]
  split
  · exact h
  · exact h.fault _

theorem SameView.bufWrite (h : SameView i d c s t) (k : BitVec 1) (j : BitVec 16) (b : Byte) :
    SameView i d c (bufWrite i k j b s) (bufWrite i k j b t) := by
  unfold Machine.bufWrite
  rw [h.port]
  split
  · exact { plat := h.plat, port := h.port, bus := h.bus, pins := h.pins, sda := h.sda, scl := h.scl
            wf := ⟨Memory.wf_write h.wf.1 _ _, Memory.wf_write h.wf.2 _ _⟩
            store := fun k' j' hj => by
              simp only [Memory.read_write h.wf.1, Memory.read_write h.wf.2, h.store k' j' hj] }
  · exact h.fault _

theorem wbitAction_view (h : SameView i d c s t) : SameView i d c (wbitAction i s) (wbitAction i t) := by
  unfold wbitAction
  simp only [h.port, port_sdaDrive]
  split
  · exact (h.sdaDrive _).thenSet _
  · split
    · exact h.goto _
    · exact h

theorem txSetup_view (h : SameView i d c s t) : SameView i d c (txSetup i s) (txSetup i t) := by
  unfold txSetup
  rw [h.port]
  exact wbitAction_view (h.thenSet _)

theorem rbitAction_view (h : SameView i d c s t) : SameView i d c (rbitAction i s) (rbitAction i t) := by
  unfold rbitAction
  simp only [h.port, h.sampleBit, port_noteSample]
  split
  · exact h
  · have h2 := h.noteSample.thenSet { s.port i with
      dataByte := if sampleBit i s then (s.port i).dataByte ||| (s.port i).bitMask else (s.port i).dataByte
      bitMask := (s.port i).bitMask >>> 1 }
    split
    · have h3 := h2.bufWrite (s.port i).curMsg (s.port i).bufOffset
        (if sampleBit i s then (s.port i).dataByte ||| (s.port i).bitMask else (s.port i).dataByte)
      rw [h3.port]
      exact h3.thenSet _
    · exact h2

/-- From states that agree in port `i`, whose pins are not the status pin, a step of port `i` goes to states that agree in
it. -/
theorem portStep_view (h : SameView i d c s t) (hn : s.eng.statusPin = gpioPin n) (hn' : t.eng.statusPin = gpioPin n)
    (hnd : d ≠ n) (hnc : c ≠ n) : SameView i d c (portStep i s) (portStep i t) := by
  unfold portStep
  rw [h.port]
  split
  · exact h
  · unfold startStep
    rw [h.port]
    exact h.thenSet _
  · unfold start2Step
    simp only [h.port, port_sdaDrive]
    exact (h.sdaDrive _).thenSet _
  · unfold addrStep
    simp only [h.port, h.clockGen.port]
    exact txSetup_view (h.clockGen.thenSet _)
  · unfold writeStep
    have h2 := h.clockGen.noteBufRead ((clockGen i s).port i).curMsg ((clockGen i s).port i).bufOffset
    simp only [h.clockGen.port, h.clockGen.bufRead, h2.port]
    exact txSetup_view (h2.thenSet _)
  · unfold readStep
    have h2 := h.clockGen.sdaRelease
    simp only [h2.port]
    exact rbitAction_view (h2.thenSet _)
  · exact wbitAction_view h.clockGen
  · exact rbitAction_view h.clockGen
  · unfold wackStep
    simp only [h.port, h.clockGen.port]
    split
    · exact h.clockGen.sdaDrive _
    · split
      · exact h.clockGen.thenSet _
      · exact h.clockGen.goto _
  · unfold rackStep
    simp only [h.port, h.clockGen.port, h.clockGen.sampleBit, h.clockGen.noteSample.port]
    split
    · exact h.clockGen.sdaRelease
    · split
      · split
        · exact h.clockGen.noteSample.thenSet _
        · exact h.clockGen.noteSample.goto _
      · have e : (Machine.noteSample i (Machine.clockGen i t)).plat = (Machine.noteSample i (Machine.clockGen i s)).plat :=
          h.clockGen.noteSample.plat
        rw [e]
        exact h.clockGen.noteSample.thenSet _
  · unfold stopStep
    simp only [h.clockGen.port]
    split
    · exact h.clockGen.sdaDrive _
    · exact (h.clockGen.sdaDrive _).goto _
  · unfold stop2Step
    simp only [h.port]
    split
    · exact ((h.thenSet _).sclDrive _).goto _
    · exact h.goto _
  · exact h.sdaRelease.goto _
  · exact (h.sclDrive _).goto _
  · unfold waitStep
    rw [h.port]
    exact h.thenSet _
  · have hs := fun m => statusToggle_lines hn m
    have ht := fun m => statusToggle_lines hn' m
    exact { plat := by simpa [completeStep] using h.plat, port := by simpa [completeStep] using h.port
            bus := by simpa [completeStep] using h.bus, wf := by simpa [completeStep] using h.wf
            store := by simpa [completeStep] using h.store
            pins := h.pins.of_port (by simp [completeStep]) (by simp [completeStep])
            sda := by simp [completeStep, PinKept, hs d, ht d, hnd, h.sda.1, h.sda.2]
            scl := by simp [completeStep, PinKept, hs c, ht c, hnc, h.scl.1, h.scl.2] }

/-- Two ports' parts of the message store are apart (20_memory.md R60(3)). -/
theorem storeAddr_ne {i j : Fin 4} (h : i ≠ j) {k k' : BitVec 1} {b b' : Nat} (hb : b < 65536) (hb' : b' < 65536) :
    storeAddr i k b ≠ storeAddr j k' b' := by
  intro e
  apply h
  apply Fin.ext
  unfold storeAddr at e
  have := k.isLt
  have := k'.isLt
  omega

/-- A step of another port leaves a port's view alone, given that the pins are apart. -/
theorem SameView.other (h : SameView i d c s t) {j : Fin 4} {d' c' : BitVec 8} (hj : i ≠ j) (hp : PortPins t j d' c')
    (hn : t.eng.statusPin = gpioPin n) (hd : d ≠ d' ∧ d ≠ c' ∧ d ≠ n) (hc : c ≠ d' ∧ c ≠ c' ∧ c ≠ n) :
    SameView i d c s (portStep j t) := by
  have hf := portStep_frame j t
  obtain ⟨-, -, hk⟩ := portStep_pins j d' c' n t hp hn
  have hkd := hk d (by simpa using hd)
  have hkc := hk c (by simpa using hc)
  exact {
    plat := hf.plat.trans h.plat
    port := (hf.ports i hj).trans h.port
    bus := (hf.bus i hj).trans h.bus
    wf := ⟨h.wf.1, hf.wf h.wf.2⟩
    store := fun k b hb => by
      rw [hf.store h.wf.2, h.store k b hb]
      exact fun k' b' hb' => storeAddr_ne hj hb hb'
    pins := h.pins
    sda := ⟨hkd.1.trans h.sda.1, hkd.2.trans h.sda.2⟩
    scl := ⟨hkc.1.trans h.scl.1, hkc.2.trans h.scl.2⟩ }

/-! The turns of a tick. -/

/-- What the turns of a tick leave of the configuration: pins, requested bits, status pin, platform. -/
structure SameConfig (s t : State) : Prop where
  pins : ∀ j, (t.port j).sda = (s.port j).sda ∧ (t.port j).scl = (s.port j).scl
  requested : t.eng.requested = s.eng.requested
  statusPin : t.eng.statusPin = s.eng.statusPin
  ready : t.eng.ready = s.eng.ready
  plat : t.plat = s.plat

theorem SameConfig.refl (s : State) : SameConfig s s := ⟨fun _ => ⟨rfl, rfl⟩, rfl, rfl, rfl, rfl⟩

theorem SameConfig.turn (h : SameConfig s t) (j : Fin 4) : SameConfig s (tickPort j t) := by
  have hf := tickPort_frame t j
  refine ⟨fun k => ?_, (requested_tickPort t j).trans h.requested, ?_, ?_, hf.plat.trans h.plat⟩
  · by_cases hk : k = j
    · subst hk
      exact ⟨hf.config.1.trans (h.pins k).1, hf.config.2.1.trans (h.pins k).2⟩
    · rw [hf.ports k hk]
      exact h.pins k
  · rw [hf.eng]
    exact h.statusPin
  · rw [hf.eng]
    exact h.ready

theorem SameConfig.portPins (h : SameConfig s t) {j : Fin 4} (hp : PortPins s j d c) : PortPins t j d c :=
  hp.of_port (h.pins j).1 (h.pins j).2

/-- The invariant of the pins follows the configuration. -/
theorem SameConfig.pinsInv (h : SameConfig s t) (hi : PinsInv s) : PinsInv t := by
  have hp : ∀ j d c, PortPins t j d c ↔ PortPins s j d c := fun j d c => by
    simp only [PortPins, (h.pins j).1, (h.pins j).2]
  simpa only [PinsInv, hp, State.isRequested, h.requested, h.statusPin, h.ready, h.plat] using hi

theorem SameView.cur {s₀ : State} (h : SameView i d c s₀ t) (j : Fin 4) :
    SameView i d c s₀ { t with eng := { t.eng with cur := j } } :=
  ⟨h.plat, h.port, h.bus, h.wf, h.store, h.pins, h.sda, h.scl⟩

/-- Of an active port the engine is ready (a consequence of the pins' invariant). -/
theorem PinsInv.ready (hi : PinsInv s) (hr : s.isRequested i = true) : s.eng.ready = true := by
  cases h : s.eng.ready
  · simp [State.isRequested, hi.2.2.2 h] at hr
  · rfl

/-- The turn of another port leaves the view of a requested port alone. -/
theorem SameView.turn {s₀ : State} (h : SameView i d c s₀ t) (hi : PinsInv t) (hq : t.isRequested i = true)
    (hpi : PortPins t i d c) {j : Fin 4} (hj : i ≠ j) : SameView i d c s₀ (tickPort j t) := by
  cases ha : t.isActive j
  · rw [tickPort_skip ha]
    exact h.cur j
  · rw [tickPort_active ha]
    have hrj : t.isRequested j = true := by
      simp only [State.isActive, Bool.and_eq_true] at ha
      exact ha.1
    obtain ⟨d', c', hp', hd', hc'⟩ := hi.1 j hrj
    obtain ⟨d2, c2, hp2, hd2, hc2⟩ := hi.1 i hq
    obtain rfl : d2 = d := gpioPin_injective (hp2.1.symm.trans hpi.1)
    obtain rfl : c2 = c := gpioPin_injective (hp2.2.1.symm.trans hpi.2.1)
    have ap := hi.2.2.1 i j d2 c2 d' c' hj hq hrj hpi hp'
    exact SameView.other (t := { t with eng := { t.eng with cur := j } }) (n := t.plat.statusPin) (h.cur j) hj
      (d' := d') (c' := c') hp' (hi.2.1 (hi.ready hrj)) ⟨ap.1, ap.2.1, hd2⟩ ⟨ap.2.2.1, ap.2.2.2, hc2⟩

/-- The turn of an active port does to its view what a step of that port alone does. -/
theorem SameView.ownTurn (h : SameView i d c s t) (hi : PinsInv s) (hc : SameConfig s t) (ha : s.isActive i = true)
    (hpi : PortPins s i d c) :
    SameView i d c (portStep i { s with eng := { s.eng with cur := i } }) (tickPort i t) := by
  have hr : s.isRequested i = true := by
    simp only [State.isActive, Bool.and_eq_true] at ha
    exact ha.1
  have hat : t.isActive i = true := by
    simpa only [State.isActive, State.isRequested, hc.requested, h.port] using ha
  obtain ⟨d2, c2, hp2, hd2, hc2⟩ := hi.1 i hr
  obtain rfl : d2 = d := gpioPin_injective (hp2.1.symm.trans hpi.1)
  obtain rfl : c2 = c := gpioPin_injective (hp2.2.1.symm.trans hpi.2.1)
  have hst := hi.2.1 (hi.ready hr)
  rw [tickPort_active hat]
  have h' : SameView i d2 c2 { s with eng := { s.eng with cur := i } } { t with eng := { t.eng with cur := i } } :=
    ⟨h.plat, h.port, h.bus, h.wf, h.store, h.pins, h.sda, h.scl⟩
  exact portStep_view h' (n := s.plat.statusPin) hst (hc.statusPin.trans hst) hd2 hc2

/-- The tick's end touches no port, no pin, no byte of the message store and no draw of a bus. -/
theorem tickEnd_view (t : State) :
    (tickEnd t).plat = t.plat ∧ (tickEnd t).ports = t.ports ∧ (tickEnd t).gpio = t.gpio ∧ (tickEnd t).store = t.store
    ∧ (tickEnd t).draws.bus = t.draws.bus ∧ (tickEnd t).eng.requested = t.eng.requested
    ∧ (tickEnd t).eng.statusPin = t.eng.statusPin ∧ (tickEnd t).eng.ready = t.eng.ready := by
  rw [tickEnd_eq, edgeLatch_eq]
  exact ⟨rfl, rfl, rfl, rfl, rfl, rfl, rfl, rfl⟩

/-- The turns of ports in a row. -/
def turns (js : List (Fin 4)) (t : State) : State := js.foldl (fun t j => tickPort j t) t

theorem SameConfig.turns (h : SameConfig s t) (js : List (Fin 4)) : SameConfig s (turns js t) := by
  induction js generalizing t with
  | nil => exact h
  | cons j js ih => exact ih (h.turn j)

/-- The turns of other ports leave the view of a requested port alone. -/
theorem SameView.turns {s₀ : State} (js : List (Fin 4)) (hj : i ∉ js) (hi : PinsInv t) (hq : t.isRequested i = true)
    (hpi : PortPins t i d c) (h : SameView i d c s₀ t) : SameView i d c s₀ (turns js t) := by
  induction js generalizing t with
  | nil => exact h
  | cons j js ih =>
    simp only [List.mem_cons, not_or] at hj
    have hc := (SameConfig.refl t).turn j
    exact ih hj.2 (hc.pinsInv hi) (by rw [isRequested_tickPort]; exact hq) (hc.portPins hpi) (h.turn hi hq hpi hj.1)

/-- A tick runs the turns before a port's own, its own, and those after it. -/
theorem tickPorts_split (i : Fin 4) :
    ∃ before after, i ∉ before ∧ i ∉ after ∧ ∀ t, tickPorts t = turns after (tickPort i (turns before t)) := by
  match i with
  | 0 => exact ⟨[], [1, 2, 3], by decide, by decide, fun _ => rfl⟩
  | 1 => exact ⟨[0], [2, 3], by decide, by decide, fun _ => rfl⟩
  | 2 => exact ⟨[0, 1], [3], by decide, by decide, fun _ => rfl⟩
  | 3 => exact ⟨[0, 1, 2], [], by decide, by decide, fun _ => rfl⟩

/-- Any turn leaves a port that is not active alone. -/
theorem tickPort_inactive (j : Fin 4) (hw : t.store.wf = true) (ha : t.isActive i = false) :
    (tickPort j t).port i = t.port i ∧ (tickPort j t).draws.bus[i] = t.draws.bus[i]
    ∧ ∀ k b, b < 65536 → (tickPort j t).store.read (storeAddr i k b) = t.store.read (storeAddr i k b) := by
  by_cases hj : i = j
  · subst hj
    have e := tickPort_skip ha
    have hd : (tickPort i t).draws = t.draws := (congrArg State.draws e).trans rfl
    have hs : (tickPort i t).store = t.store := (congrArg State.store e).trans rfl
    exact ⟨State.port_congr (congrArg State.ports e) i, congrArg (fun v : Draws => v.bus[i]) hd,
      fun k b _ => congrArg (fun m : Memory => m.read (storeAddr i k b)) hs⟩
  · have hf := tickPort_frame t j
    exact ⟨hf.ports i hj, hf.bus i hj, fun k b hb => hf.store hw _ fun k' b' hb' => storeAddr_ne hj hb hb'⟩

/-- The turns of a tick leave a port that is not active alone, whatever its pins. -/
theorem turns_inactive (js : List (Fin 4)) (hw : t.store.wf = true) (ha : t.isActive i = false) :
    (turns js t).port i = t.port i ∧ (turns js t).draws.bus[i] = t.draws.bus[i]
    ∧ ∀ k b, b < 65536 → (turns js t).store.read (storeAddr i k b) = t.store.read (storeAddr i k b) := by
  induction js generalizing t with
  | nil => exact ⟨rfl, rfl, fun _ _ _ => rfl⟩
  | cons j js ih =>
    obtain ⟨h1, h2, h3⟩ := tickPort_inactive j hw ha
    obtain ⟨i1, i2, i3⟩ := ih (t := tickPort j t) ((tickPort_frame t j).wf hw) ((isActive_tickPort t j i).trans ha)
    exact ⟨i1.trans h1, i2.trans h2, fun k b hb => (i3 k b hb).trans (h3 k b hb)⟩

/-- A tick leaves a port that is not active alone, whatever its pins. -/
theorem tickStep_inactive (hw : s.store.wf = true) (ha : s.isActive i = false) :
    (tickStep s).port i = s.port i ∧ (tickStep s).draws.bus[i] = s.draws.bus[i]
    ∧ ∀ k b, b < 65536 → (tickStep s).store.read (storeAddr i k b) = s.store.read (storeAddr i k b) := by
  obtain ⟨h1, h2, h4⟩ := turns_inactive [0, 1, 2, 3] (t := tickBegin s) hw ha
  obtain ⟨-, e2, -, e4, e5, -⟩ := tickEnd_view (turns [0, 1, 2, 3] (tickBegin s))
  exact ⟨(State.port_congr e2 i).trans h1, (congrArg (fun v : Vector (Tape Bool) 4 => v[i]) e5).trans h2,
    fun k b hb => (congrArg (fun m : Memory => m.read (storeAddr i k b)) e4).trans (h4 k b hb)⟩

theorem SameView.tickEnd {s₀ : State} (h : SameView i d c s₀ t) : SameView i d c s₀ (tickEnd t) := by
  obtain ⟨e1, e2, e3, e4, e5, -, -, -⟩ := tickEnd_view t
  exact { plat := e1.trans h.plat, port := (State.port_congr e2 i).trans h.port, bus := by rw [e5]; exact h.bus
          wf := by rw [e4]; exact h.wf, store := by rw [e4]; exact h.store, pins := h.pins
          sda := by simpa only [PinKept, pinOutput, pinLatch, e1, e3] using h.sda
          scl := by simpa only [PinKept, pinOutput, pinLatch, e1, e3] using h.scl }

theorem SameConfig.tickBegin (s : State) : SameConfig s (tickBegin s) := ⟨fun _ => ⟨rfl, rfl⟩, rfl, rfl, rfl, rfl⟩

/-- A tick leaves the configuration alone. -/
theorem tickStep_config (s : State) : SameConfig s (tickStep s) := by
  have h := (SameConfig.tickBegin s).turns [0, 1, 2, 3]
  obtain ⟨a, b, -, -, -, c, d, e⟩ := tickEnd_view (Machine.turns [0, 1, 2, 3] (Machine.tickBegin s))
  refine ⟨fun j => ?_, c.trans h.requested, d.trans h.statusPin, e.trans h.ready, a.trans h.plat⟩
  have hp := State.port_congr b j
  have hj := h.pins j
  rw [← hp] at hj
  exact hj

theorem SameView.tickBegin (hw : s.store.wf = true) (hp : PortPins s i d c) : SameView i d c s (tickBegin s) :=
  ⟨rfl, rfl, rfl, ⟨hw, hw⟩, fun _ _ _ => rfl, hp, ⟨rfl, rfl⟩, ⟨rfl, rfl⟩⟩

theorem SameConfig.isRequested (h : SameConfig s t) (i : Fin 4) : t.isRequested i = s.isRequested i := by
  simp only [State.isRequested, h.requested]

/-- In a tick an active port of a state whose pins are apart steps as if alone. -/
theorem tickStep_active (hi : PinsInv s) (hw : s.store.wf = true) (ha : s.isActive i = true) (hp : PortPins s i d c) :
    SameView i d c (portStep i { s with eng := { s.eng with cur := i } }) (tickStep s) := by
  have hr : s.isRequested i = true := by
    simp only [State.isActive, Bool.and_eq_true] at ha
    exact ha.1
  obtain ⟨before, after, hb, haf, e⟩ := tickPorts_split i
  have c0 := SameConfig.tickBegin s
  have c1 := c0.turns before
  have v1 := (SameView.tickBegin hw hp).turns before hb (c0.pinsInv hi) ((c0.isRequested i).trans hr) (c0.portPins hp)
  have c2 := c1.turn i
  have v2 := v1.ownTurn hi c1 ha hp
  have v3 := v2.turns after haf (c2.pinsInv hi) ((c2.isRequested i).trans hr) (c2.portPins hp)
  unfold tickStep
  rw [e]
  exact v3.tickEnd

/-- In a tick a requested port that is IDLE keeps its view. -/
theorem tickStep_idle (hi : PinsInv s) (hw : s.store.wf = true) (hr : s.isRequested i = true)
    (ha : s.isActive i = false) (hp : PortPins s i d c) : SameView i d c s (tickStep s) := by
  obtain ⟨before, after, hb, haf, e⟩ := tickPorts_split i
  have c0 := SameConfig.tickBegin s
  have c1 := c0.turns before
  have v1 := (SameView.tickBegin hw hp).turns before hb (c0.pinsInv hi) ((c0.isRequested i).trans hr) (c0.portPins hp)
  have c2 := c1.turn i
  have v2 : SameView i d c s (tickPort i (Machine.turns before (Machine.tickBegin s))) := by
    rw [tickPort_skip]
    · exact v1.cur i
    · simpa only [State.isActive, c1.isRequested, v1.port] using ha
  have v3 := v2.turns after haf (c2.pinsInv hi) ((c2.isRequested i).trans hr) (c2.portPins hp)
  unfold tickStep
  rw [e]
  exact v3.tickEnd

end Sys2Proof.Machine
end

