-- ==== Sys2Proof/Laws/PerInstr.lean ====
section
/-! SUPPORT. One statement for every instruction: the code that its first byte carries is the one spec/opcode_table.json gives
its row (30_encoding.md R96, R100). -/

namespace Sys2Proof.Laws.Opcode

/-- The code of each row in spec/opcode_table.json. -/
def tableCode : Instr → BitVec 4
  | .idle => 0x0
  | .start => 0x1
  | .start2 => 0x2
  | .addr => 0x3
  | .write => 0x4
  | .read => 0x5
  | .wbit => 0x6
  | .rbit => 0x7
  | .wack => 0x8
  | .rack => 0x9
  | .stop => 0xA
  | .stop2 => 0xB
  | .stop3 => 0xC
  | .restart => 0xD
  | .wait => 0xE
  | .complete => 0xF
  | .init => 0x1
  | .req _ _ _ => 0x2
  | .rel _ => 0x3
  | .xfer _ _ => 0x4
  | .unload => 0x5
  | .tick => 0x8
  | .sirq => 0x9

/-- The encoding of the instruction is not empty, and the low 4 bits of its first byte are the row's code. -/
def Statement (i : Instr) : Prop := ∃ b bs, encode i = b :: bs ∧ b.extractLsb' 0 4 = tableCode i

/-- The low 4 bits of a command word's first byte are its op. -/
theorem cmdWord_op (op port : BitVec 4) (a b : BitVec 8) :
    ((cmdWord op port a b).extractLsb' 0 8).extractLsb' 0 4 = op := by
  apply BitVec.eq_of_getLsbD_eq
  intro j hj
  have h8 : j < 8 := by omega
  simp only [cmdWord, BitVec.getLsbD_extractLsb', BitVec.getLsbD_append, hj, h8, Nat.zero_add, decide_true,
    Bool.true_and, if_true]

theorem idle : Statement .idle := ⟨_, _, rfl, by decide⟩
theorem start : Statement .start := ⟨_, _, rfl, by decide⟩
theorem start2 : Statement .start2 := ⟨_, _, rfl, by decide⟩
theorem addr : Statement .addr := ⟨_, _, rfl, by decide⟩
theorem write : Statement .write := ⟨_, _, rfl, by decide⟩
theorem read : Statement .read := ⟨_, _, rfl, by decide⟩
theorem wbit : Statement .wbit := ⟨_, _, rfl, by decide⟩
theorem rbit : Statement .rbit := ⟨_, _, rfl, by decide⟩
theorem wack : Statement .wack := ⟨_, _, rfl, by decide⟩
theorem rack : Statement .rack := ⟨_, _, rfl, by decide⟩
theorem stop : Statement .stop := ⟨_, _, rfl, by decide⟩
theorem stop2 : Statement .stop2 := ⟨_, _, rfl, by decide⟩
theorem stop3 : Statement .stop3 := ⟨_, _, rfl, by decide⟩
theorem restart : Statement .restart := ⟨_, _, rfl, by decide⟩
theorem wait : Statement .wait := ⟨_, _, rfl, by decide⟩
theorem complete : Statement .complete := ⟨_, _, rfl, by decide⟩
theorem init : Statement .init := ⟨_, _, rfl, cmdWord_op 1 0 0 0⟩
theorem req (port : BitVec 4) (sda scl : BitVec 8) : Statement (.req port sda scl) := ⟨_, _, rfl, cmdWord_op 2 port sda scl⟩
theorem rel (port : BitVec 4) : Statement (.rel port) := ⟨_, _, rfl, cmdWord_op 3 port 0 0⟩
theorem xfer (port : BitVec 4) (msgs : List Msg) : Statement (.xfer port msgs) :=
  ⟨_, _, rfl, cmdWord_op 4 port (BitVec.ofNat 8 msgs.length) 0⟩
theorem unload : Statement .unload := ⟨_, _, rfl, cmdWord_op 5 0 0 0⟩
theorem tick : Statement .tick := ⟨_, _, rfl, cmdWord_op 8 0 0 0⟩
theorem sirq : Statement .sirq := ⟨_, _, rfl, cmdWord_op 9 0 0 0⟩

end Sys2Proof.Laws.Opcode
end

