-- ==== Sys2Proof/Tests/Slice0.lean ====
section
/-! SUPPORT. Tests. Expected values are those of spec/95_test_vectors.md; each theorem's comment names the vector. Then, for
every statement of the certificate that has hypotheses, a state and operands that meet them (`witness_…`). -/

namespace Sys2Proof.Tests

open Sys2Proof.Machine

/-! The illustrative platform of the vectors (section 0): DIR_IN_BIT 1, STATUS_PIN 5, MAX_MSG_LEN 65535, NGPIO 144. -/

def plat : Platform where
  ngpioPred := 143
  gpioBase := 0x1000
  intcBase := 0x2000
  intcAck := 9
  intcEnset := 10
  intcEnclr := 11
  timerIrq := 21
  statusPin := 5
  statusIrq := 58
  dirInBit := 1
  maxMsgLen := 0xFFFF
  noackPred := 5
  tickPeriodPred := 0
  engineYields := true

/-- INIT_LINES of the vectors: every pin an input, every latch 0. -/
def lines : Gpio := ⟨Vector.replicate 8 0xFFFFFFFF, Vector.replicate 8 0⟩

/-- The unloaded state. -/
def unloaded : State := State.unloaded plat lines

/-- A requested port on SDA 2 and SCL 3 with one message. -/
def port (st : SeqState) (phase rd : Bool) (len : BitVec 16) : Port :=
  { Port.fresh with
    state := st, sda := gpioPin 2, scl := gpioPin 3, numMsg := 1, phase := phase, msg0 := ⟨0x50, rd, len⟩
    requested := true }

/-- A ready engine with port 0 in the given record and no other port requested. -/
def ready (p : Port) : State :=
  { unloaded with
    eng := { Engine.unloaded with
      ready := true, requested := 1, statusAssoc := 1, timerEnabled := true, vectorOwned := true
      statusPin := gpioPin 5, timerIrq := 21 }
    ports := unloaded.ports.set 0 p }

/-- The next draws of `bus_bit` of port 0. -/
def withBits (bs : List Bool) (s : State) : State := { s with draws := { s.draws with bus := s.draws.bus.set 0 ⟨bs, 0⟩ } }

/-- The bytes of port 0's message in the engine. -/
def withBuf (bs : List Byte) (s : State) : State := { s with store := s.store.writeBytes 0 bs }

/-- A pin's drive: none for an input. -/
def pin (s : State) (n : BitVec 8) : Option Bool := if pinOutput s n then some (pinLatch s n) else none

/-- A pin made an output at a level. -/
def driven (n : BitVec 8) (v : Bool) (s : State) : State := drive .tick (gpioPin n) v s

/-- The next state, if there is one. -/
def next? : Result → Option State
  | .next t => some t
  | .fault _ => none
  | .refused _ => none

/-- What a test reads of the next state of an instruction. -/
def reads {α : Type} (i : Instr) (s : State) (f : State → α) : Option α := (next? (exec i s)).map f

/-- State, phase, SCL and SDA of port 0. -/
def look (t : State) : SeqState × Bool × Option Bool × Option Bool :=
  ((t.port 0).state, (t.port 0).phase, pin t 3, pin t 2)

/-- Data byte, mask, cursor and wait count of port 0. -/
def data (t : State) : BitVec 8 × BitVec 8 × BitVec 16 × BitVec 8 :=
  ((t.port 0).dataByte, (t.port 0).bitMask, (t.port 0).bufOffset, (t.port 0).waitCycles)

/-! Well-formedness refuses what no words can hold. -/

theorem test_wf_address : Instr.wf (.xfer 0 [⟨0x80, false, 0, []⟩]) = false := by decide
theorem test_wf_messages :
    Instr.wf (.xfer 0 [⟨1, false, 0, []⟩, ⟨1, false, 0, []⟩, ⟨1, false, 0, []⟩, ⟨1, false, 0, []⟩]) = false := by decide
theorem test_wf_length : Instr.wf (.xfer 0 [⟨1, false, 0, List.replicate 0x10000 0⟩]) = false := by
  have h : (List.replicate 0x10000 (0 : Byte)).length = 0x10000 := List.length_replicate
  simp only [Instr.wf, List.all_cons, Msg.wf, h]
  decide

/-! Every constructor's word (R96, R99; the CMD words are those of section 2.3). -/

theorem test_decode_state :
    decodeTableWord 8 0x0 = some .idle ∧ decodeTableWord 8 0x1 = some .start ∧ decodeTableWord 8 0x2 = some .start2
    ∧ decodeTableWord 8 0x3 = some .addr ∧ decodeTableWord 8 0x4 = some .write ∧ decodeTableWord 8 0x5 = some .read
    ∧ decodeTableWord 8 0x6 = some .wbit ∧ decodeTableWord 8 0x7 = some .rbit ∧ decodeTableWord 8 0x8 = some .wack
    ∧ decodeTableWord 8 0x9 = some .rack ∧ decodeTableWord 8 0xA = some .stop ∧ decodeTableWord 8 0xB = some .stop2
    ∧ decodeTableWord 8 0xC = some .stop3 ∧ decodeTableWord 8 0xD = some .restart ∧ decodeTableWord 8 0xE = some .wait
    ∧ decodeTableWord 8 0xF = some .complete := by decide
theorem test_decode_init : decodeTableWord 32 0x00000001 = some .init := by decide
theorem test_decode_req : decodeTableWord 32 0x00242312 = some (.req 1 35 36) := by decide
theorem test_decode_rel : decodeTableWord 32 0x00000043 = some (.rel 4) := by decide
theorem test_decode_xfer_none : decodeTableWord 32 0x00000004 = some (.xfer 0 []) := by decide
theorem test_decode_xfer_two :
    decode .cmd (wordToBytes 0x00000214 ++ wordToBytes 0x00000101 ++ [0x42] ++ wordToBytes 0x00000281 ++ [9, 9])
      = .ok (.xfer 1 [⟨1, false, 0, [0x42]⟩, ⟨1, true, 0, [9, 9]⟩]) 15 := by decide
theorem test_decode_unload : decodeTableWord 32 0x00000005 = some .unload := by decide
theorem test_decode_tick : decodeTableWord 32 0x00000008 = some .tick := by decide
theorem test_decode_sirq : decodeTableWord 32 0x00000009 = some .sirq := by decide
/-- The reserved words of section 2.3. -/
theorem test_decode_reserved :
    ([0x0, 0x6, 0x7, 0xA, 0xB, 0xC, 0xD, 0xE, 0xF, 0x01000008, 0x108, 0x15, 0x10203].map (decodeTableWord 32)).all
      (fun o => o == none) = true := by decide
/-- Section 2.1: pins 36, 143 and 255. -/
theorem test_pin :
    gpioPin 36 = ⟨0x38, 0x40, 0x44, 0x48, 0x10⟩ ∧ gpioPin 143 = ⟨0xB0, 0xB8, 0xBC, 0xC0, 0x8000⟩
    ∧ gpioPin 255 = ⟨0x128, 0x130, 0x134, 0x138, 0x80000000⟩ := by decide
/-- Section 2.2. -/
theorem test_addrByte :
    addrByte ⟨0x50, false, 0⟩ = 0xA0 ∧ addrByte ⟨0x50, true, 0⟩ = 0xA1 ∧ addrByte ⟨0x7F, true, 0⟩ = 0xFF := by decide

/-! State actions (section 2.4). -/

/-- S-IDLE. -/
theorem test_idle : reads .idle (ready (port .idle true false 1)) look = some (.idle, true, none, none) := by decide
/-- S-START. -/
theorem test_start :
    reads .start (ready { port .start false false 1 with curMsg := 1, result := -6 })
      (fun t => ((t.port 0).state, (t.port 0).curMsg, (t.port 0).result)) = some (.start2, 0, 0) := by decide
/-- S-START2. -/
theorem test_start2 :
    reads .start2 (ready { port .start2 true false 1 with nacked := true }) (fun t => (look t, (t.port 0).nacked))
      = some ((.addr, false, none, some false), false) := by decide
/-- S-ADDR. -/
theorem test_addr :
    reads .addr (driven 2 false (ready (port .addr false false 1))) (fun t => (look t, data t))
      = some ((.wbit, true, some true, some false), (0xA0, 0x80, 0, 0)) := by decide
/-- S-ADDR-R. -/
theorem test_addr_read :
    reads .addr (ready { port .addr false true 1 with bufOffset := 7 }) data = some (0xA1, 0x80, 0, 0) := by decide
/-- S-WRITE. -/
theorem test_write :
    reads .write (withBuf [0x12, 0x34] (ready (port .write true false 2))) (fun t => (look t, data t))
      = some ((.wbit, false, some false, some false), (0x12, 0x40, 1, 0)) := by decide
/-- S-WRITE-FF. -/
theorem test_write_ff :
    reads .write (withBuf [0xFF] (ready (port .write true false 1))) (fun t => (look t, data t))
      = some ((.wbit, false, some false, some true), (0xFF, 0x40, 1, 0)) := by decide
/-- S-WBIT-LAST0. -/
theorem test_wbit_last :
    reads .wbit (ready { port .wbit true true 1 with dataByte := 0xA1, bitMask := 0x01 }) (fun t => (look t, data t))
      = some ((.wbit, false, some false, some true), (0xA1, 0x00, 0, 0)) := by decide
/-- S-WBIT-END. -/
theorem test_wbit_end :
    reads .wbit (ready (port .wbit false false 1)) look = some (.rack, true, some true, none) := by decide
/-- S-RACK-ACK-MORE. -/
theorem test_rack_ack :
    reads .rack (withBits [false] (ready { port .rack false false 3 with bufOffset := 1 }))
      (fun t => (look t, (t.port 0).waitCycles)) = some ((.wait, true, some true, none), 4) := by decide
/-- S-RACK-NACK. -/
theorem test_rack_nack :
    reads .rack (withBits [true] (ready { port .rack false false 3 with bufOffset := 1 }))
      (fun t => (look t, (t.port 0).nacked, (t.port 0).result)) = some ((.stop, true, some true, none), true, -6) := by decide
/-- S-READ. -/
theorem test_read :
    reads .read (driven 2 true (ready { port .read true true 1 with dataByte := 0x42 })) (fun t => (look t, data t))
      = some ((.rbit, false, some false, none), (0x00, 0x80, 0, 0)) := by decide
/-- S-RBIT-1. -/
theorem test_rbit_first :
    reads .rbit (withBits [true] (ready { port .rbit false true 1 with bitMask := 0x80 })) (fun t => (look t, data t))
      = some ((.rbit, true, some true, none), (0x80, 0x40, 0, 0)) := by decide
/-- S-RBIT-LAST. -/
theorem test_rbit_last :
    reads .rbit (withBits [true] (ready { port .rbit false true 1 with dataByte := 0xA4, bitMask := 0x01 }))
      (fun t => ((t.port 0).state, (t.port 0).bufOffset, pin t 3, t.store)) = some (.wack, 1, some true, [(0, 0xA5)]) := by
  decide
/-- S-WACK-NACK. -/
theorem test_wack_nack :
    reads .wack (ready { port .wack true true 3 with bufOffset := 3 }) look = some (.wack, false, some false, some true) := by
  decide
/-- S-WACK-MORE. -/
theorem test_wack_more :
    reads .wack (ready { port .wack false true 3 with bufOffset := 1 }) (fun t => (look t, (t.port 0).waitCycles))
      = some ((.wait, true, some true, none), 2) := by decide
/-- S-WAIT-4. -/
theorem test_wait :
    reads .wait (ready { port .wait true false 1 with waitCycles := 4 }) (fun t => (look t, (t.port 0).waitCycles))
      = some ((.wait, true, none, none), 3) := by decide
/-- S-WAIT-1R. -/
theorem test_wait_read :
    reads .wait (ready { port .wait true true 1 with waitCycles := 1 }) (fun t => (look t, (t.port 0).waitCycles))
      = some ((.read, true, none, none), 0) := by decide
/-- S-STOP-0. -/
theorem test_stop_low :
    reads .stop (ready (port .stop true false 1)) look = some (.stop, false, some false, some false) := by decide
/-- S-STOP-1. -/
theorem test_stop_high :
    reads .stop (driven 2 false (ready (port .stop false false 1))) look = some (.stop2, true, some true, some true) := by
  decide
/-- S-STOP2-RS. -/
theorem test_stop2_restart :
    reads .stop2 (driven 3 true (ready { port .stop2 true false 1 with numMsg := 2 })) (fun t => (look t, (t.port 0).curMsg))
      = some ((.restart, true, some false, none), 1) := by decide
/-- S-STOP2-NACK. -/
theorem test_stop2_nack :
    reads .stop2 (driven 3 true (ready { port .stop2 true false 1 with numMsg := 2, nacked := true }))
      (fun t => (look t, (t.port 0).curMsg)) = some ((.stop3, true, some true, none), 0) := by decide
/-- S-RESTART. -/
theorem test_restart :
    reads .restart (driven 3 false (ready (port .restart true false 1))) look = some (.start2, true, some true, none) := by
  decide
/-- S-STOP3. -/
theorem test_stop3 :
    reads .stop3 (driven 2 true (ready (port .stop3 true false 1))) look = some (.complete, true, none, none) := by decide
/-- S-COMPLETE. -/
theorem test_complete :
    reads .complete (ready (port .complete true false 1)) (fun t => (t.eng.statusLevel, t.obs.trace))
      = some (true, [⟨0, .tick, .gpio, 0x18, 0x20⟩]) := by decide
/-- S-COMPLETE-2. -/
theorem test_complete_again :
    reads .complete { ready (port .complete true false 1) with eng.statusLevel := true }
      (fun t => (t.eng.statusLevel, t.obs.trace)) = some (false, [⟨0, .tick, .gpio, 0x1C, 0x20⟩]) := by decide

/-! The tick (section 2.10). -/

/-- The trace of tick 4 of V-W1 (section 2.5), with pins 2, 3 and 5 outputs. -/
theorem test_tick_trace :
    reads .tick (driven 5 false (driven 3 true (driven 2 false
        (ready { port .wbit true false 1 with dataByte := 0xA0, bitMask := 0x80 }))))
      (fun t => (t.obs.trace.drop 6).map fun e => (e.offset, e.value))
      = some [(0x1C, 0x8), (0x10, 0xFFFFFFD3), (0x18, 0x4), (0x10, 0xFFFFFFD3), (36, 21)] := by decide
/-- T-2. -/
theorem test_tick_last :
    reads .tick (ready (port .idle true false 1))
      (fun t => (t.eng.timerEnabled, t.eng.timerPending, t.eng.tick, t.obs.trace.map (·.offset)))
      = some (false, false, 1, [44, 36]) := by decide
/-- L-2b: two toggles and `glitch_edge` = 1. -/
theorem test_edge_two :
    (next? (.next (edgeLatch { ready (port .complete true false 1) with
        eng.toggles := 2, draws.glitchEdge := ⟨[true], 0⟩ }))).map (fun t => t.eng.statusPending) = some true := by decide
/-- L-0p. -/
theorem test_edge_none :
    (edgeLatch { ready (port .idle true false 1) with eng.statusPending := true }).eng.statusPending = true := by decide

/-! Commands (section 2.11, 2.14). -/

/-- I-3. -/
theorem test_init :
    reads .init { unloaded with draws.vectorClaim := ⟨[true], 0⟩ }
      (fun t => (t.eng.ready, t.eng.vectorOwned, t.obs.returns, t.obs.trace.map fun e => (e.offset, e.value)))
      = some (true, true, [.ok], [(0x1C, 0x20), (0x10, 0xFFFFFFDF)]) := by decide
/-- C-INIT-BUSY. -/
theorem test_init_busy :
    reads .init { unloaded with draws.vectorClaim := ⟨[false], 0⟩ }
      (fun t => (t.eng.ready, t.eng.vectorOwned, t.obs.returns, t.obs.trace.length))
      = some (false, false, [.err .busy], 2) := by decide

/-- A ready engine with nothing requested, whose platform answers as given. -/
def readyFree (answer : Option Int) : State :=
  { unloaded with
    eng := { Engine.unloaded with ready := true, vectorOwned := true, statusPin := gpioPin 5, timerIrq := 21 }
    draws.irqRequest := ⟨[answer], 0⟩ }

/-- C-REQ-OK. -/
theorem test_req :
    reads (.req 0 2 3) (readyFree none)
      (fun t => (t.eng.requested, t.eng.statusAssoc, (t.port 0).sda.mask, (t.port 0).scl.mask, t.obs))
      = some (1, 1, 0x4, 0x8, ⟨[], [.ok], []⟩) := by decide
/-- C-REQ-SHARE. -/
theorem test_req_share :
    reads (.req 1 3 9) (ready (port .idle true false 1)) (fun t => (t.refused, t.eng.requested, t.obs.returns))
      = some ([.pinConflict], 1, []) := by decide
/-- A requested IDLE port with stale fields. -/
def stale : State := ready { port .idle true true 9 with curMsg := 1, result := -6 }

/-- C-XFER-OK. -/
theorem test_xfer :
    reads (.xfer 0 [⟨0x50, false, 0, [0x07]⟩]) stale
      (fun t => ((t.port 0).state, (t.port 0).msg0, (t.port 0).curMsg, t.store))
      = some (.start, ⟨0x50, false, 1⟩, 1, [(0, 0x07)])
    ∧ reads (.xfer 0 [⟨0x50, false, 0, [0x07]⟩]) stale (fun t => (t.obs.trace.map (·.offset), t.obs.returns))
      = some ([40], [.ok]) := by decide
/-- C-XFER-OK leaves `cur_msg` 1 and `num_msg` 1 in START, where 10_state.md R34(c) as written fails (assumption 20). -/
theorem test_xfer_r34 :
    ∃ t, exec (.xfer 0 [⟨0x50, false, 0, [0x00]⟩]) stale = .next t
      ∧ ((t.port 0).state, (t.port 0).numMsg, (t.port 0).curMsg) = (.start, 1, 1) ∧ ¬PortR34 t 0 := by
  refine ⟨_, rfl, by decide, fun h => ?_⟩
  have := (h.2.2.1 (by decide)).2
  revert this
  decide
/-- C-XFER-BADBUSY. -/
theorem test_xfer_bad :
    reads (.xfer 0 [⟨0x80, false, 0, [0]⟩]) (ready (port .wbit true false 1))
      (fun t => (t.refused, (t.port 0).state, t.obs.returns)) = some ([.badMessage], .wbit, []) := by decide
/-- C-REL-OK. -/
theorem test_rel :
    reads (.rel 0) (ready (port .idle true false 1)) (fun t => (t.eng.requested, t.eng.statusAssoc, t.obs))
      = some (0, 0, ⟨[], [.ok], []⟩) := by decide
/-- V-REL-HOLD, its first half. -/
theorem test_rel_hold :
    reads (.rel 0) (ready (port .wbit true false 1)) (fun t => (t.host.held, t.eng.requested, t.obs.returns))
      = some ([0], 1, []) := by decide
/-- C-UNLOAD-OK. -/
theorem test_unload :
    reads .unload { readyFree none with eng.timerEnabled := true }
      (fun t => (t.eng.ready, t.eng.timerEnabled, t.obs.trace.map (·.offset), t.refused)) = some (false, false, [44], []) := by
  decide
/-- C-UNLOAD-USE. -/
theorem test_unload_use :
    reads .unload (ready (port .idle true false 1)) (fun t => (t.eng.ready, t.refused)) = some (true, [.unloadWhileInUse]) := by
  decide
/-- Q-1. -/
theorem test_sirq :
    reads .sirq { ready (port .complete true false 1) with eng.statusPending := true, eng.statusAssoc := 5 }
      (fun t => (t.eng.statusPending, t.comp)) = some (false, ⟨true, 2, 0, none⟩) := by decide

/-! The companion (section 2.13). -/

/-- The state of K-1: port 0 in COMPLETE with one byte read, the caller's buffer at address 100. -/
def completed : State :=
  { withBuf [0xA5] (ready { port .complete true true 1 with orig0 := 100, cb := 7, ctx := 8 }) with
    comp := ⟨true, 1, 0, none⟩ }

/-- K-1. -/
theorem test_service :
    (companionService completed).host.mem.read 100 = 0xA5 ∧ ((companionService completed).port 0).state = .idle
    ∧ (companionService completed).comp = ⟨true, 1, 1, some ⟨0, 0, 7, 8⟩⟩ := by decide
/-- K-2. -/
theorem test_callback :
    (companionCallback ⟨0, 0, 7, 8⟩ { completed with host.mem := [(100, 0xA5)] }).obs.events
      = [⟨0, 0, 7, 8, [[0xA5]]⟩] := by decide
/-- K-7. -/
theorem test_endScan : (endScan { completed with comp := ⟨true, 2, 4, none⟩ }).comp = ⟨true, 1, 0, none⟩ := by decide
/-- K-8. -/
theorem test_endScan_last : (endScan { completed with comp := ⟨true, 1, 4, none⟩ }).comp = ⟨false, 0, 4, none⟩ := by decide

/-! Witnesses: states and operands that meet the hypotheses of each statement, one for each of its clauses. -/

theorem witness_EncodeDecode :
    Instr.wf .complete = true ∧ Instr.wf (.req 15 255 0) = true
    ∧ Instr.wf (.xfer 15 [⟨0x7F, true, 0xFF, [1, 2]⟩, ⟨0, false, 0, []⟩, ⟨1, true, 0, [3]⟩]) = true := by decide

/-- The largest message a descriptor holds. -/
theorem witness_EncodeDecode_longest : Instr.wf (.xfer 0 [⟨0x7F, true, 0, List.replicate 0xFFFF 0⟩]) = true := by
  have h : (List.replicate 0xFFFF (0 : Byte)).length = 0xFFFF := List.length_replicate
  simp only [Instr.wf, List.all_cons, Msg.wf, h]
  decide

theorem witness_PinBlocks :
    ((0 : BitVec 8) ≠ 31 ∧ (0 : BitVec 8) >>> 5 = 31 >>> 5) ∧ ((224 : BitVec 8) ≠ 255 ∧ (224 : BitVec 8) >>> 5 = 255 >>> 5)
    ∧ (31 : BitVec 8) >>> 5 ≠ 32 >>> 5 := by decide

/-- A released SDA, and a driven one. -/
theorem witness_SampleResult :
    (((ready (port .rack false false 1)).port 0).sda = gpioPin 2 ∧ pinOutput (ready (port .rack false false 1)) 2 = false)
    ∧ ((driven 2 true (ready (port .rack false false 1))).port 0).sda = gpioPin 2
    ∧ pinOutput (driven 2 true (ready (port .rack false false 1))) 2 = true := by decide

theorem witness_DriveAgain : DrivenTo (driven 255 true unloaded) 255 true ∧ DrivenTo (driven 0 false unloaded) 0 false :=
  ⟨⟨by decide, by decide⟩, ⟨by decide, by decide⟩⟩

/-- Port 0's pins, whatever the rest of its record. -/
theorem pins (p : Port) (hd : p.sda = gpioPin 2 := by rfl) (hc : p.scl = gpioPin 3 := by rfl) :
    PortPins (ready p) (ready p).eng.cur 2 3 := by
  have h : (ready p).port (ready p).eng.cur = p := by simp [ready, State.port, Engine.unloaded]
  exact ⟨by rw [h, hd], by rw [h, hc], by decide⟩

theorem witness_Start2Result : PortPins (ready (port .start2 true false 1)) (ready (port .start2 true false 1)).eng.cur 2 3 :=
  pins _

/-- Phase 0 and phase 1. -/
theorem witness_AddrResult :
    (PortPins (ready (port .addr false false 1)) (ready (port .addr false false 1)).eng.cur 2 3
      ∧ ((ready (port .addr false false 1)).port 0).phase = false)
    ∧ PortPins (ready (port .addr true true 1)) (ready (port .addr true true 1)).eng.cur 2 3
    ∧ ((ready (port .addr true true 1)).port 0).phase = true := ⟨⟨pins _, by decide⟩, pins _, by decide⟩

/-- The last byte of a message, at both phases, and one beyond it. -/
theorem witness_WriteResult :
    (PortPins (ready { port .write true false 2 with bufOffset := 1 })
        (ready { port .write true false 2 with bufOffset := 1 }).eng.cur 2 3
      ∧ ((ready { port .write true false 2 with bufOffset := 1 }).port 0).bufOffset < (2 : BitVec 16))
    ∧ PortPins (ready (port .write false false 1)) (ready (port .write false false 1)).eng.cur 2 3
    ∧ PortPins (ready { port .write true false 2 with bufOffset := 2 })
        (ready { port .write true false 2 with bufOffset := 2 }).eng.cur 2 3 := ⟨⟨pins _, by decide⟩, pins _, pins _⟩

/-- Phase 1; phase 0 with a bit left; phase 0 after the eighth bit. -/
theorem witness_WbitResult :
    PortPins (ready { port .wbit true false 1 with bitMask := 1 }) (ready { port .wbit true false 1 with bitMask := 1 }).eng.cur 2 3
    ∧ PortPins (ready { port .wbit false false 1 with bitMask := 1 })
        (ready { port .wbit false false 1 with bitMask := 1 }).eng.cur 2 3
    ∧ PortPins (ready (port .wbit false false 1)) (ready (port .wbit false false 1)).eng.cur 2 3
    ∧ ((ready (port .wbit false false 1)).port 0).bitMask = 0 := ⟨pins _, pins _, pins _, by decide⟩

/-- Phase 1; phase 0 with ACK and bytes left, with ACK and none left, with NACK. -/
theorem witness_RackResult :
    PortPins (ready (port .rack true false 1)) (ready (port .rack true false 1)).eng.cur 2 3
    ∧ (PortPins (withBits [false] (ready (port .rack false false 1))) 0 2 3
      ∧ sdaLine (withBits [false] (ready (port .rack false false 1))) 0 2 = false)
    ∧ PortPins (withBits [false] (ready { port .rack false false 1 with bufOffset := 1 })) 0 2 3
    ∧ (PortPins (withBits [true] (ready (port .rack false false 1))) 0 2 3
      ∧ sdaLine (withBits [true] (ready (port .rack false false 1))) 0 2 = true) :=
  ⟨pins _, ⟨⟨by decide, by decide, by decide⟩, by decide⟩, ⟨by decide, by decide, by decide⟩,
    ⟨by decide, by decide, by decide⟩, by decide⟩

theorem witness_ReadResult :
    PortPins (ready (port .read true true 1)) (ready (port .read true true 1)).eng.cur 2 3
    ∧ PortPins (ready (port .read false true 1)) (ready (port .read false true 1)).eng.cur 2 3 := ⟨pins _, pins _⟩

/-- Phase 1; phase 0 with a bit left; the eighth bit of the last byte; and beyond the message. -/
theorem witness_RbitResult :
    (PortPins (ready (port .rbit true true 1)) (ready (port .rbit true true 1)).eng.cur 2 3
      ∧ (ready (port .rbit true true 1)).store.wf = true)
    ∧ PortPins (ready { port .rbit false true 1 with bitMask := 2 }) (ready { port .rbit false true 1 with bitMask := 2 }).eng.cur 2 3
    ∧ PortPins (ready { port .rbit false true 1 with bitMask := 1 }) (ready { port .rbit false true 1 with bitMask := 1 }).eng.cur 2 3
    ∧ PortPins (ready { port .rbit false true 1 with bitMask := 1, bufOffset := 1 })
        (ready { port .rbit false true 1 with bitMask := 1, bufOffset := 1 }).eng.cur 2 3 :=
  ⟨⟨pins _, by decide⟩, pins _, pins _, pins _⟩

/-- Phase 1; phase 0 with a byte left, and with none. -/
theorem witness_WackResult :
    PortPins (ready (port .wack true true 1)) (ready (port .wack true true 1)).eng.cur 2 3
    ∧ PortPins (ready (port .wack false true 1)) (ready (port .wack false true 1)).eng.cur 2 3
    ∧ PortPins (ready { port .wack false true 1 with bufOffset := 1 })
        (ready { port .wack false true 1 with bufOffset := 1 }).eng.cur 2 3 := ⟨pins _, pins _, pins _⟩

/-- The counts 0, 1, 2 and 255. -/
theorem witness_WaitResult :
    (((ready (port .wait true false 1)).port 0).waitCycles.toNat ≤ 1
      ∧ ((ready { port .wait true false 1 with waitCycles := 1 }).port 0).waitCycles.toNat ≤ 1)
    ∧ 1 < ((ready { port .wait true false 1 with waitCycles := 2 }).port 0).waitCycles.toNat
    ∧ 1 < ((ready { port .wait true false 1 with waitCycles := 255 }).port 0).waitCycles.toNat := by decide

/-- N = 1 and N = 255, in their first and last ticks. -/
theorem witness_WaitTicks :
    (((ready { port .wait true false 1 with waitCycles := 1 }).port 0).state = .wait
      ∧ ((ready { port .wait true false 1 with waitCycles := 1 }).port 0).waitCycles = BitVec.ofNat 8 1 ∧ 1 ≤ 1 ∧ 1 < 256
      ∧ 0 < 1)
    ∧ ((ready { port .wait true false 1 with waitCycles := 255 }).port 0).state = .wait
    ∧ ((ready { port .wait true false 1 with waitCycles := 255 }).port 0).waitCycles = BitVec.ofNat 8 255 ∧ 255 < 256
    ∧ 254 < 255 := by decide

theorem witness_StopResult :
    PortPins (ready (port .stop true false 1)) (ready (port .stop true false 1)).eng.cur 2 3
    ∧ PortPins (ready (port .stop false false 1)) (ready (port .stop false false 1)).eng.cur 2 3 := ⟨pins _, pins _⟩

/-- A message left; the last one; a NACK. -/
theorem witness_Stop2Result :
    PortPins (ready { port .stop2 true false 1 with numMsg := 2 }) (ready { port .stop2 true false 1 with numMsg := 2 }).eng.cur 2 3
    ∧ PortPins (ready { port .stop2 true false 1 with numMsg := 2, curMsg := 1 })
        (ready { port .stop2 true false 1 with numMsg := 2, curMsg := 1 }).eng.cur 2 3
    ∧ PortPins (ready { port .stop2 true false 1 with numMsg := 2, nacked := true })
        (ready { port .stop2 true false 1 with numMsg := 2, nacked := true }).eng.cur 2 3 := ⟨pins _, pins _, pins _⟩

theorem witness_RestartResult :
    PortPins (ready (port .restart true false 1)) (ready (port .restart true false 1)).eng.cur 2 3 := pins _

theorem witness_Stop3Result :
    PortPins (ready (port .stop3 true false 1)) (ready (port .stop3 true false 1)).eng.cur 2 3 := pins _

/-- Both levels. -/
theorem witness_CompleteResult :
    ((ready (port .complete true false 1)).eng.statusPin = gpioPin 5 ∧ (ready (port .complete true false 1)).eng.statusLevel = false)
    ∧ { ready (port .complete true false 1) with eng.statusLevel := true }.eng.statusPin = gpioPin 5 := by decide

/-- STOP2 of the first of two messages, both lines high. -/
def atRestart : State := driven 3 true (driven 2 true (ready { port .stop2 true false 1 with numMsg := 2 }))

theorem witness_RestartSequence :
    PortPins atRestart atRestart.eng.cur 2 3 ∧ DrivenTo atRestart 2 true ∧ DrivenTo atRestart 3 true
    ∧ (atRestart.port atRestart.eng.cur).curMsg = 0 ∧ (atRestart.port atRestart.eng.cur).numMsg = 2
    ∧ (atRestart.port atRestart.eng.cur).nacked = false :=
  ⟨⟨by decide, by decide, by decide⟩, ⟨by decide, by decide⟩, ⟨by decide, by decide⟩, by decide, by decide, by decide⟩

theorem witness_ByteShiftedOut :
    PortPins (ready { port .wbit true false 1 with dataByte := 0xA0, bitMask := 0x80 })
        (ready { port .wbit true false 1 with dataByte := 0xA0, bitMask := 0x80 }).eng.cur 2 3
    ∧ ((ready { port .wbit true false 1 with dataByte := 0xA0, bitMask := 0x80 }).port 0).state = .wbit
    ∧ ((ready { port .wbit true false 1 with dataByte := 0xA0, bitMask := 0x80 }).port 0).bitMask = 0x80
    ∧ ((ready { port .wbit true false 1 with dataByte := 0xA0, bitMask := 0x80 }).port 0).phase = true
    ∧ 0 < 8 ∧ 7 < 8 := ⟨pins _, by decide, by decide, by decide, by decide, by decide⟩

/-- Before the first bit of 0xA5, the last byte of its message. -/
def receiving : State :=
  withBits [true, false, true, false, false, true, false, true] (ready { port .rbit false true 1 with bitMask := 0x80 })

theorem witness_ByteShiftedIn :
    PortPins receiving receiving.eng.cur 2 3 ∧ pinOutput receiving 2 = false ∧ receiving.store.wf = true
    ∧ (receiving.port receiving.eng.cur).state = .rbit ∧ (receiving.port receiving.eng.cur).bitMask = 0x80
    ∧ (receiving.port receiving.eng.cur).dataByte = 0 ∧ (receiving.port receiving.eng.cur).phase = false
    ∧ (receiving.port receiving.eng.cur).bufOffset < (receiving.port receiving.eng.cur).cur.len
    ∧ receiving.draws.bus[receiving.eng.cur].answers
      = [true, false, true, false, false, true, false, true] ++ [] :=
  ⟨⟨by decide, by decide, by decide⟩, by decide, by decide, by decide, by decide, by decide, by decide, by decide, by decide⟩

/-! A state in the middle of two transfers: port 0 in the given record, port 1 in WBIT on pins 35 and 36, port 2 requested and
IDLE on pins 6 and 7, port 3 not requested. -/

def two (p : Port) : State :=
  { ready p with
    eng := { (ready p).eng with requested := 7, statusAssoc := 7 }
    ports := ((ready p).ports.set 1 { port .wbit true false 1 with sda := gpioPin 35, scl := gpioPin 36, bitMask := 0x80 }).set 2
      { port .idle true false 1 with sda := gpioPin 6, scl := gpioPin 7 } }

/-- Port 0 in RBIT. -/
def busy : State := two { port .rbit false true 1 with bitMask := 0x80 }

/-- Pins are what their records say. -/
theorem pins_of {s : State} {i : Fin 4} {a b d c : BitVec 8} (h : PortPins s i d c) (ha : (s.port i).sda = gpioPin a)
    (hb : (s.port i).scl = gpioPin b) : d = a ∧ c = b :=
  ⟨gpioPin_injective (h.1.symm.trans ha), gpioPin_injective (h.2.1.symm.trans hb)⟩

theorem busy_ports :
    ((busy.port 0).sda = gpioPin 2 ∧ (busy.port 0).scl = gpioPin 3) ∧ ((busy.port 1).sda = gpioPin 35 ∧ (busy.port 1).scl = gpioPin 36)
    ∧ ((busy.port 2).sda = gpioPin 6 ∧ (busy.port 2).scl = gpioPin 7) ∧ busy.isRequested 3 = false := by decide

theorem busy_pins : PinsInv busy := by
  obtain ⟨⟨a0, b0⟩, ⟨a1, b1⟩, ⟨a2, b2⟩, h3⟩ := busy_ports
  refine ⟨fun i hi => ?_, fun _ => by decide, fun i j d c d' c' hij hi hj hp hq => ?_, fun h => by revert h; decide⟩
  · match i with
    | 0 => exact ⟨2, 3, ⟨a0, b0, by decide⟩, by decide, by decide⟩
    | 1 => exact ⟨35, 36, ⟨a1, b1, by decide⟩, by decide, by decide⟩
    | 2 => exact ⟨6, 7, ⟨a2, b2, by decide⟩, by decide, by decide⟩
    | 3 => rw [h3] at hi; cases hi
  · have split : ∀ k : Fin 4, k = 0 ∨ k = 1 ∨ k = 2 ∨ k = 3 := by decide
    rcases split i with rfl | rfl | rfl | rfl <;> rcases split j with rfl | rfl | rfl | rfl
    all_goals first
      | exact absurd rfl hij
      | (rw [h3] at hi; cases hi)
      | (rw [h3] at hj; cases hj)
      | (obtain ⟨rfl, rfl⟩ := pins_of hp a0 b0; obtain ⟨rfl, rfl⟩ := pins_of hq a1 b1; decide)
      | (obtain ⟨rfl, rfl⟩ := pins_of hp a0 b0; obtain ⟨rfl, rfl⟩ := pins_of hq a2 b2; decide)
      | (obtain ⟨rfl, rfl⟩ := pins_of hp a1 b1; obtain ⟨rfl, rfl⟩ := pins_of hq a0 b0; decide)
      | (obtain ⟨rfl, rfl⟩ := pins_of hp a1 b1; obtain ⟨rfl, rfl⟩ := pins_of hq a2 b2; decide)
      | (obtain ⟨rfl, rfl⟩ := pins_of hp a2 b2; obtain ⟨rfl, rfl⟩ := pins_of hq a0 b0; decide)
      | (obtain ⟨rfl, rfl⟩ := pins_of hp a2 b2; obtain ⟨rfl, rfl⟩ := pins_of hq a1 b1; decide)

theorem busy_ports_inv : PortsInv busy := by
  refine ⟨?_, by decide, by decide⟩
  unfold PortInv
  decide

theorem busy_engine : EngineInv busy := by
  unfold EngineInv
  decide

/-- An active port and an inactive one. -/
theorem witness_TickRuns : busy.isActive 0 = true ∧ busy.isActive 2 = false := by decide

/-- A requested port that is IDLE and one that is not requested. -/
theorem witness_TickSkipsInactive :
    (PinsInv busy ∧ busy.store.wf = true) ∧ (busy.isActive 2 = false ∧ busy.isRequested 2 = true ∧ PortPins busy 2 6 7)
    ∧ busy.isActive 3 = false := ⟨⟨busy_pins, by decide⟩, ⟨by decide, by decide, by decide, by decide, by decide⟩, by decide⟩

/-- Two active ports. -/
theorem witness_TickPortsIndependent :
    PinsInv busy ∧ busy.store.wf = true ∧ busy.isActive 0 = true ∧ busy.isActive 1 = true ∧ PortPins busy 1 35 36 :=
  ⟨busy_pins, by decide, by decide, by decide, by decide, by decide, by decide⟩

/-- Ready, and not ready with either answer of the claim. -/
theorem witness_InitResult :
    (ready (port .idle true false 1)).eng.ready = true ∧ unloaded.eng.ready = false
    ∧ Tape.value Config.vectorClaim { unloaded with draws.vectorClaim := ⟨[false], 0⟩ }.draws.vectorClaim = false := by decide

/-- The ports 4 and 15; a requested port; the pins at fault, each alone. -/
theorem witness_ReqErrors :
    unloaded.eng.ready = false ∧ (busy.eng.ready = true ∧ 4 ≤ (4 : BitVec 4).toNat ∧ 4 ≤ (15 : BitVec 4).toNat)
    ∧ busy.isRequested 2 = true ∧ busy.isRequested 3 = false ∧ (3 : BitVec 4).toNat = (3 : Fin 4).val
    ∧ busy.plat.ngpio ≤ (144 : BitVec 8).toNat ∧ (5 : BitVec 8) = busy.plat.statusPin
    ∧ busy.isRequested 1 = true ∧ (busy.port 1).scl = gpioPin 36 := by decide

/-- Port 3 on pins 142 and 143, the highest ones, with both answers of the platform. -/
theorem witness_ReqResult :
    ((readyFree none).eng.ready = true ∧ (3 : BitVec 4).toNat = (3 : Fin 4).val ∧ (readyFree none).isRequested 3 = false
      ∧ (142 : BitVec 8) ≠ 143 ∧ (142 : BitVec 8).toNat < (readyFree none).plat.ngpio
      ∧ (143 : BitVec 8).toNat < (readyFree none).plat.ngpio ∧ (142 : BitVec 8) ≠ (readyFree none).plat.statusPin
      ∧ (143 : BitVec 8) ≠ (readyFree none).plat.statusPin)
    ∧ (∀ (j : Fin 4) (q : BitVec 8), (readyFree none).isRequested j = true → q = 142 ∨ q = 143 →
      ((readyFree none).port j).sda ≠ gpioPin q ∧ ((readyFree none).port j).scl ≠ gpioPin q)
    ∧ Tape.value Config.irqRequest (readyFree none).draws.irqRequest = none
    ∧ Tape.value Config.irqRequest (readyFree (some 7)).draws.irqRequest = some 7 := by
  refine ⟨by decide, fun j q hj => ?_, by decide, by decide⟩
  have : ∀ j : Fin 4, (readyFree none).isRequested j = false := by decide
  rw [this] at hj
  cases hj

/-- No message and three; an address of 0x80, a length above MAX_MSG_LEN, reserved bits; a port in COMPLETE. -/
theorem witness_XferErrors :
    4 ≤ (4 : BitVec 4).toNat ∧ busy.isRequested 3 = false ∧ busy.isRequested 0 = true
    ∧ (([] : List Msg).length = 0 ∧ 2 < [(⟨1, false, 0, []⟩ : Msg), ⟨1, false, 0, []⟩, ⟨1, false, 0, []⟩].length)
    ∧ (0x7F < (⟨0x80, false, 0, []⟩ : Msg).addr.toNat ∧ (⟨1, false, 1, []⟩ : Msg).rsvd ≠ 0
      ∧ { busy with plat.maxMsgLen := 1 }.plat.maxMsgLen.toNat < (⟨1, false, 0, [0, 0]⟩ : Msg).bytes.length)
    ∧ ((⟨0x7F, true, 0, [0]⟩ : Msg).addr.toNat ≤ 0x7F
      ∧ (⟨0x7F, true, 0, [0]⟩ : Msg).bytes.length ≤ { busy with plat.maxMsgLen := 1 }.plat.maxMsgLen.toNat
      ∧ (⟨0x7F, true, 0, [0]⟩ : Msg).rsvd = 0)
    ∧ ((ready (port .complete true false 1)).port 0).state ≠ .idle := by decide

/-- One message and two, with the address 0x7F and the length MAX_MSG_LEN. -/
theorem witness_XferResult :
    (2 : BitVec 4).toNat = (2 : Fin 4).val ∧ busy.isRequested 2 = true ∧ (busy.port 2).state = .idle
    ∧ (∀ m, m ∈ [(⟨0x7F, true, 0, [0]⟩ : Msg), ⟨0, false, 0, []⟩] →
      m.addr.toNat ≤ 0x7F ∧ m.bytes.length ≤ { busy with plat.maxMsgLen := 1 }.plat.maxMsgLen.toNat ∧ m.rsvd = 0)
    ∧ [(⟨0x7F, true, 0, [0]⟩ : Msg)].length = 1 ∧ busy.store.wf = true := by decide

/-- An IDLE port, an active one, one not requested; the port number 4. -/
theorem witness_RelResult :
    4 ≤ (4 : BitVec 4).toNat ∧ busy.isRequested 3 = false ∧ (busy.isRequested 0 = true ∧ (busy.port 0).state ≠ .idle)
    ∧ busy.isRequested 2 = true ∧ (busy.port 2).state = .idle := by decide

/-- A REL that holds on port 0, while it is active and when it is IDLE; the stream at its end, at a call on port 2, at a
word that selects nothing, and at a call on port 0. -/
def holding (p : Port) : State := { two p with host.held := [0] }

/-- The word REL 2 in the stream. -/
def withWord (w : Word) (s : State) : State :=
  { s with host.mem := s.host.mem.writeBytes 0 (wordToBytes w), host.limit := 4 }

/-- V-REL-HANG: port 0 in WBIT and no further TIMER_FIRE. -/
theorem test_rel_hang :
    step { holding (port .wbit true false 1) with draws.ticking := false }
      = .next { holding (port .wbit true false 1) with draws.ticking := false } := rfl

theorem witness_HeldRel :
    (BelowTick (holding (port .wbit true false 1)) ∧ (holding (port .wbit true false 1)).comp.pendingCb = none
      ∧ (holding (port .wbit true false 1)).comp.active = false ∧ sirqDeliverable (holding (port .wbit true false 1)) = false
      ∧ (holding (port .wbit true false 1)).host.held = [0] ∧ nextWord (holding (port .wbit true false 1)) = none
      ∧ ((holding (port .wbit true false 1)).port 0).state ≠ .idle)
    ∧ ((holding (port .idle true false 1)).port 0).state = .idle
    ∧ nextWord (withWord 0x00000023 (holding (port .wbit true false 1))) = some (.ok (.rel 2) 4)
    ∧ ¬CallOn 0 (.rel 2)
    ∧ nextWord (withWord 0x00000006 (holding (port .wbit true false 1))) = some (.bad .reservedOp)
    ∧ (nextWord (withWord 0x00000003 (holding (port .wbit true false 1))) = some (.ok (.rel 0) 4) ∧ CallOn 0 (.rel 0))
    ∧ (busy.draws.ticking = true ∧ busy.eng.timerEnabled = true ∧ busy.eng.vectorOwned = true ∧ busy.eng.fiqMasked = false) :=
  ⟨⟨⟨by decide, by decide⟩, by decide, by decide, by decide, by decide, by decide, by decide⟩, by decide, by decide,
    by unfold CallOn; decide, by decide, ⟨by decide, by unfold CallOn; decide⟩, by decide⟩

theorem witness_UnloadResult :
    (unloaded.eng.ready = false ∧ busy.eng.requested ≠ 0)
    ∧ (readyFree none).eng.ready = true ∧ (readyFree none).eng.requested = 0 := by decide

theorem witness_ReqThenRel :
    ∃ t u, exec (.req 0 2 3) (readyFree none) = .next t ∧ t.obs.returns = (readyFree none).obs.returns ++ [.ok]
      ∧ (∀ i : Fin 4, (0 : BitVec 4).toNat = i.val → ((readyFree none).port i).state = .idle)
      ∧ exec (.rel 0) t = .next u := ⟨_, _, rfl, by decide, by decide, rfl⟩

theorem witness_XferUnrequested :
    (∀ i : Fin 4, (3 : BitVec 4).toNat = i.val → busy.isRequested i = false)
    ∧ ∀ i : Fin 4, (15 : BitVec 4).toNat = i.val → busy.isRequested i = false := by decide

/-- A port in COMPLETE, and one that is not; the addresses of the caller's buffer, and beside it. -/
theorem witness_ServiceResult :
    (BelowTick completed ∧ completed.comp.pendingCb = none ∧ completed.comp.active = true
      ∧ completed.comp.next = (0 : Fin 4).val ∧ completed.host.mem.wf = true)
    ∧ (completed.isRequested 0 = true ∧ (completed.port 0).state = .complete)
    ∧ ((completed.port 0).msg 0).rd = true ∧ (completed.port 0).orig 0 = 100 ∧ ((completed.port 0).msg 0).len.toNat = 1
    ∧ { completed with comp.next := 3 }.comp.next = (3 : Fin 4).val ∧ completed.isRequested 3 = false :=
  ⟨⟨⟨by decide, by decide⟩, by decide, by decide, by decide, by decide⟩, ⟨by decide, by decide⟩, by decide, by decide,
    by decide, by decide, by decide⟩

/-- A run that has ended with a spurious SIRQ pending: one requested port, IDLE, the timer line disabled. -/
def ended : State :=
  { ready (port .idle true false 1) with eng := { (ready (port .idle true false 1)).eng with
      timerEnabled := false, statusPending := true } }

theorem witness_EndScanResult :
    (BelowTick { completed with comp := ⟨true, 2, 4, none⟩ } ∧ 4 ≤ (⟨true, 2, 4, none⟩ : Companion).next
      ∧ 1 < (⟨true, 2, 4, none⟩ : Companion).scans)
    ∧ (⟨true, 1, 4, none⟩ : Companion).scans = 1
    ∧ AllDone (ready (port .idle true false 1)) ∧ (Ended ended ∧ ended.eng.statusPending = true ∧ ended.env = []) := by
  refine ⟨⟨⟨by decide, by decide⟩, by decide, by decide⟩, by decide, ?_, ?_⟩
  · unfold AllDone; decide
  · unfold Ended AllDone; decide

/-- After the end of that run its spurious SIRQ is taken and its scan passes, and it has ended normally throughout. -/
theorem test_ended :
    EndedNormally ended ∧ ((next? (stepTimes 7 ended)).map fun t => (t.comp, t.eng.statusPending, t.obs))
      = some (⟨false, 0, 4, none⟩, false, ended.obs) := by
  refine ⟨?_, by decide⟩
  unfold EndedNormally Ended AllDone Unmarked
  decide

theorem witness_CallbackResult :
    BelowTick { completed with comp.pendingCb := some ⟨0, -6, 7, 8⟩ } ∧ (completed.port 0).numMsg = 1
    ∧ ((ready { port .idle true true 1 with numMsg := 2 }).port 0).numMsg = 2 := ⟨⟨by decide, by decide⟩, by decide, by decide⟩

/-- The words INIT, TICK (deliverable and not) and SIRQ at the host's turn. -/
theorem witness_StepRunsDecoded :
    (HostTurn (withWord 0x00000001 unloaded) ∧ (withWord 0x00000001 unloaded).host.pc < (withWord 0x00000001 unloaded).host.limit
      ∧ decodeCmd (withWord 0x00000001 unloaded).host.mem.read 0 = .ok .init 4)
    ∧ (HostTurn (withWord 0x00000008 busy) ∧ decodeCmd (withWord 0x00000008 busy).host.mem.read 0 = .ok .tick 4
      ∧ (busy.eng.timerEnabled && busy.eng.vectorOwned && !busy.eng.fiqMasked) = true)
    ∧ (HostTurn (withWord 0x00000008 unloaded)
      ∧ (unloaded.eng.timerEnabled && unloaded.eng.vectorOwned && !unloaded.eng.fiqMasked) = false)
    ∧ HostTurn (withWord 0x00000009 busy) ∧ decodeCmd (withWord 0x00000009 busy).host.mem.read 0 = .ok .sirq 4 := by
  unfold HostTurn
  decide

/-- A deliverable tick; a pending callback; an active companion; a deliverable SIRQ. -/
theorem witness_Priorities :
    { busy with eng.timerPending := true }.env = []
    ∧ ({ busy with eng.timerPending := true }.eng.timerEnabled = true ∧ busy.eng.vectorOwned = true ∧ busy.eng.fiqMasked = false)
    ∧ busy.eng.timerPending = false ∧ { busy with comp.pendingCb := some ⟨0, 0, 0, 0⟩ }.comp.pendingCb = some ⟨0, 0, 0, 0⟩
    ∧ (completed.comp.pendingCb = none ∧ completed.comp.active = true)
    ∧ ({ busy with eng.statusPending := true }.eng.statusPending = true ∧ busy.eng.statusAssoc ≠ 0 ∧ busy.comp.active = false
      ∧ nextWord busy = none)
    ∧ ({ busy with env := [.timerFire, .claim, .release, .handles 1 2, .ticking false, .hostWrite 3 4] }.env
        = [.timerFire, .claim, .release, .handles 1 2, .ticking false, .hostWrite 3 4] ∧ busy.host.mem.wf = true) := by decide

/-- Another owner's claim and release while the engine yields (R248). -/
theorem test_claim :
    ((next? (stepTimes 1 { busy with env := [.claim] })).map fun t => t.eng.vectorOwned) = some false
    ∧ ((next? (stepTimes 2 { busy with env := [.claim, .release] })).map fun t => t.eng.vectorOwned) = some true := by decide

theorem witness_BadWord :
    HostTurn (withWord 0x00000006 unloaded) ∧ (withWord 0x00000006 unloaded).host.pc < (withWord 0x00000006 unloaded).host.limit
    ∧ decodeCmd (withWord 0x00000006 unloaded).host.mem.read 0 = .bad .reservedOp := by
  unfold HostTurn
  decide

/-- Port 0 in COMPLETE, its service due. -/
def served : State := { two (port .complete true true 1) with comp := ⟨true, 1, 0, none⟩ }

theorem served_inv : PortsInv served ∧ EngineInv served := by
  refine ⟨⟨?_, by decide, by decide⟩, ?_⟩
  · unfold PortInv
    decide
  · unfold EngineInv
    decide

/-- An XFER on the IDLE port 2 takes it out of IDLE; the companion's service takes port 0 into it. -/
theorem witness_IdleOnlyBy :
    (PortsInv (withWord 0x00000124 busy) ∧ EngineInv (withWord 0x00000124 busy)
      ∧ ((withWord 0x00000124 busy).port 2).state = .idle
      ∧ ((next? (step (withWord 0x00000124 busy))).map fun t => (t.port 2).state) = some .start)
    ∧ (PortsInv served ∧ EngineInv served ∧ (served.port 0).state ≠ .idle
      ∧ ((next? (step served)).map fun t => (t.port 0).state) = some .idle) :=
  ⟨⟨busy_ports_inv, busy_engine, by decide, by decide⟩, served_inv.1, served_inv.2, by decide, by decide⟩

/-- A marked state that steps. -/
theorem witness_MarksKept :
    ∃ t, step (withWord 0x00000006 { busy with refused := [.pinConflict], faults := [.invariantBroken] }) = .next t
      ∧ t.refused = [.pinConflict, .reservedEncoding] := ⟨_, rfl, by decide⟩

/-- Of NoFault, MemInvKept, PortsInvKept, EngineInvKept, CompanionInvKept and PinsInvKept: a state that meets every invariant
and steps (its timer fires, and the tick runs two ports). -/
theorem witness_invariants :
    (MemInv busy ∧ PortsInv busy ∧ EngineInv busy ∧ CompanionInv busy ∧ PinsInv busy)
    ∧ ∃ t, step busy = .next t ∧ (t.port 0).state = .rbit ∧ (t.port 1).bitMask = 0x40 :=
  ⟨⟨⟨by decide, by decide⟩, busy_ports_inv, busy_engine, by unfold CompanionInv; decide, busy_pins⟩, _, rfl, by decide, by decide⟩

end Sys2Proof.Tests
end

section
/-! PROOF. The invariants of 10_state.md: the records of the ports (R34), the two memories, and who may write IDLE (R26). -/

namespace Sys2Proof.Machine

/-! The record of one port. -/

/-- What a state asks of the cursor `o`, the current message's length `len` and the wait count `w` (10_state.md R34(d) to
(f)). -/
def stateInv (st : SeqState) (o len : BitVec 16) (w : BitVec 8) : Prop :=
  match st with
  | .wbit | .rack | .wack => o ≤ len
  | .write | .read | .rbit => o < len
  | .wait => o < len ∧ 1 ≤ w.toNat ∧ w.toNat ≤ 4
  | .idle | .start | .start2 | .addr | .stop | .stop2 | .stop3 | .restart | .complete => True

/-- A mask of at most one bit (10_state.md R34(g)). -/
def oneBit (m : BitVec 8) : Prop := m = 0 ∨ ∃ j, j < 8 ∧ m = 1#8 <<< j

/-- `PortInv` as a property of the record alone, given the requested bit and NOACK_CODE. -/
structure RecordInv (req : Bool) (noack : Int) (p : Port) : Prop where
  mirror : p.requested = req
  active : p.state ≠ .idle → req = true
  count : p.state ≠ .idle → 1 ≤ p.numMsg.toNat ∧ p.numMsg.toNat ≤ 2
  cursor : p.state ≠ .idle → p.state ≠ .start → p.curMsg.toNat < p.numMsg.toNat
  state : stateInv p.state p.bufOffset p.cur.len p.waitCycles
  mask : oneBit p.bitMask
  result : p.result = 0 ∨ p.result = noack

theorem portInv_iff {s : State} {i : Fin 4} :
    PortInv s i ↔ RecordInv (s.isRequested i) s.plat.noackCode (s.port i) := by
  constructor
  · rintro ⟨ha, hb, hn, hc, hd, he, hw, hm, hr⟩
    refine ⟨ha, hb, hn, hc, ?_, hm, hr⟩
    unfold stateInv
    split <;> simp_all
  · rintro ⟨ha, hb, hn, hc, hst, hm, hr⟩
    unfold stateInv at hst
    refine ⟨ha, hb, hn, hc, ?_, ?_, ?_, hm, hr⟩ <;> intro hs <;> split at hst <;> simp_all

/-- Shifting a mask of at most one bit leaves one. -/
theorem oneBit.shift {m : BitVec 8} (h : oneBit m) : oneBit (m >>> 1) := by
  rcases h with rfl | ⟨j, hj, rfl⟩
  · exact .inl rfl
  · cases j with
    | zero => exact .inl rfl
    | succ j =>
      have key : ∀ k : Fin 7, 1#8 <<< (k.val + 1) >>> 1 = 1#8 <<< k.val := by decide
      exact .inr ⟨j, by omega, key ⟨j, by omega⟩⟩

theorem oneBit_bitMaskInit : oneBit bitMaskInit := .inr ⟨7, by decide, rfl⟩

/-! One PortStep. -/

section PortStep

variable {s : State} {i : Fin 4} {req : Bool} {noack : Int}

/-- From START2 on, a write of the datapath's fields keeps the invariant when the mask and the new state allow it. -/
theorem RecordInv.datapath {p : Port} (h : RecordInv req noack p) (hp : p.state ∉ [.idle, .start]) {st : SeqState}
    {o : BitVec 16} {m d w : BitVec 8} {ph nk : Bool} (hm : oneBit m) (hst : stateInv st o p.cur.len w) :
    RecordInv req noack { p with
      state := st, bufOffset := o, bitMask := m, dataByte := d, waitCycles := w, phase := ph, nacked := nk } := by
  simp only [List.mem_cons, List.not_mem_nil, or_false, not_or] at hp
  exact { mirror := h.mirror, active := fun _ => h.active hp.1, count := fun _ => h.count hp.1
          cursor := fun _ _ => h.cursor hp.1 hp.2, state := hst, mask := hm, result := h.result }

/-- A move to a state whose demands the record meets. -/
theorem RecordInv.goto (h : RecordInv req noack (s.port i)) (hp : (s.port i).state ∉ [.idle, .start]) (st : SeqState)
    (hst : stateInv st (s.port i).bufOffset (s.port i).cur.len (s.port i).waitCycles) :
    RecordInv req noack ((goto i st s).port i) := by
  rw [port_goto_self]
  exact h.datapath hp h.mask hst

theorem RecordInv.clockGen (h : RecordInv req noack (s.port i)) (hp : (s.port i).state ∉ [.idle, .start]) :
    RecordInv req noack ((clockGen i s).port i) := by
  rw [port_clockGen_self]
  exact h.datapath hp h.mask h.state

/-- The clock generator leaves the current message alone. -/
theorem cur_clockGen (s : State) (i : Fin 4) : ((Machine.clockGen i s).port i).cur = (s.port i).cur := by
  rw [port_clockGen_self]
  rfl

theorem RecordInv.startStep (h : RecordInv req noack (s.port i)) (hs : (s.port i).state = .start) :
    RecordInv req noack ((startStep i s).port i) := by
  have hi : (s.port i).state ≠ .idle := by simp [hs]
  rw [Machine.startStep, State.port_setPort_self]
  exact { mirror := h.mirror, active := fun _ => h.active hi, count := fun _ => h.count hi
          cursor := fun _ _ => (h.count hi).1, state := trivial, mask := h.mask, result := .inl rfl }

theorem RecordInv.start2Step (h : RecordInv req noack (s.port i)) (hs : (s.port i).state = .start2) :
    RecordInv req noack ((start2Step i s).port i) := by
  simp only [Machine.start2Step, State.port_setPort_self, port_sdaDrive]
  exact h.datapath (by simp [hs]) h.mask trivial

/-- WBIT's action: the mask moves on, or the port goes to RACK. -/
theorem RecordInv.wbitAction (h : RecordInv req noack (s.port i)) (hs : (s.port i).state = .wbit) :
    RecordInv req noack ((wbitAction i s).port i) := by
  have hp : (s.port i).state ∉ [.idle, .start] := by simp [hs]
  unfold Machine.wbitAction
  simp only
  split
  · rw [State.port_setPort_self, port_sdaDrive]
    exact h.datapath hp h.mask.shift h.state
  · split
    · have hle := h.state
      rw [hs] at hle
      exact h.goto hp .rack hle
    · exact h

/-- TxSetup, from any record whose cursor is not past the message's end. -/
theorem RecordInv.txSetup (h : RecordInv req noack (s.port i)) (hp : (s.port i).state ∉ [.idle, .start])
    {o : BitVec 16} {d : BitVec 8} (hle : o ≤ (s.port i).cur.len) :
    RecordInv req noack ((txSetup i (s.setPort i { s.port i with dataByte := d, bufOffset := o })).port i) := by
  rw [Machine.txSetup, State.setPort_setPort, State.port_setPort_self]
  refine RecordInv.wbitAction ?_ (by simp)
  rw [State.port_setPort_self]
  exact h.datapath hp oneBit_bitMaskInit hle

theorem RecordInv.addrStep (h : RecordInv req noack (s.port i)) (hs : (s.port i).state = .addr) :
    RecordInv req noack ((addrStep i s).port i) :=
  (h.clockGen (by simp [hs])).txSetup (by simp [hs]) (by bv_omega)

/-- A cursor below a length can move on by one. -/
theorem cursor_succ_le {o len : BitVec 16} (h : o < len) : o + 1 ≤ len := by bv_omega

theorem RecordInv.writeStep (h : RecordInv req noack (s.port i)) (hs : (s.port i).state = .write) :
    RecordInv req noack ((writeStep i s).port i) := by
  have hlt := h.state
  rw [hs] at hlt
  have hc := h.clockGen (by simp [hs])
  refine RecordInv.txSetup (s := noteBufRead i _ _ (Machine.clockGen i s)) ?_ ?_ ?_
  · rw [port_noteBufRead]; exact hc
  · simp [hs]
  · rw [port_noteBufRead, port_clockGen_self]
    exact cursor_succ_le hlt

/-- RBIT's action: a bit is taken in, and with the eighth the cursor moves on. -/
theorem RecordInv.rbitAction (h : RecordInv req noack (s.port i)) (hs : (s.port i).state = .rbit) :
    RecordInv req noack ((rbitAction i s).port i) := by
  have hp : (s.port i).state ∉ [.idle, .start] := by simp [hs]
  have hlt := h.state
  rw [hs] at hlt
  unfold Machine.rbitAction
  simp only
  split
  · exact h
  · split
    · simp only [State.port_setPort_self, port_bufWrite, port_noteSample]
      exact h.datapath hp h.mask.shift (cursor_succ_le hlt)
    · simp only [State.port_setPort_self, port_noteSample]
      exact h.datapath hp h.mask.shift h.state

theorem RecordInv.readStep (h : RecordInv req noack (s.port i)) (hs : (s.port i).state = .read) :
    RecordInv req noack ((readStep i s).port i) := by
  have hlt := h.state
  rw [hs] at hlt
  refine RecordInv.rbitAction ?_ (by simp)
  simp only [State.port_setPort_self, port_sdaRelease, port_clockGen_self]
  exact h.datapath (by simp [hs]) oneBit_bitMaskInit hlt

theorem RecordInv.wackStep (h : RecordInv req noack (s.port i)) (hs : (s.port i).state = .wack) :
    RecordInv req noack ((wackStep i s).port i) := by
  have hp : (s.port i).state ∉ [.idle, .start] := by simp [hs]
  have hc := h.clockGen hp
  have hpc : ((Machine.clockGen i s).port i).state ∉ [.idle, .start] := by simp [hs]
  unfold Machine.wackStep
  simp only
  split
  · rw [port_sdaDrive]; exact hc
  · split
    · rename_i hlt
      rw [State.port_setPort_self]
      exact hc.datapath hpc hc.mask ⟨by rwa [cur_clockGen], by decide, by decide⟩
    · exact hc.goto hpc .stop trivial

theorem RecordInv.rackStep (h : RecordInv req s.plat.noackCode (s.port i)) (hs : (s.port i).state = .rack) :
    RecordInv req s.plat.noackCode ((rackStep i s).port i) := by
  have hp : (s.port i).state ∉ [.idle, .start] := by simp [hs]
  have hc := h.clockGen hp
  have hpc : ((Machine.clockGen i s).port i).state ∉ [.idle, .start] := by simp [hs]
  unfold Machine.rackStep
  simp only
  split
  · rw [port_sdaRelease]; exact hc
  · split
    · split
      · rename_i hlt
        rw [State.port_setPort_self, port_noteSample]
        exact hc.datapath hpc hc.mask ⟨by rwa [cur_clockGen], by decide, by decide⟩
      · refine RecordInv.goto ?_ ?_ .stop trivial
        · rw [port_noteSample]; exact hc
        · rw [port_noteSample]; exact hpc
    · simp only [State.port_setPort_self, port_noteSample, noteSample_plat, clockGen_plat]
      simp only [List.mem_cons, List.not_mem_nil, or_false, not_or] at hpc
      exact { mirror := hc.mirror, active := fun _ => hc.active hpc.1, count := fun _ => hc.count hpc.1
              cursor := fun _ _ => hc.cursor hpc.1 hpc.2, state := trivial, mask := hc.mask, result := .inr rfl }

theorem RecordInv.stopStep (h : RecordInv req noack (s.port i)) (hs : (s.port i).state = .stop) :
    RecordInv req noack ((stopStep i s).port i) := by
  have hc := h.clockGen (by simp [hs])
  unfold Machine.stopStep
  simp only
  split
  · rw [port_sdaDrive]; exact hc
  · refine RecordInv.goto ?_ (by simp [hs]) .stop2 trivial
    rw [port_sdaDrive]; exact hc

/-- STOP2: a next message is selected only below `num_msg`, which is at most 2. -/
theorem RecordInv.stop2Step (h : RecordInv req noack (s.port i)) (hs : (s.port i).state = .stop2) :
    RecordInv req noack ((stop2Step i s).port i) := by
  have hi : (s.port i).state ≠ .idle := by simp [hs]
  unfold Machine.stop2Step
  simp only
  split
  · rename_i hn
    simp only [port_goto_self, port_sclDrive, State.port_setPort_self]
    have hcur : ((s.port i).curMsg + 1).toNat < (s.port i).numMsg.toNat := by
      have := (h.count hi).2
      have := hn.1
      bv_omega
    exact { mirror := h.mirror, active := fun _ => h.active hi, count := fun _ => h.count hi
            cursor := fun _ _ => hcur, state := trivial, mask := h.mask, result := h.result }
  · exact h.goto (by simp [hs]) .stop3 trivial

/-- WAIT: while it counts, the count stays from 1 to 4; on expiry bytes remain. -/
theorem RecordInv.waitStep (h : RecordInv req noack (s.port i)) (hs : (s.port i).state = .wait) :
    RecordInv req noack ((waitStep i s).port i) := by
  have hw := h.state
  rw [hs] at hw
  obtain ⟨hlt, hlo, hhi⟩ := hw
  rw [Machine.waitStep, State.port_setPort_self]
  refine h.datapath (by simp [hs]) h.mask ?_
  have hz : (s.port i).waitCycles ≠ 0 := by rintro e; simp [e] at hlo
  rw [if_neg hz, hs]
  split
  · split <;> exact hlt
  · exact ⟨hlt, by bv_omega, by bv_omega⟩

/-- A PortStep keeps the invariant of its record. -/
theorem RecordInv.portStep (h : RecordInv req s.plat.noackCode (s.port i)) :
    RecordInv req s.plat.noackCode ((portStep i s).port i) := by
  unfold Machine.portStep
  split <;> rename_i hs
  · exact h
  · exact h.startStep hs
  · exact h.start2Step hs
  · exact h.addrStep hs
  · exact h.writeStep hs
  · exact h.readStep hs
  · exact (h.clockGen (by simp [hs])).wbitAction (by simp [hs])
  · exact (h.clockGen (by simp [hs])).rbitAction (by simp [hs])
  · exact h.wackStep hs
  · exact h.rackStep hs
  · exact h.stopStep hs
  · exact h.stop2Step hs
  · exact RecordInv.goto (by simpa using h) (by simp [hs]) .complete trivial
  · exact RecordInv.goto (by simpa using h) (by simp [hs]) .start2 trivial
  · exact h.waitStep hs
  · simpa [completeStep] using h

end PortStep

/-! The whole machine. -/

section PortsInv

variable {s t : State}

/-- The invariant of a port looks at its record, its requested bit and the platform. -/
theorem PortInv.congr {i : Fin 4} (h : PortInv s i) (hp : t.port i = s.port i)
    (hr : t.isRequested i = s.isRequested i) (hplat : t.plat = s.plat) : PortInv t i := by
  rw [portInv_iff] at h ⊢
  rwa [hp, hr, hplat]

/-- A step that touches no record, no requested bit, no hold and no platform keeps the ports' invariants. -/
theorem PortsInv.congr (h : PortsInv s) (hp : t.ports = s.ports) (hr : t.eng.requested = s.eng.requested)
    (hplat : t.plat = s.plat) (hh : t.host.held = s.host.held) : PortsInv t := by
  obtain ⟨hi, hl, hm⟩ := h
  have hq : ∀ i, t.isRequested i = s.isRequested i := fun i => by simp only [State.isRequested, hr]
  exact ⟨fun i => (hi i).congr (State.port_congr hp i) (hq i) hplat, hh ▸ hl, fun i hin => (hq i).trans (hm i (hh ▸ hin))⟩

/-- A step that touches the record and the requested bit of one port alone. -/
theorem PortsInv.change (h : PortsInv s) (i : Fin 4) (hplat : t.plat = s.plat)
    (hp : ∀ j, i ≠ j → t.port j = s.port j) (hr : ∀ j, i ≠ j → t.isRequested j = s.isRequested j)
    (hi : RecordInv (t.isRequested i) t.plat.noackCode (t.port i)) (hl : t.host.held.length ≤ 1)
    (hm : ∀ j, j ∈ t.host.held → t.isRequested j = true) : PortsInv t := by
  refine ⟨fun j => ?_, hl, hm⟩
  by_cases hj : i = j
  · subst hj
    exact portInv_iff.2 hi
  · exact (h.1 j).congr (hp j hj) (hr j hj) hplat

theorem PortsInv.record (h : PortsInv s) (i : Fin 4) : RecordInv (s.isRequested i) s.plat.noackCode (s.port i) :=
  portInv_iff.1 (h.1 i)

/-- A step that replaces the record of one port, its requested bit kept. -/
theorem PortsInv.setRecord (h : PortsInv s) (i : Fin 4) {p : Port} (hp : t.ports = s.ports.set i p)
    (hr : t.eng.requested = s.eng.requested) (hplat : t.plat = s.plat) (hh : t.host.held = s.host.held)
    (hi : RecordInv (s.isRequested i) s.plat.noackCode p) : PortsInv t := by
  obtain ⟨-, hl, hm⟩ := id h
  have hq : ∀ j, t.isRequested j = s.isRequested j := fun j => by simp only [State.isRequested, hr]
  have hport : ∀ j, t.port j = (s.setPort i p).port j := State.port_congr hp
  refine h.change i hplat (fun j hj => (hport j).trans (State.port_setPort_ne s hj p)) (fun j _ => hq j) ?_ (hh ▸ hl)
    fun j hj => (hq j).trans (hm j (hh ▸ hj))
  rwa [hport, State.port_setPort_self, hq, hplat]

/-- A port that is not requested is IDLE (10_state.md R34(b)). -/
theorem PortsInv.idle (h : PortsInv s) {i : Fin 4} (hr : s.isRequested i = false) : (s.port i).state = .idle := by
  by_contra hs
  have := (h.record i).active hs
  simp [hr] at this

/-- An IDLE record keeps the invariant whatever its configuration and its handles are. -/
theorem RecordInv.ofIdle {p q : Port} {req req' : Bool} {noack : Int} (h : RecordInv req noack p) (hq : q.state = .idle)
    (hr : q.requested = req') (hm : q.bitMask = p.bitMask) (hres : q.result = p.result) : RecordInv req' noack q where
  mirror := hr
  active := fun e => absurd hq e
  count := fun e => absurd hq e
  cursor := fun e => absurd hq e
  state := by rw [hq]; trivial
  mask := hm ▸ h.mask
  result := hres ▸ h.result

/-- A turn of the dispatch loop. -/
theorem PortsInv.tickPort (h : PortsInv s) (i : Fin 4) : PortsInv (tickPort i s) := by
  obtain ⟨-, hl, hm⟩ := id h
  have hf := tickPort_frame s i
  have hq := isRequested_tickPort s i
  refine h.change i hf.plat (fun j hj => hf.ports j hj.symm) (fun j _ => hq j) ?_ (hf.host ▸ hl)
    fun j hj => (hq j).trans (hm j (hf.host ▸ hj))
  rw [hq i, hf.plat]
  cases ha : s.isActive i
  · rw [tickPort_skip ha]
    exact h.record i
  · rw [tickPort_active ha]
    exact RecordInv.portStep (s := { s with eng := { s.eng with cur := i } }) (h.record i)

theorem PortsInv.tickStep (h : PortsInv s) : PortsInv (tickStep s) := by
  have h0 : PortsInv (tickBegin s) := h.congr rfl rfl rfl rfl
  have h4 : PortsInv (tickPorts (tickBegin s)) := (((h0.tickPort 0).tickPort 1).tickPort 2).tickPort 3
  obtain ⟨hplat, hports, -, -, -, hreq, -, -⟩ := tickEnd_view (tickPorts (tickBegin s))
  obtain ⟨g, e, o, hshape⟩ := tickStep_shape s
  exact h4.congr hports hreq hplat (by rw [hshape])

/-- Giving up an IDLE port. -/
theorem PortsInv.commitRel (h : PortsInv s) {i : Fin 4} (hs : (s.port i).state = .idle) : PortsInv (commitRel i s) := by
  obtain ⟨-, hl, hm⟩ := id h
  obtain ⟨hr, hp, hi⟩ := commitRel_ports s i
  have hne : ∀ j, i ≠ j → (Machine.commitRel i s).isRequested j = s.isRequested j := fun j hj => by simp [hr j, hj]
  refine h.change i rfl hp hne ?_ ((List.length_filter_le _ _).trans hl) fun j hj => ?_
  · rw [hi]
    exact (h.record i).ofIdle hs (by simp [hr i]) rfl rfl
  · obtain ⟨hj, hij⟩ := List.mem_filter.1 hj
    rw [hne j (by rintro rfl; simp at hij)]
    exact hm j hj

theorem PortsInv.companionService (h : PortsInv s) : PortsInv (companionService s) := by
  rcases companionService_cases s with ⟨i, -, -, -, e⟩ | ⟨-, e⟩ | ⟨-, e⟩ <;> rw [e]
  · exact h.setRecord i rfl rfl rfl rfl ((h.record i).ofIdle rfl (h.record i).mirror rfl rfl)
  · exact h.congr rfl rfl rfl rfl
  · unfold endScan
    split <;> exact h.congr rfl rfl rfl rfl

theorem recordInv_fresh (noack : Int) : RecordInv false noack Port.fresh where
  mirror := rfl
  active := fun e => absurd rfl e
  count := fun e => absurd rfl e
  cursor := fun e => absurd rfl e
  state := trivial
  mask := .inl rfl
  result := .inl rfl

/-- INIT makes every port fresh; no REL holds while the host issues it. -/
theorem PortsInv.initStep (h : PortsInv s) (hh : s.host.held = []) : PortsInv (initStep s) := by
  rcases initStep_cases s with ⟨-, e⟩ | hr
  · rw [e]
    exact h.congr rfl rfl rfl rfl
  · rw [initStep_eq hr, createEngine_eq]
    refine ⟨fun i => portInv_iff.2 ?_, by simp [hh], by simp [hh]⟩
    simpa [State.port, State.isRequested, initEngine] using recordInv_fresh s.plat.noackCode

/-- REQ's commit writes the record of an unrequested port, which is IDLE. -/
theorem PortsInv.commitReq (h : PortsInv s) {i : Fin 4} (hq : s.isRequested i = false) (sda scl : BitVec 8) :
    PortsInv (commitReq i sda scl s) := by
  obtain ⟨-, hl, hm⟩ := id h
  obtain ⟨hr, hp, hi⟩ := commitReq_ports s i sda scl
  refine h.change i rfl hp (fun j hj => by simp [hr j, hj]) ?_ hl fun j hj => ?_
  · rw [hi]
    exact (h.record i).ofIdle (h.idle hq) (by simp [hr i]) rfl rfl
  · simp [hr j, hm j hj]

theorem PortsInv.reqStep (h : PortsInv s) (port : BitVec 4) (sda scl : BitVec 8) : PortsInv (reqStep port sda scl s) := by
  rcases reqStep_cases s port sda scl with ⟨k, e⟩ | e | ⟨i, -, -, hq, -, -, -, e⟩ <;> rw [e]
  · exact h.congr rfl rfl rfl rfl
  · exact h.congr rfl rfl rfl rfl
  · have hd : PortsInv { s with draws.irqRequest := s.draws.irqRequest.advance } := h.congr rfl rfl rfl rfl
    rcases requestHandler_cases i sda scl s with ⟨code, e⟩ | e <;> rw [e]
    · exact hd.congr rfl rfl rfl rfl
    · exact (hd.commitReq hq sda scl).congr rfl rfl rfl rfl

/-- REL gives up an IDLE port, or becomes the one that holds. -/
theorem PortsInv.relStep (h : PortsInv s) (hh : s.host.held = []) (port : BitVec 4) : PortsInv (relStep port s) := by
  rcases relStep_cases s port with e | ⟨i, -, hq, ⟨hs, e⟩ | ⟨-, e⟩⟩ <;> rw [e]
  · exact h.congr rfl rfl rfl rfl
  · exact h.commitRel hs
  · refine ⟨h.1, by simp [hh], fun j hj => ?_⟩
    simp only [hh, List.nil_append, List.mem_singleton] at hj
    exact hj ▸ hq

/-- An IDLE record that XFER takes to START with one or two messages. -/
theorem RecordInv.toStart {p q : Port} {noack : Int} (h : RecordInv true noack p) (hq : q.state = .start)
    (hn : q.numMsg = 1 ∨ q.numMsg = 2) (hr : q.requested = p.requested) (hm : q.bitMask = p.bitMask)
    (hres : q.result = p.result) : RecordInv true noack q where
  mirror := hr.trans h.mirror
  active := fun _ => rfl
  count := fun _ => by rcases hn with e | e <;> simp [e]
  cursor := fun _ e => absurd hq e
  state := by rw [hq]; trivial
  mask := hm ▸ h.mask
  result := hres ▸ h.result

theorem PortsInv.xferStep (h : PortsInv s) (port : BitVec 4) (msgs : List Msg) : PortsInv (xferStep port msgs s) := by
  rcases xferStep_cases s port msgs with ⟨k, e⟩ | e | ⟨i, -, hq, -, e, hmsgs⟩ <;> rw [e]
  · exact h.congr rfl rfl rfl rfl
  · exact h.congr rfl rfl rfl rfl
  · have hi := h.record i
    rw [hq] at hi
    rcases hmsgs with ⟨m, rfl⟩ | ⟨m, n, rfl⟩
    · rw [commitXfer_one]
      exact h.setRecord i rfl rfl rfl rfl (hq ▸ hi.toStart rfl (.inl rfl) rfl rfl rfl)
    · rw [commitXfer_two]
      exact h.setRecord i rfl rfl rfl rfl (hq ▸ hi.toStart rfl (.inr rfl) rfl rfl rfl)

theorem PortsInv.unloadStep (h : PortsInv s) : PortsInv (unloadStep s) := by
  rcases unloadStep_cases s with e | ⟨-, -, e⟩ <;> rw [e] <;> exact h.congr rfl rfl rfl rfl

/-- A host command, issued while no REL holds. -/
theorem PortsInv.command (h : PortsInv s) (hh : s.host.held = []) {i : Instr} {n : Nat}
    (hw : nextWord s = some (.ok i n)) (ht : i ≠ .tick) (hs : i ≠ .sirq) : PortsInv (effect i s) := by
  rcases command_cases (nextWord_format hw) ht hs with rfl | ⟨p, a, b, rfl⟩ | ⟨p, rfl⟩ | ⟨p, ms, rfl⟩ | rfl
  · exact h.initStep hh
  · exact h.reqStep p a b
  · exact h.relStep hh p
  · exact h.xferStep p ms
  · exact h.unloadStep

/-- A held REL that can go on is on an IDLE port. -/
theorem heldReady_idle {p : Fin 4} (h : heldReady s = some p) : (s.port p).state = .idle := by
  simpa using List.find?_some h

theorem PortsInv.applyEnv (h : PortsInv s) (e : EnvEvent) : PortsInv (applyEnv e s) := by
  cases e with
  | claim | release => simp only [Machine.applyEnv]; split <;> exact h.congr rfl rfl rfl rfl
  | quiet | timerFire | hostWrite | handles | ticking => exact h.congr rfl rfl rfl rfl

theorem PortsInv.turn (ht : Turn s t) (h : PortsInv s) : PortsInv t := by
  have hf : PortsInv (timerFire s) := h.congr rfl rfl rfl rfl
  cases ht with
  | tick => exact h.tickStep
  | fireTick => exact hf.tickStep
  | fireTickWord n => exact hf.tickStep.congr rfl rfl rfl rfl
  | service => exact h.companionService
  | held p hp => exact h.commitRel (heldReady_idle hp)
  | command i n hh hw ht hs => exact (h.command hh hw ht hs).congr rfl rfl rfl rfl
  | callback | sirq | sirqWord | pass | fire | fireWord | rest | refused => exact h.congr rfl rfl rfl rfl

/-- Settles O56: every turn and every environment event keeps the invariants of the ports, and outside START they are R34 as
it is written. -/
theorem portsInvKept : Obligations.PortsInvKept := by
  intro s t h hstep
  have ht : PortsInv t := step_inv (Inv := PortsInv) (fun _ _ h => h.congr rfl rfl rfl rfl) (fun _ e h => h.applyEnv e)
    (fun _ _ hturn h => h.turn hturn) hstep h
  exact ⟨ht, fun i hs => (ht.1 i).r34 fun e => absurd e hs⟩

end PortsInv

/-! The two memories. -/

section MemInv

variable {s t : State}

theorem MemInv.congr (h : MemInv s) (hs : t.store = s.store) (hm : t.host.mem = s.host.mem) : MemInv t :=
  ⟨hs ▸ h.1, hm ▸ h.2⟩

theorem MemInv.tickStep (h : MemInv s) : MemInv (tickStep s) := by
  have hf := tickPorts_frame (tickBegin s)
  obtain ⟨g, e, o, hshape⟩ := tickStep_shape s
  rw [hshape]
  exact ⟨hf.wf h.1, hf.host ▸ h.2⟩

/-- The copy-back writes host memory byte by byte (46_completion_service.md R217). -/
theorem MemInv.companionService (h : MemInv s) : MemInv (companionService s) := by
  rcases companionService_cases s with ⟨i, -, -, -, e⟩ | ⟨-, e⟩ | ⟨-, e⟩ <;> rw [e]
  · exact ⟨h.1, wf_copiedBack i 1 (wf_copiedBack i 0 h.2)⟩
  · exact h
  · unfold endScan
    split <;> exact h

theorem MemInv.initStep (h : MemInv s) : MemInv (initStep s) := by
  rcases initStep_cases s with ⟨-, e⟩ | hr
  · rw [e]
    exact h
  · rw [initStep_eq hr, createEngine_eq]
    exact ⟨rfl, h.2⟩

theorem MemInv.reqStep (h : MemInv s) (port : BitVec 4) (sda scl : BitVec 8) : MemInv (reqStep port sda scl s) := by
  rcases reqStep_cases s port sda scl with ⟨k, e⟩ | e | ⟨i, -, -, -, -, -, -, e⟩ <;> rw [e]
  · exact h
  · exact h
  · rcases requestHandler_cases i sda scl s with ⟨code, e⟩ | e <;> rw [e] <;> exact h

theorem MemInv.relStep (h : MemInv s) (port : BitVec 4) : MemInv (relStep port s) := by
  rcases relStep_cases s port with e | ⟨i, -, -, ⟨-, e⟩ | ⟨-, e⟩⟩ <;> rw [e] <;> exact h

/-- XFER copies its messages into the message store byte by byte (45_port_lifecycle.md R203). -/
theorem MemInv.xferStep (h : MemInv s) (port : BitVec 4) (msgs : List Msg) : MemInv (xferStep port msgs s) := by
  rcases xferStep_cases s port msgs with ⟨k, e⟩ | e | ⟨i, -, -, -, e, ⟨m, rfl⟩ | ⟨m, n, rfl⟩⟩ <;> rw [e]
  · exact h
  · exact h
  · rw [commitXfer_one]
    exact ⟨Memory.wf_writeBytes h.1 _ _, h.2⟩
  · rw [commitXfer_two]
    exact ⟨Memory.wf_writeBytes (Memory.wf_writeBytes h.1 _ _) _ _, h.2⟩

theorem MemInv.unloadStep (h : MemInv s) : MemInv (unloadStep s) := by
  rcases unloadStep_cases s with e | ⟨-, -, e⟩ <;> rw [e] <;> exact h

theorem MemInv.command (h : MemInv s) {i : Instr} {n : Nat} (hw : nextWord s = some (.ok i n)) (ht : i ≠ .tick)
    (hs : i ≠ .sirq) : MemInv (effect i s) := by
  rcases command_cases (nextWord_format hw) ht hs with rfl | ⟨p, a, b, rfl⟩ | ⟨p, rfl⟩ | ⟨p, ms, rfl⟩ | rfl
  · exact h.initStep
  · exact h.reqStep p a b
  · exact h.relStep p
  · exact h.xferStep p ms
  · exact h.unloadStep

/-- Of the environment's events the caller's write alone touches a memory. -/
theorem MemInv.applyEnv (h : MemInv s) (e : EnvEvent) : MemInv (applyEnv e s) := by
  cases e with
  | hostWrite a b => exact ⟨h.1, Memory.wf_write h.2 a b⟩
  | claim | release => simp only [Machine.applyEnv]; split <;> exact h
  | quiet | timerFire | handles | ticking => exact h

theorem MemInv.turn (ht : Turn s t) (h : MemInv s) : MemInv t := by
  cases ht with
  | tick => exact h.tickStep
  | fireTick => exact MemInv.tickStep (s := timerFire s) h
  | fireTickWord n => exact MemInv.tickStep (s := timerFire s) h
  | service => exact h.companionService
  | command i n hh hw ht hs => exact h.command hw ht hs
  | callback | sirq | sirqWord | pass | fire | fireWord | held | rest | refused => exact h

/-- Settles O55: a memory is written only byte by byte, and `Memory.write` keeps the canonical form. -/
theorem memInvKept : Obligations.MemInvKept := fun _ _ h hstep =>
  step_inv (Inv := MemInv) (fun _ _ h => h) (fun _ e h => h.applyEnv e) (fun _ _ hturn h => h.turn hturn) hstep h

end MemInv

/-! Who may write IDLE. -/

section Idle

variable {s t : State} {j : Fin 4}

/-- Port `j` is IDLE after the step exactly when it was before. -/
def IdleKept (j : Fin 4) (s t : State) : Prop := (t.port j).state = .idle ↔ (s.port j).state = .idle

/-- What a step can do to whether port `j` is IDLE (10_state.md R26): nothing; or an XFER word on the port takes it out; or the
companion, at that port, takes it in from COMPLETE. -/
def IdleChange (j : Fin 4) (s t : State) : Prop :=
  IdleKept j s t
  ∨ ((∃ port msgs n, nextWord s = some (.ok (.xfer port msgs) n) ∧ port.toNat = j.val) ∧ (t.port j).state ≠ .idle)
  ∨ (((s.port j).state = .complete ∧ s.comp.active = true ∧ s.comp.next = j.val) ∧ (t.port j).state = .idle)

theorem IdleKept.of_state (h : (t.port j).state = (s.port j).state) : IdleKept j s t := by rw [IdleKept, h]

theorem IdleKept.of_ports (h : t.ports = s.ports) : IdleKept j s t := .of_state (by rw [State.port_congr h])

/-- A step that touches the record of one port alone, and not its state. -/
theorem IdleKept.of_record {i : Fin 4} (hi : (t.port i).state = (s.port i).state)
    (hp : ∀ j, i ≠ j → t.port j = s.port j) : IdleKept j s t := by
  by_cases hj : i = j
  · exact .of_state (hj ▸ hi)
  · exact .of_state (by rw [hp j hj])

/-- Under the ports' invariants a port is active exactly when it is not IDLE (10_state.md R34(b)). -/
theorem PortsInv.isActive_iff (h : PortsInv s) (j : Fin 4) : s.isActive j = true ↔ (s.port j).state ≠ .idle := by
  simp only [State.isActive, Bool.and_eq_true, bne_iff_ne, and_iff_right_iff_imp]
  exact (h.record j).active

/-- A tick makes no port active and no port inactive. -/
theorem isActive_tickStep (s : State) (j : Fin 4) : (tickStep s).isActive j = s.isActive j := by
  obtain ⟨-, hports, -, -, -, hreq, -, -⟩ := tickEnd_view (tickPorts (tickBegin s))
  have hend : (tickStep s).isActive j = (tickPorts (tickBegin s)).isActive j := by
    simp only [tickStep, State.isActive, State.isRequested, State.port, hports, hreq]
  rw [hend, tickPorts]
  simp only [isActive_tickPort]
  rfl

theorem PortsInv.idleKept_tickStep (h : PortsInv s) (j : Fin 4) : IdleKept j s (Machine.tickStep s) := by
  have e := isActive_tickStep s j
  rw [Bool.eq_iff_iff, h.isActive_iff, h.tickStep.isActive_iff] at e
  exact not_iff_not.1 e

/-- INIT runs on an engine that is not ready, on which every port is IDLE already. -/
theorem idleKept_initStep (h : PortsInv s) (he : EngineInv s) (j : Fin 4) : IdleKept j s (initStep s) := by
  rcases initStep_cases s with ⟨-, e⟩ | hr
  · rw [e]
    exact .of_ports rfl
  · have hq : s.isRequested j = false := by simp [State.isRequested, (he.1 hr).1]
    rw [IdleKept, iff_true_right (h.idle hq), initStep_eq hr, createEngine_eq]
    simp [State.port, Port.fresh]

theorem idleKept_commitRel (s : State) (i j : Fin 4) : IdleKept j s (commitRel i s) := by
  obtain ⟨-, hp, hi⟩ := commitRel_ports s i
  exact .of_record (by rw [hi]) hp

theorem idleKept_commitReq (s : State) (i j : Fin 4) (sda scl : BitVec 8) : IdleKept j s (commitReq i sda scl s) := by
  obtain ⟨-, hp, hi⟩ := commitReq_ports s i sda scl
  exact .of_record (by rw [hi]) hp

theorem idleKept_reqStep (s : State) (j : Fin 4) (port : BitVec 4) (sda scl : BitVec 8) :
    IdleKept j s (reqStep port sda scl s) := by
  rcases reqStep_cases s port sda scl with ⟨k, e⟩ | e | ⟨i, -, -, -, -, -, -, e⟩ <;> rw [e]
  · exact .of_ports rfl
  · exact .of_ports rfl
  · rcases requestHandler_cases i sda scl s with ⟨code, e⟩ | e <;> rw [e]
    · exact .of_ports rfl
    · exact idleKept_commitReq { s with draws.irqRequest := s.draws.irqRequest.advance } i j sda scl

theorem idleKept_relStep (s : State) (j : Fin 4) (port : BitVec 4) : IdleKept j s (relStep port s) := by
  rcases relStep_cases s port with e | ⟨i, -, -, ⟨-, e⟩ | ⟨-, e⟩⟩ <;> rw [e]
  · exact .of_ports rfl
  · exact idleKept_commitRel s i j
  · exact .of_ports rfl

theorem idleKept_unloadStep (s : State) (j : Fin 4) : IdleKept j s (unloadStep s) := by
  rcases unloadStep_cases s with e | ⟨-, -, e⟩ <;> rw [e] <;> exact .of_ports rfl

/-- What XFER's commit does to the states of the ports (45_port_lifecycle.md R198). -/
theorem commitXfer_state (i : Fin 4) (msgs : List Msg) (hm : (∃ m, msgs = [m]) ∨ ∃ m n, msgs = [m, n]) :
    ((commitXfer i msgs s).port j).state = if i = j then .start else (s.port j).state := by
  have written : ∀ p : Port, p.state = .start →
      ((s.setPort i p).port j).state = if i = j then .start else (s.port j).state := fun p hp => by
    rw [State.port_setPort]
    split
    · exact hp
    · rfl
  rcases hm with ⟨m, rfl⟩ | ⟨m, n, rfl⟩
  · rw [commitXfer_one]
    exact written _ rfl
  · rw [commitXfer_two]
    exact written _ rfl

theorem idleChange_xferStep {port : BitVec 4} {msgs : List Msg} {n : Nat}
    (hw : nextWord s = some (.ok (.xfer port msgs) n)) (j : Fin 4) : IdleChange j s (xferStep port msgs s) := by
  rcases xferStep_cases s port msgs with ⟨k, e⟩ | e | ⟨i, hi, -, -, e, hmsgs⟩
  · rw [e]
    exact .inl (.of_ports rfl)
  · rw [e]
    exact .inl (.of_ports rfl)
  · have hst : ((xferStep port msgs s).port j).state = if i = j then .start else (s.port j).state := by
      rw [e, State.port_ret, commitXfer_state i msgs hmsgs]
    by_cases hj : i = j
    · exact .inr (.inl ⟨⟨port, msgs, n, hw, hj ▸ hi⟩, by simp [hst, hj]⟩)
    · exact .inl (.of_state (by simp [hst, hj]))

theorem idleChange_command (h : PortsInv s) (he : EngineInv s) {i : Instr} {n : Nat}
    (hw : nextWord s = some (.ok i n)) (ht : i ≠ .tick) (hs : i ≠ .sirq) (j : Fin 4) : IdleChange j s (effect i s) := by
  rcases command_cases (nextWord_format hw) ht hs with rfl | ⟨p, a, b, rfl⟩ | ⟨p, rfl⟩ | ⟨p, ms, rfl⟩ | rfl
  · exact .inl (idleKept_initStep h he j)
  · exact .inl (idleKept_reqStep s j p a b)
  · exact .inl (idleKept_relStep s j p)
  · exact idleChange_xferStep hw j
  · exact .inl (idleKept_unloadStep s j)

/-- The companion takes to IDLE the one port it services, from COMPLETE (46_completion_service.md R217). -/
theorem idleChange_companionService (ha : s.comp.active = true) (j : Fin 4) : IdleChange j s (companionService s) := by
  rcases companionService_cases s with ⟨i, hn, -, hs, e⟩ | ⟨-, e⟩ | ⟨-, e⟩ <;> rw [e]
  · by_cases hj : i = j
    · subst hj
      exact .inr (.inr ⟨⟨hs, ha, hn⟩, congrArg Port.state (State.port_setPort_self s i _)⟩)
    · exact .inl (.of_state (congrArg Port.state (State.port_setPort_ne s hj _)))
  · exact .inl (.of_ports rfl)
  · unfold endScan
    split <;> exact .inl (.of_ports rfl)

theorem idleChange_turn (h : PortsInv s) (he : EngineInv s) (ht : Turn s t) (j : Fin 4) : IdleChange j s t := by
  have hf : PortsInv (timerFire s) := h.congr rfl rfl rfl rfl
  cases ht with
  | tick => exact .inl (h.idleKept_tickStep j)
  | fireTick => exact .inl (hf.idleKept_tickStep j)
  | fireTickWord n => exact .inl (hf.idleKept_tickStep j)
  | service _ ha => exact idleChange_companionService ha j
  | held p => exact .inl (idleKept_commitRel s p j)
  | command i n hh hw ht hs => exact idleChange_command h he hw ht hs j
  | callback | sirq | sirqWord | pass | fire | fireWord | rest | refused => exact .inl (.of_ports rfl)

theorem applyEnv_ports (e : EnvEvent) (s : State) : (applyEnv e s).ports = s.ports := by
  cases e with
  | claim | release => simp only [applyEnv]; split <;> rfl
  | quiet | timerFire | hostWrite | handles | ticking => rfl

theorem idleChange_step (h : PortsInv s) (he : EngineInv s) (hstep : step s = .next t) (j : Fin 4) :
    IdleChange j s t := by
  rcases step_turn hstep with ht | ⟨rest, ht⟩ | ⟨e, rest, rfl⟩
  · exact idleChange_turn h he ht j
  · have hr : PortsInv { s with env := rest } := h.congr rfl rfl rfl rfl
    exact idleChange_turn hr he ht j
  · exact .inl (.of_ports (applyEnv_ports e _))

/-- Settles O52: of all turns XFER alone takes a port out of IDLE and the companion's service alone takes one into it. -/
theorem idleOnlyBy : Obligations.IdleOnlyBy := by
  intro s t j h he hstep
  rcases idleChange_step h he hstep j with hk | ⟨hx, hne⟩ | ⟨hc, hi⟩
  · exact ⟨fun hs ht => absurd (hk.2 hs) ht, fun hs ht => absurd (hk.1 ht) hs⟩
  · exact ⟨fun _ _ => hx, fun _ ht => absurd ht hne⟩
  · exact ⟨fun _ ht => absurd hi ht, fun _ _ => hc⟩

end Idle

end Sys2Proof.Machine
end

section
/-! PROOF. The pin primitives (20_memory.md R66 to R68) and what a TICK never touches (R73). -/

namespace Sys2Proof.Machine

/-! What the pin primitives write. -/

section PinPrimitives

variable {ag : Agent} {n : BitVec 8} {v : Bool} {s : State}

/-- Drive's entries are the latch write's and then the direction write's. -/
theorem driveEntries_eq : driveEntries ag s n v = [latchEntry ag s n v, dirEntry ag s n true] := by
  simp [driveEntries, latchEntry, dirEntry, dirWord_cases]

/-- Release's entry is the direction write's. -/
theorem releaseEntries_eq : releaseEntries ag s n = [dirEntry ag s n false] := by
  by_cases h : s.plat.dirInBit = 1 <;> simp [releaseEntries, dirEntry, dirWord_cases, h]

theorem drivenTo_drive : DrivenTo (drive ag (gpioPin n) v s) n v := by simp [DrivenTo]

theorem pinsKept_drive : PinsKept s (drive ag (gpioPin n) v s) [n] := fun m hm => by
  simp [PinKept, List.ne_of_not_mem_cons hm]

theorem pinsKept_release : PinsKept s (release ag (gpioPin n) s) [n] := fun m hm => by
  simp [PinKept, List.ne_of_not_mem_cons hm]

end PinPrimitives

/-! Writes that find what they write. -/

/-- The words of the eight pair blocks are the same when all their bits are. -/
theorem blockWords_ext {v w : Vector Word 8}
    (h : ∀ (k : Fin 8) (j : Nat), j < 32 → v[k].getLsbD j = w[k].getLsbD j) : v = w :=
  Vector.ext fun k hk => BitVec.eq_of_getLsbD_eq (h ⟨k, hk⟩)

/-- Writing a pin's latch with the level it has changes no GPIO word. -/
theorem gpioLatched_same {g : Gpio} {n : BitVec 8} {v : Bool}
    (h : g.latch[pinBlock n].getLsbD (pinBit n) = v) : gpioLatched g n v = g := by
  have hlatch : (gpioLatched g n v).latch = g.latch := blockWords_ext fun k j hj => by
    rw [gpioLatched_latch _ _ _ _ _ hj]
    split
    next hp =>
      obtain ⟨rfl, rfl⟩ := hp
      exact h.symm
    next => rfl
  exact congrArg₂ Gpio.mk (gpioLatched_dir g n v) hlatch

/-- Writing a pin's direction with the one it has changes no GPIO word. -/
theorem gpioDirected_same {b : BitVec 1} {g : Gpio} {n : BitVec 8} {o : Bool}
    (h : (outputMask b g (pinBlock n)).getLsbD (pinBit n) = o) : gpioDirected b g n o = g := by
  rw [outputMask_getLsbD _ _ _ _ (pinBit_lt n)] at h
  have hdir : (gpioDirected b g n o).dir = g.dir := blockWords_ext fun k j hj => by
    rw [gpioDirected_dir _ _ _ _ _ _ hj]
    split
    next hp =>
      obtain ⟨rfl, rfl⟩ := hp
      rw [← h]
      cases g.dir[pinBlock n].getLsbD (pinBit n) <;> simp
    next => rfl
  exact congrArg₂ Gpio.mk hdir (gpioDirected_latch b g n o)

/-! The frame of a tick. -/

/-- A port whose configuration is kept, as its own record with the configuration written back. -/
theorem PortConfig.eq {p q : Port} (h : PortConfig p q) :
    q = { q with
      sda := p.sda
      scl := p.scl
      numMsg := p.numMsg
      msg0 := p.msg0
      msg1 := p.msg1
      orig0 := p.orig0
      orig1 := p.orig1
      cb := p.cb
      ctx := p.ctx
      requested := p.requested } := by
  obtain ⟨hsda, hscl, hnum, hmsg0, hmsg1, horig0, horig1, hcb, hctx, hreq⟩ := h
  rw [← hsda, ← hscl, ← hnum, ← hmsg0, ← hmsg1, ← horig0, ← horig1, ← hcb, ← hctx, ← hreq]

/-! The statements. -/

/-- Settles O5, from `drive_eq` and the pin-by-pin laws of `drive`. -/
theorem driveResult : Obligations.DriveResult := fun ag n v s =>
  ⟨drivenTo_drive, pinsKept_drive, by rw [drive_eq, driveEntries_eq]⟩

/-- Settles O6, from `release_eq` and the pin-by-pin laws of `release`. -/
theorem releaseResult : Obligations.ReleaseResult := fun ag n s =>
  ⟨by simp, pinLatch_release ag n n s, pinsKept_release, by
    rw [release_eq, ← releaseEntries_eq]
    rfl⟩

/-- Settles O8: each of the two writes finds the bit it writes. -/
theorem driveAgain : Obligations.DriveAgain := by
  rintro ag n v s ⟨hout, hlatch⟩
  rw [drive_eq, gpioLatched_same hlatch]
  exact gpioDirected_same hout

/-- Settles O34: the turns of the ports keep `TurnFrame`, and the tick's end writes the timer flags, the edge latch and its
draw. -/
theorem tickFrame : Obligations.TickFrame := by
  intro s
  refine ⟨tickStep s, rfl, ?_⟩
  have hturns := tickPorts_frame (tickBegin s)
  have hcur : (tickPorts (tickBegin s)).eng.cur = 3 := cur_tickPort _ 3
  rw [tickStep, tickEnd_eq, edgeLatch_eq]
  refine ⟨hturns.host, hturns.comp, hturns.plat, hturns.env, hturns.returns, hturns.events,
    hturns.trace.trans (List.prefix_append _ _), ?_, ?_, fun i => (hturns.config i).eq⟩
  · rw [hturns.draws]
    rfl
  · rw [hturns.eng, hcur]
    rfl

/-- Settles O7: the line of an output is its latch, that of an input the draw (10_state.md R35). -/
theorem sampleResult : Obligations.SampleResult := fun i d s hsda =>
  ⟨sampleBit_eq s i d hsda, noteSample_eq s i d hsda⟩

end Sys2Proof.Machine
end

section
/-! PROOF. The encoding (30_encoding.md): the decoder undoes the encoder (R96, R98 to R100, R104), which command words select
nothing (R103), and the pair blocks of the logical pins (R93). -/

namespace Sys2Proof

/-! The STATE format (30_encoding.md R96). -/

/-- The codes and the STATE rows correspond one to one. -/
theorem stateCode_decodeState : ∀ c : BitVec 4, stateCode (decodeState c) = c ∧ (decodeState c).format = .state := by decide

/-- The STATE format looks at the first byte alone. -/
theorem decode_state_cons (b : Byte) (rest : List Byte) :
    decode .state (b :: rest) = .ok (decodeState (b.extractLsb' 0 4)) 1 := rfl

/-! The CMD format (30_encoding.md R98 to R100, R104). -/

@[simp] theorem length_wordToBytes (w : Word) : (wordToBytes w).length = 4 := rfl

/-- The message count of an XFER in its two-bit field, and the six bits above that field (30_encoding.md R100). -/
theorem msgCount_fields {n : Nat} (h : n ≤ 3) :
    ((BitVec.ofNat 8 n).extractLsb' 0 2).toNat = n ∧ (BitVec.ofNat 8 n).extractLsb' 2 6 = 0#6 := by
  interval_cases n <;> decide

/-- The command word of an XFER, read back. -/
theorem wordAt_encode_xfer (port : BitVec 4) (msgs : List Msg) (rest : List Byte) :
    wordAt (listSource (encode (.xfer port msgs) ++ rest)) 0 = cmdWord 4 port (BitVec.ofNat 8 msgs.length) 0 := by
  rw [encode, List.append_assoc]
  exact wordAt_wordToBytes _ _

/-- The messages of an XFER, read back behind its command word. -/
theorem decodeMsgs_encode_xfer (port : BitVec 4) {msgs : List Msg} (h : msgs.all Msg.wf = true) (rest : List Byte) :
    decodeMsgs (listSource (encode (.xfer port msgs) ++ rest)) msgs.length 4
      = (msgs, (encode (.xfer port msgs)).length) := by
  rw [encode, List.append_assoc, List.length_append]
  exact decodeMsgs_encode (wordToBytes _) msgs rest h

theorem decode_encode_xfer (port : BitVec 4) {msgs : List Msg} (hn : msgs.length ≤ 3) (hm : msgs.all Msg.wf = true)
    (rest : List Byte) :
    decode .cmd (encode (.xfer port msgs) ++ rest) = .ok (.xfer port msgs) (encode (.xfer port msgs)).length := by
  obtain ⟨hcount, hzero⟩ := msgCount_fields hn
  simp [decode, decodeCmd, wordAt_encode_xfer, cmdWord_fields, hcount, hzero, decodeMsgs_encode_xfer port hm rest, ifUnusedZero]

/-- Settles O1: a STATE row is the one byte of its code, which the decoder computes back; an XFER is its command word and then
its messages; any other command is one word, whose fields are its operands or 0. -/
theorem encodeDecode : Obligations.EncodeDecode := by
  intro i rest hwf
  cases i with
  | idle | start | start2 | addr | write | read | wbit | rbit | wack | rack | stop | stop2 | stop3 | restart | wait
  | complete => rfl
  | xfer port msgs =>
    simp only [Instr.wf, Bool.and_eq_true, decide_eq_true_eq] at hwf
    exact decode_encode_xfer port hwf.1 hwf.2 rest
  | init | req | rel | unload | tick | sirq =>
    simp [Instr.format, decode, decodeCmd, encode, wordAt_wordToBytes, cmdWord_fields, ifUnusedZero]

/-- The bytes that the encoder writes decode to their instruction. -/
theorem decode_of_encode {i : Instr} {bs : List Byte} (hwf : i.wf = true) (h : encode i = bs) :
    decode i.format bs = .ok i bs.length := by
  subst h
  simpa using encodeDecode i [] hwf

/-- Settles O2: the words are those that the encoder writes. -/
theorem specWordsDecode : Obligations.SpecWordsDecode :=
  ⟨decode_of_encode (i := .addr) rfl rfl, decode_of_encode (i := .wait) rfl rfl, decode_of_encode (i := .init) rfl rfl,
    decode_of_encode (i := .req 0 2 3) rfl rfl, decode_of_encode (i := .req 1 35 36) rfl rfl,
    decode_of_encode (i := .rel 1) rfl rfl, decode_of_encode (i := .unload) rfl rfl, decode_of_encode (i := .tick) rfl rfl,
    decode_of_encode (i := .sirq) rfl rfl,
    decode_of_encode (i := .xfer 1 [⟨0x01, false, 0, [0x42]⟩, ⟨0x01, true, 0, [9, 9]⟩]) rfl rfl⟩

/-! The reserved words (30_encoding.md R103). -/

theorem ifUnusedZero_bad_iff {unused : Bool} {i : Instr} {n : Nat} :
    (∃ e, ifUnusedZero unused (.ok i n) = .bad e) ↔ unused = false := by
  cases unused <;> simp [ifUnusedZero]

/-- The fields below `rsvd` and above `op` are 0 exactly when they are 0 together. -/
theorem fields_zero (w : Word) :
    w.extractLsb' 4 20 = 0 ↔ (w.extractLsb' 4 4 = 0 ∧ w.extractLsb' 8 8 = 0) ∧ w.extractLsb' 16 8 = 0 := by
  rw [extract_zero_append w 4 4 16, extract_zero_append w 8 8 8, and_assoc]

/-- The ops by what their command leaves unused: all of a reserved op, three fields, none, `a` and `b`, or the bits above the
message count (30_encoding.md R100). -/
theorem op_cases : ∀ op : BitVec 4, op ∈ [0x0#4, 0x6#4, 0x7#4, 0xA#4, 0xB#4, 0xC#4, 0xD#4, 0xE#4, 0xF#4]
    ∨ op ∈ [0x1#4, 0x5#4, 0x8#4, 0x9#4] ∨ op = 0x2#4 ∨ op = 0x3#4 ∨ op = 0x4#4 := by decide

/-- Which words the decoder rejects, at any address. -/
theorem decodeCmd_bad_iff {rd : Nat → Byte} {a : Nat} {w : Word} (hw : wordAt rd a = w) :
    (∃ e, decodeCmd rd a = .bad e) ↔
      w.extractLsb' 24 8 ≠ 0
      ∨ w.extractLsb' 0 4 ∈ [0x0#4, 0x6#4, 0x7#4, 0xA#4, 0xB#4, 0xC#4, 0xD#4, 0xE#4, 0xF#4]
      ∨ (w.extractLsb' 0 4 ∈ [0x1#4, 0x5#4, 0x8#4, 0x9#4] ∧ w.extractLsb' 4 20 ≠ 0)
      ∨ (w.extractLsb' 0 4 = 0x3#4 ∧ w.extractLsb' 8 16 ≠ 0)
      ∨ (w.extractLsb' 0 4 = 0x4#4 ∧ w.extractLsb' 10 14 ≠ 0) := by
  simp only [ne_eq, fields_zero, extract_zero_append w 8 8 8, extract_zero_append w 10 6 8, decodeCmd, hw]
  by_cases hr : w.extractLsb' 24 8 = 0
  · generalize w.extractLsb' 0 4 = op
    simp only [hr, not_true_eq_false, if_false, false_or]
    rcases op_cases op with h | h | rfl | rfl | rfl
    · simp only [List.mem_cons, List.not_mem_nil, or_false] at h
      rcases h with rfl | rfl | rfl | rfl | rfl | rfl | rfl | rfl | rfl <;> simp
    · simp only [List.mem_cons, List.not_mem_nil, or_false] at h
      rcases h with rfl | rfl | rfl | rfl <;> simp [ifUnusedZero_bad_iff]
    · simp
    · simp [ifUnusedZero_bad_iff]
    · simp [ifUnusedZero_bad_iff]
  · simp only [hr, not_false_eq_true, if_true, true_or, iff_true]
    exact ⟨_, rfl⟩

/-- Settles O3: the rejected words by `decodeCmd_bad_iff`; a STATE byte selects the row of its code. -/
theorem reservedWords : Obligations.ReservedWords :=
  ⟨fun w rest => decodeCmd_bad_iff (wordAt_wordToBytes w rest), fun b =>
    ⟨_, decode_state_cons b [], stateCode_decodeState (b.extractLsb' 0 4)⟩⟩

end Sys2Proof

namespace Sys2Proof.Machine

/-! The pair blocks (30_encoding.md R92, R93). -/

/-- The bank pair of a pin is its number without the low five bits. -/
theorem shiftRight_five_toNat (n : BitVec 8) : (n >>> 5).toNat = n.toNat / 32 := by
  simp [Nat.shiftRight_eq_div_pow]

theorem pinBit_eq_and (n : BitVec 8) : (n &&& 0x1F).toNat = pinBit n := by
  have h := Nat.and_two_pow_sub_one_eq_mod n.toNat 5
  simpa [pinBit] using h

theorem gpioPin_eq (n : BitVec 8) : gpioPin n =
    { dirOff := (n >>> 5).toNat * 0x28 + 0x10
      setOff := (n >>> 5).toNat * 0x28 + 0x18
      clrOff := (n >>> 5).toNat * 0x28 + 0x1C
      inOff := (n >>> 5).toNat * 0x28 + 0x20
      mask := 1#32 <<< (n &&& 0x1F).toNat } := by
  rw [pinBit_eq_and, ← gpioPin_mask, shiftRight_five_toNat, ← gpioPin_block]
  rfl

theorem dirOff_eq_iff (m n : BitVec 8) : (gpioPin m).dirOff = (gpioPin n).dirOff ↔ m >>> 5 = n >>> 5 := by
  rw [gpioPin_eq, gpioPin_eq, BitVec.toNat_inj.symm]
  simp only
  omega

/-- Settles O4: pins of one block with one mask have one GpioPin, so they are the same pin. -/
theorem pinBlocks : Obligations.PinBlocks := by
  refine ⟨gpioPin_eq, dirOff_eq_iff, fun m n hne hblock hmask => hne (gpioPin_injective ?_)⟩
  rw [gpioPin_eq, gpioPin_eq] at hmask ⊢
  rw [hblock]
  exact congrArg (GpioPin.mk _ _ _ _) hmask

end Sys2Proof.Machine

end

section
/-! PROOF. The host's turn at the command stream (30_encoding.md R103, R107; 60_exceptions.md R243, R244): the decoded word is
run, and a word that selects nothing is refused. -/

namespace Sys2Proof.Machine

section HostTurn

variable {s : State} {i : Instr} {n : Nat}

/-- On the host's turn the step is the stream's. -/
theorem step_hostTurn (h : HostTurn s) : step s = streamStep s := by
  obtain ⟨henv, htick, hcb, hactive, -, -⟩ := h
  simp [step, stepOf, agentStep, henv, htick, hcb, hactive]

theorem heldReady_none (h : s.host.held = []) : heldReady s = none := by simp [heldReady, h]

theorem nextWord_of_lt (h : s.host.pc < s.host.limit) :
    nextWord s = some (decodeCmd s.host.mem.read s.host.pc) := by simp [nextWord, h]

/-- The tick's fire makes a tick deliverable when the line is enabled, the vector owned and the tick not masked (R243). -/
theorem tickDeliverable_timerFire (s : State) :
    tickDeliverable (timerFire s) = (s.eng.timerEnabled && s.eng.vectorOwned && !s.eng.fiqMasked) := by
  simp [tickDeliverable, timerFire]

theorem step_badWord (h : HostTurn s) {e : DecodeError} (hw : nextWord s = some (.bad e)) :
    step s = .next (advance 4 (s.refuse .reservedEncoding)) := by
  rw [step_hostTurn h]
  obtain ⟨-, -, -, -, hsirq, hheld⟩ := h
  simp [streamStep, hw, hsirq, heldReady_none hheld, badWord, hheld]

theorem step_sirqWord (h : HostTurn s) (hw : nextWord s = some (.ok .sirq n)) : step s = .next (advance n s) := by
  rw [step_hostTurn h]
  obtain ⟨-, -, -, -, hsirq, -⟩ := h
  simp [streamStep, hw, sirqWord, hsirq]

theorem step_tickWord (h : HostTurn s) (hw : nextWord s = some (.ok .tick n)) :
    step s = mapNext (advance n) (fireTick s) := by
  rw [step_hostTurn h]
  obtain ⟨-, -, -, -, hsirq, hheld⟩ := h
  simp [streamStep, hw, hsirq, heldReady_none hheld]

theorem step_command (h : HostTurn s) (hw : nextWord s = some (.ok i n)) (ht : i ≠ .tick) (hs : i ≠ .sirq) :
    step s = mapNext (advance n) (exec i s) := by
  rw [step_hostTurn h]
  obtain ⟨-, -, -, -, hsirq, hheld⟩ := h
  have hissue : streamStep s = hostIssue i n s := by
    simp [streamStep, hw, hsirq, heldReady_none hheld, ht, hs]
  rw [hissue, hostIssue, if_pos hheld]

end HostTurn

/-- Settles O49: TICK and SIRQ words have arms of their own in the stream's step, and any other word is the host's command. -/
theorem stepRunsDecoded : Obligations.StepRunsDecoded := by
  intro s i n h hlt hdec
  have hw : nextWord s = some (.ok i n) := by rw [nextWord_of_lt hlt, hdec]
  split
  next => exact step_sirqWord h hw
  next =>
    rw [step_tickWord h hw, fireTick, tickDeliverable_timerFire]
    split <;> rfl
  next hs ht => exact step_command h hw ht hs

theorem State.refuse_eq (r : Refusal) (s : State) :
    s.refuse r = { s with refused := if r ∈ s.refused then s.refused else s.refused ++ [r] } := rfl

end Sys2Proof.Machine

namespace Sys2Proof

open Machine

/-- Settles O51, from the host's turn at a word that decodes to nothing. -/
theorem badWord : Obligations.BadWord :=
  ⟨fun _ _ h hlt hdec => step_badWord h ((nextWord_of_lt hlt).trans (congrArg some hdec)), State.refuse_eq⟩

end Sys2Proof

end

section
/-! PROOF. The bit order on the wire (30_encoding.md R95): sixteen WBIT steps send a byte (42_transmit_states.md R149, R150) and
fifteen RBIT steps receive one (43_receive_states.md R162), most significant bit first. -/

namespace Sys2Proof.Machine

/-! Repeated instructions. -/

/-- Executing an instruction `n` times is iterating its effect. -/
theorem execTimes_eq (i : Instr) (n : Nat) (s : State) : execTimes i n s = .next ((effect i)^[n] s) := by
  induction n generalizing s with
  | zero => rfl
  | succ n ih => simp only [execTimes, exec_eq, ih, Function.iterate_succ_apply]

theorem execTimes_succ (i : Instr) (n : Nat) (s : State) :
    execTimes i (n + 1) s = .next (effect i ((effect i)^[n] s)) := by
  rw [execTimes_eq, Function.iterate_succ_apply']

/-! The mask walks from bit 7 down to bit 0 and then out of the byte (20_memory.md R71). -/

theorem shifted_succ (n : Nat) : bitMaskInit >>> n >>> 1 = bitMaskInit >>> (n + 1) := (BitVec.shiftRight_add _ _ _).symm

theorem shifted_eq_zero_iff : ∀ n ≤ 8, bitMaskInit >>> n = 0#8 ↔ n = 8 := by decide

theorem shifted_getLsbD : ∀ n < 8, ∀ j < 8, (bitMaskInit >>> n).getLsbD (7 - j) = decide (j = n) := by decide

theorem shifted_out : bitMaskInit >>> 7 >>> 1 = 0#8 := by decide

/-! The lines of a port in a step. -/

section Lines

variable {s : State} {i : Fin 4} {d c : BitVec 8} {v w : Bool}

theorem DrivenTo.setPort (h : DrivenTo s d v) (p : Port) : DrivenTo (s.setPort i p) d v := h

/-- The clock generator drives SCL to the new phase (40_tick_dispatch.md R124). -/
theorem PortPins.drivenTo_clockGen (h : PortPins s i d c) : DrivenTo (Machine.clockGen i s) c (!(s.port i).phase) := by
  simp [DrivenTo, pinOutput_clockGen h.2.1, pinLatch_clockGen h.2.1]

/-- The clock generator leaves SDA alone. -/
theorem PortPins.sda_clockGen (h : PortPins s i d c) (hd : DrivenTo s d v) : DrivenTo (Machine.clockGen i s) d v := by
  obtain ⟨-, hscl, hne⟩ := h
  simpa [DrivenTo, pinOutput_clockGen hscl, pinLatch_clockGen hscl, hne] using hd

theorem PortPins.drivenTo_sdaDrive (h : PortPins s i d c) (v : Bool) : DrivenTo (Machine.sdaDrive i v s) d v := by
  simp [DrivenTo, pinOutput_sdaDrive h.1, pinLatch_sdaDrive h.1]

/-- A drive of SDA leaves SCL alone. -/
theorem PortPins.scl_sdaDrive (h : PortPins s i d c) (hc : DrivenTo s c w) (v : Bool) :
    DrivenTo (Machine.sdaDrive i v s) c w := by
  obtain ⟨hsda, -, hne⟩ := h
  simpa [DrivenTo, pinOutput_sdaDrive hsda, pinLatch_sdaDrive hsda, hne.symm] using hc

end Lines

/-! Sending (42_transmit_states.md R149, R150). -/

section Send

variable {s t : State} {i : Fin 4} {d c : BitVec 8} {n : Nat} {v : Bool}

/-- WBIT while SCL falls: the bit under the mask goes to SDA, and the mask moves right. -/
theorem wbitStep_fall (h : (s.port i).phase = true) :
    wbitStep i s = (sdaDrive i ((s.port i).dataByte &&& (s.port i).bitMask != 0) (clockGen i s)).setPort i
      { s.port i with phase := false, bitMask := (s.port i).bitMask >>> 1 } := by
  simp [wbitStep, wbitAction, h]

/-- WBIT while SCL rises: after the eighth bit to RACK. -/
theorem wbitStep_rise (h : (s.port i).phase = false) :
    wbitStep i s = (clockGen i s).setPort i
      { s.port i with phase := true, state := if (s.port i).bitMask = 0 then .rack else (s.port i).state } := by
  simp only [wbitStep, wbitAction, port_clockGen_self, h, Bool.not_false, Bool.true_eq_false, if_false]
  split
  · simp [goto, h]
  · rw [← State.setPort_port (clockGen i s) i, port_clockGen_self, h]
    simp

/-- The record of a port that had `p` when its byte began, with `n` bits set up. -/
def sendingPort (p : Port) (n : Nat) (phase : Bool) : Port :=
  { p with phase := phase, bitMask := bitMaskInit >>> n, state := if n = 8 ∧ phase = true then .rack else .wbit }

theorem sendingPort_start {p : Port} (hstate : p.state = .wbit) (hmask : p.bitMask = 0x80) (hphase : p.phase = true) :
    sendingPort p 0 true = p := by
  cases p
  subst hstate hmask hphase
  rfl

/-- `t` is reached from `s` by setting up `n` bits of the byte; the clock is at `phase`. -/
structure Sending (s : State) (n : Nat) (phase : Bool) (t : State) : Prop where
  eng : t.eng = s.eng
  port : t.port s.eng.cur = sendingPort (s.port s.eng.cur) n phase

theorem Sending.pins (h : Sending s n v t) (hp : PortPins s s.eng.cur d c) : PortPins t s.eng.cur d c :=
  hp.of_port (by rw [h.port]; rfl) (by rw [h.port]; rfl)

theorem Sending.effect_eq (h : Sending s n v t) : effect .wbit t = wbitStep s.eng.cur t := by
  rw [← congrArg Engine.cur h.eng]
  rfl

/-- The falling half sets up bit `7 - n` on SDA with SCL low. -/
theorem Sending.fall (h : Sending s n true t) (hn : n < 8) (hp : PortPins s s.eng.cur d c) :
    Sending s (n + 1) false (effect .wbit t) ∧ DrivenTo (effect .wbit t) c false
      ∧ DrivenTo (effect .wbit t) d ((s.port s.eng.cur).dataByte.getLsbD (7 - n)) := by
  have hphase : (t.port s.eng.cur).phase = true := by rw [h.port]; rfl
  have hpins := h.pins hp
  have hbit : ((t.port s.eng.cur).dataByte &&& (t.port s.eng.cur).bitMask != 0)
      = (s.port s.eng.cur).dataByte.getLsbD (7 - n) := by
    rw [h.port]
    exact and_shifted (s.port s.eng.cur).dataByte n hn
  rw [h.effect_eq, wbitStep_fall hphase, hbit]
  have hclock := hpins.drivenTo_clockGen
  rw [hphase] at hclock
  refine ⟨⟨by simp [h.eng], ?_⟩, (hpins.clockGen.scl_sdaDrive hclock _).setPort _,
    (hpins.clockGen.drivenTo_sdaDrive _).setPort _⟩
  rw [State.port_setPort_self, h.port]
  simp [sendingPort, shifted_succ, Nat.ne_of_lt hn]

/-- The rising half keeps SDA, with SCL high. -/
theorem Sending.rise (h : Sending s (n + 1) false t) (hn : n < 8) (hp : PortPins s s.eng.cur d c) (hd : DrivenTo t d v) :
    Sending s (n + 1) true (effect .wbit t) ∧ DrivenTo (effect .wbit t) c true ∧ DrivenTo (effect .wbit t) d v := by
  have hphase : (t.port s.eng.cur).phase = false := by rw [h.port]; rfl
  have hpins := h.pins hp
  rw [h.effect_eq, wbitStep_rise hphase]
  have hclock := hpins.drivenTo_clockGen
  rw [hphase] at hclock
  refine ⟨⟨by simp [h.eng], ?_⟩, hclock.setPort _, (hpins.sda_clockGen hd).setPort _⟩
  rw [State.port_setPort_self, h.port]
  simp [sendingPort, shifted_eq_zero_iff (n + 1) hn]

/-- After `2 k` WBIT steps, `k` bits are out. -/
theorem sending_iterate (h : Sending s 0 true s) (hp : PortPins s s.eng.cur d c) :
    ∀ k ≤ 8, Sending s k true ((effect .wbit)^[2 * k] s)
  | 0, _ => h
  | k + 1, hk => by
    obtain ⟨hfall, -, hd⟩ := (sending_iterate h hp k (by omega)).fall (by omega) hp
    rw [Nat.mul_succ, Function.iterate_succ_apply', Function.iterate_succ_apply']
    exact (hfall.rise (by omega) hp hd).1

end Send

/-- Settles O27: `Sending` holds after each pair of steps, and the two halves of the next pair show its bit. -/
theorem byteShiftedOut : Obligations.ByteShiftedOut := by
  intro s d c hp hstate hmask hphase k hk
  have hstart : Sending s 0 true s := ⟨rfl, (sendingPort_start hstate hmask hphase).symm⟩
  obtain ⟨hfall, hc, hd⟩ := (sending_iterate hstart hp k (by omega)).fall hk hp
  obtain ⟨hrise, hc', hd'⟩ := hfall.rise hk hp hd
  refine ⟨_, _, execTimes_succ .wbit (2 * k) s, ?_, hc, hd, ?_, hc', hd', ?_⟩
  · rw [execTimes_succ, Function.iterate_succ_apply']
  · rw [hfall.port]
    simp [sendingPort]
  · rw [hrise.port]
    simp [sendingPort]

/-! Receiving (43_receive_states.md R162). -/

section Receive

variable {s t : State} {i : Fin 4} {d c : BitVec 8} {n : Nat} {v : Bool} {b : Nat → Bool}

/-- The accumulator of a port after a sample of `v` (43_receive_states.md R162). -/
def takenByte (p : Port) (v : Bool) : BitVec 8 := if v then p.dataByte ||| p.bitMask else p.dataByte

/-- RBIT while SCL falls does nothing else. -/
theorem rbitStep_fall (h : (s.port i).phase = true) : rbitStep i s = clockGen i s := by
  simp [rbitStep, rbitAction, h]

/-- A sample on a line that is released: the bus's bit is drawn (10_state.md R35, R39). -/
theorem PortPins.sample (hp : PortPins s i d c) (hd : pinOutput s d = false) :
    sampleBit i (Machine.clockGen i s) = busBit i s := by
  obtain ⟨hsda, hscl, hne⟩ := hp
  rw [sampleBit_eq _ i d (by simpa using hsda), sdaLine, pinOutput_clockGen hscl, if_neg hne, hd]
  simp [busBit]

/-- RBIT while SCL rises, before the byte's last bit. -/
theorem rbitStep_rise (hp : PortPins s i d c) (hd : pinOutput s d = false) (h : (s.port i).phase = false)
    (hm : (s.port i).bitMask >>> 1 ≠ 0#8) :
    rbitStep i s = (noteSample i (clockGen i s)).setPort i
      { s.port i with
        phase := true
        dataByte := takenByte (s.port i) (busBit i s)
        bitMask := (s.port i).bitMask >>> 1 } := by
  simp [rbitStep, rbitAction, h, hm, hp.sample hd, takenByte]

/-- A store within the message (20_memory.md R72). -/
theorem bufWrite_of_lt {k : BitVec 1} {j : BitVec 16} (h : j < ((s.port i).msg k).len) (x : Byte) :
    bufWrite i k j x s = { s with store := s.store.write (storeAddr i k j.toNat) x } := if_pos h

/-- RBIT while SCL rises at the byte's last bit: the byte is stored, and the port goes to WACK. -/
theorem rbitStep_last (hp : PortPins s i d c) (hd : pinOutput s d = false) (h : (s.port i).phase = false)
    (hm : (s.port i).bitMask >>> 1 = 0#8) (hlt : (s.port i).bufOffset < (s.port i).cur.len) :
    rbitStep i s = State.setPort
      { noteSample i (clockGen i s) with
        store := s.store.write (storeAddr i (s.port i).curMsg (s.port i).bufOffset.toNat)
          (takenByte (s.port i) (busBit i s)) } i
      { s.port i with
        phase := true
        dataByte := takenByte (s.port i) (busBit i s)
        bitMask := 0#8
        bufOffset := (s.port i).bufOffset + 1
        state := .wack } := by
  simp only [rbitStep, rbitAction, port_clockGen_self, port_noteSample, h, Bool.not_false, Bool.true_eq_false, if_false,
    hp.sample hd, hm]
  rw [bufWrite_of_lt (by simpa [Port.cur, Port.msg] using hlt)]
  simp [State.setPort, State.port, takenByte]

/-- The first `n` bits of `b`, at their places in the byte (30_encoding.md R95). -/
def gathered (b : Nat → Bool) : Nat → BitVec 8
  | 0 => 0
  | n + 1 => if b n then gathered b n ||| bitMaskInit >>> n else gathered b n

theorem gathered_getLsbD (b : Nat → Bool) {j : Nat} (hj : j < 8) :
    ∀ n ≤ 8, (gathered b n).getLsbD (7 - j) = (decide (j < n) && b j)
  | 0, _ => by simp [gathered]
  | n + 1, hn => by
    have ih := gathered_getLsbD b hj n (by omega)
    have hmask := shifted_getLsbD n (by omega) j hj
    have hstep : (gathered b (n + 1)).getLsbD (7 - j) = ((decide (j < n) && b j) || (b n && decide (j = n))) := by
      cases hb : b n <;> simp [gathered, hb, ih, hmask]
    rw [hstep]
    rcases lt_trichotomy j n with h | rfl | h
    · simp [h, h.ne, Nat.lt_succ_of_lt h]
    · simp
    · simp [h.ne', not_lt.2 h.le, not_lt.2 (Nat.succ_le_of_lt h)]

/-- The record of a port that had `p` when its byte began, with `n` bits taken in. -/
def receivingPort (p : Port) (b : Nat → Bool) (n : Nat) (phase : Bool) : Port :=
  { p with phase := phase, bitMask := bitMaskInit >>> n, dataByte := gathered b n }

theorem receivingPort_start {p : Port} (hmask : p.bitMask = 0x80) (hdata : p.dataByte = 0) (hphase : p.phase = false) :
    receivingPort p b 0 false = p := by
  cases p
  subst hmask hdata hphase
  rfl

theorem takenByte_receivingPort (p : Port) (b : Nat → Bool) (n : Nat) (phase : Bool) :
    takenByte (receivingPort p b n phase) (b n) = gathered b (n + 1) := rfl

/-- `t` is reached from `s` by taking in `n` bits `b` of the byte on the released line of pin `d`; the clock is at `phase`. -/
structure Receiving (s : State) (d : BitVec 8) (b : Nat → Bool) (n : Nat) (phase : Bool) (t : State) : Prop where
  eng : t.eng = s.eng
  port : t.port s.eng.cur = receivingPort (s.port s.eng.cur) b n phase
  released : pinOutput t d = false
  answers : t.draws.bus[s.eng.cur].answers = s.draws.bus[s.eng.cur].answers.drop n
  store : t.store = s.store
  faults : t.faults = s.faults

theorem Receiving.pins (h : Receiving s d b n v t) (hp : PortPins s s.eng.cur d c) : PortPins t s.eng.cur d c :=
  hp.of_port (by rw [h.port]; rfl) (by rw [h.port]; rfl)

theorem Receiving.effect_eq (h : Receiving s d b n v t) : effect .rbit t = rbitStep s.eng.cur t := by
  rw [← congrArg Engine.cur h.eng]
  rfl

/-- A draw gives the first answer that is supplied (10_state.md R38). -/
theorem Tape.value_of_head? {α : Type} {free : Nat → α} {tape : Tape α} {a : α} (h : tape.answers.head? = some a) :
    tape.value free = a := by
  obtain ⟨answers, count⟩ := tape
  cases answers with
  | nil => cases h
  | cons x xs => exact Option.some.inj h

/-- The next draw is the next answer supplied. -/
theorem Receiving.busBit_eq (h : Receiving s d b n v t) (hb : s.draws.bus[s.eng.cur].answers[n]? = some (b n)) :
    busBit s.eng.cur t = b n :=
  Tape.value_of_head? (by rw [h.answers, List.head?_drop, hb])

/-- The falling half keeps what is taken in. -/
theorem Receiving.fall (h : Receiving s d b n true t) (hp : PortPins s s.eng.cur d c) :
    Receiving s d b n false (effect .rbit t) := by
  obtain ⟨-, hscl, hne⟩ := h.pins hp
  rw [h.effect_eq, rbitStep_fall (by rw [h.port]; rfl)]
  exact
    { eng := by simp [h.eng]
      port := by rw [port_clockGen_self, h.port]; rfl
      released := by rw [pinOutput_clockGen hscl, if_neg hne, h.released]
      answers := by rw [clockGen_draws, h.answers]
      store := by rw [clockGen_store, h.store]
      faults := by rw [clockGen_faults, h.faults] }

/-- The rising half takes in bit `7 - n`. -/
theorem Receiving.rise (h : Receiving s d b n false t) (hn : n < 7) (hp : PortPins s s.eng.cur d c)
    (hb : s.draws.bus[s.eng.cur].answers[n]? = some (b n)) : Receiving s d b (n + 1) true (effect .rbit t) := by
  have hpins := h.pins hp
  have hmask : (t.port s.eng.cur).bitMask >>> 1 = bitMaskInit >>> (n + 1) := by rw [h.port]; exact shifted_succ n
  have hzero : bitMaskInit >>> (n + 1) ≠ 0#8 := fun hz => by
    have := (shifted_eq_zero_iff (n + 1) (by omega)).1 hz
    omega
  have htail : t.draws.bus[s.eng.cur].answers.tail = s.draws.bus[s.eng.cur].answers.drop (n + 1) := by
    rw [h.answers, List.tail_drop]
  rw [h.effect_eq, rbitStep_rise hpins h.released (by rw [h.port]; rfl) (by rw [hmask]; exact hzero), h.busBit_eq hb, hmask,
    h.port, takenByte_receivingPort, noteSample_eq _ _ d hpins.clockGen.1]
  obtain ⟨-, hscl, hne⟩ := hpins
  exact
    { eng := by simp [h.eng]
      port := State.port_setPort_self _ _ _
      released := by
        rw [pinOutput_setPort]
        exact (pinOutput_clockGen hscl d).trans (by rw [if_neg hne, h.released])
      answers := by simpa [Tape.advance] using htail
      store := by simp [h.store]
      faults := by simp [h.faults] }

/-- After `2 k` RBIT steps, the first `k` bits are in. -/
theorem receiving_iterate (h : Receiving s d b 0 false s) (hp : PortPins s s.eng.cur d c)
    (hb : ∀ j < 8, s.draws.bus[s.eng.cur].answers[j]? = some (b j)) :
    ∀ k ≤ 7, Receiving s d b k false ((effect .rbit)^[2 * k] s)
  | 0, _ => h
  | k + 1, hk => by
    rw [Nat.mul_succ, Function.iterate_succ_apply', Function.iterate_succ_apply']
    exact ((receiving_iterate h hp hb k (by omega)).rise (by omega) hp (hb k (by omega))).fall hp

end Receive

/-- Settles O28: `Receiving` holds after seven pairs of steps, and the fifteenth step takes the last bit and stores the byte. -/
theorem byteShiftedIn : Obligations.ByteShiftedIn := by
  intro s d c b rest hp hd hwf hstate hmask hdata hphase hlt hanswers
  have hb : ∀ j < 8, s.draws.bus[s.eng.cur].answers[j]? = some (b j) := fun j hj => by
    rw [hanswers]
    interval_cases j <;> rfl
  have hstart : Receiving s d b 0 false s := ⟨rfl, (receivingPort_start hmask hdata hphase).symm, hd, rfl, rfl, rfl⟩
  have h : Receiving s d b 7 false ((effect .rbit)^[14] s) := receiving_iterate hstart hp hb 7 le_rfl
  refine ⟨_, execTimes_succ .rbit 14 s, ?_⟩
  generalize (effect .rbit)^[14] s = t at h ⊢
  rw [h.effect_eq, rbitStep_last (h.pins hp) h.released (by rw [h.port]; rfl) (by rw [h.port]; exact shifted_out)
    (by rw [h.port]; exact hlt), h.busBit_eq (hb 7 (by decide)), h.port, takenByte_receivingPort, h.store]
  refine ⟨fun j hj => ?_, ?_, ?_, ?_, ?_⟩
  · rw [State.port_setPort_self]
    simp [gathered_getLsbD b hj 8 le_rfl, hj]
  · rw [State.port_setPort_self]
  · rw [State.port_setPort_self]
    rfl
  · rw [State.port_setPort_self]
    exact (Memory.read_write hwf _ _ _).trans (if_pos rfl)
  · simp [h.faults]

end Sys2Proof.Machine

end

section
/-! PROOF. The tick (40_tick_dispatch.md): the turn of each port (R120 to R122), the independence of the ports (R125), the timer
housekeeping (R126, R127), and that every step keeps the engine's flags in agreement. -/

namespace Sys2Proof.Machine

/-! The turn of a port. -/

section Turns

variable {s : State} {i : Fin 4}

/-- The STATE row of port `i`'s state, run while `i` is the port being stepped, is `i`'s PortStep. -/
theorem exec_stateInstr (s : State) (i : Fin 4) :
    exec (stateInstr (s.port i).state) { s with eng.cur := i } = .next (portStep i { s with eng.cur := i }) := by
  rw [exec_eq]
  exact congrArg _ (effect_stateInstr { s with eng.cur := i })

theorem requested_of_isActive (h : s.isActive i = true) : s.isRequested i = true :=
  (Bool.and_eq_true_iff.1 h).1

/-- Settles O29: a tick is its turns and its end by definition, and a turn is a PortStep or passes. -/
theorem tickRuns : Obligations.TickRuns :=
  ⟨fun _ => rfl, fun s i ha => by rw [exec_stateInstr, tickPort_active ha], fun _ _ ha => tickPort_skip ha⟩

/-- Settles O30: no turn touches a port that is not active, and the pins of the active ports are others. -/
theorem tickSkipsInactive : Obligations.TickSkipsInactive := by
  intro s hpins hwf
  refine ⟨tickStep s, rfl, fun i ha => ?_⟩
  obtain ⟨hport, hbus, hstore⟩ := tickStep_inactive hwf ha
  refine ⟨hport, hbus, hstore, fun hr d c hdc => ?_⟩
  have hview : SameView i d c s (tickStep s) := tickStep_idle hpins hwf hr ha hdc
  exact ⟨hview.sda, hview.scl⟩

/-- Settles O31: the tick gives an active port the view that its PortStep alone gives it. -/
theorem tickPortsIndependent : Obligations.TickPortsIndependent := by
  intro s hpins hwf
  refine ⟨tickStep s, rfl, fun i ha => ⟨_, exec_stateInstr s i, ?_⟩⟩
  have hview : ∀ d c, PortPins s i d c → SameView i d c (portStep i { s with eng.cur := i }) (tickStep s) :=
    fun d c => tickStep_active hpins hwf ha
  obtain ⟨d, c, hdc, -, -⟩ := hpins.1 i (requested_of_isActive ha)
  have h := hview d c hdc
  exact ⟨h.port, h.bus, h.store, fun d c hdc => ⟨(hview d c hdc).sda, (hview d c hdc).scl⟩⟩

end Turns

/-! The timer housekeeping. -/

section Housekeeping

variable (s : State)

theorem needsTicks_iff : needsTicks s = true ↔ ∃ i, s.isActive i = true := by
  simp [needsTicks, Fin.exists_fin_succ, or_assoc]

/-- What a tick does to the engine; the level, the edge and the toggle count are those of 46_completion_service.md R216. -/
theorem tickStep_eng :
    (tickStep s).eng = { s.eng with
      statusLevel := (tickStep s).eng.statusLevel
      timerEnabled := s.eng.timerEnabled && needsTicks s
      timerPending := false
      statusPending := (tickStep s).eng.statusPending
      tick := s.eng.tick + 1
      toggles := (tickStep s).eng.toggles
      cur := 3 } := by
  have hcur : (tickPorts (tickBegin s)).eng.cur = 3 := cur_tickPort _ 3
  have hneeds : needsTicks (tickPorts (tickBegin s)) = needsTicks s := needsTicks_tickPorts _
  rw [tickStep, tickEnd_eq, edgeLatch_eq, hneeds, (tickPorts_frame (tickBegin s)).eng, hcur]
  rfl

/-- The trace of a tick ends with the timer's entries (40_tick_dispatch.md R126, R127). -/
theorem tickStep_trace :
    (tickStep s).obs.trace = (tickPorts (tickBegin s)).obs.trace ++ timerEntries (tickPorts (tickBegin s)) := by
  rw [tickStep, tickEnd_eq, edgeLatch_eq]

/-- The timer's entries of a tick name its number, and whether it needs another is what it was at the tick's start. -/
theorem timerEntries_tickPorts :
    timerEntries (tickPorts (tickBegin s)) =
      (if needsTicks s then [] else [⟨s.eng.tick + 1, .tick, .intc, s.plat.intcEnclrOff, s.eng.timerIrq⟩])
        ++ [⟨s.eng.tick + 1, .tick, .intc, s.plat.intcAckOff, s.eng.timerIrq⟩] := by
  have hf := tickPorts_frame (tickBegin s)
  have hneeds : needsTicks (tickPorts (tickBegin s)) = needsTicks s := needsTicks_tickPorts _
  rw [timerEntries, hneeds, hf.plat, hf.eng]
  rfl

/-- Settles O32, from the tick's effect on the engine and on the trace. -/
theorem tickHousekeeping : Obligations.TickHousekeeping := by
  intro s
  refine ⟨tickStep s, rfl, by rw [tickStep_eng], by rw [tickStep_eng], (tickPorts (tickBegin s)).obs.trace, ?_,
    (tickPorts_frame (tickBegin s)).trace⟩
  rw [tickStep_trace, timerEntries_tickPorts, List.append_assoc]

end Housekeeping

/-! The engine's flags. -/

section EngineInv

variable {s t : State}

theorem requested_ne_zero {i : Fin 4} (hr : s.isRequested i = true) : s.eng.requested ≠ 0 := fun hz => by
  simp [State.isRequested, hz] at hr

/-- An engine with a requested port is ready. -/
theorem EngineInv.ready (h : EngineInv s) {i : Fin 4} (hr : s.isRequested i = true) : s.eng.ready = true := by
  obtain ⟨hunready, -⟩ := h
  by_contra hn
  exact requested_ne_zero hr (hunready (Bool.eq_false_of_not_eq_true hn)).1

/-- A step that makes no port active, and writes the requested ports and the handlers alike. -/
theorem EngineInv.setRequested (h : EngineInv s) {r a : BitVec 4} (hr : s.eng.ready = false → r = 0) (hassoc : a = r)
    (he : t.eng = { s.eng with requested := r, statusAssoc := a })
    (ha : ∀ i, t.isActive i = true → s.isActive i = true) : EngineInv t := by
  obtain ⟨hunready, -, htimer, hmask⟩ := h
  rw [EngineInv, he]
  exact ⟨fun hn => ⟨hr hn, (hunready hn).2⟩, hassoc, fun i hi => htimer i (ha i hi), hmask⟩

/-- A step that makes no port active and does not touch the engine. -/
theorem EngineInv.congr (h : EngineInv s) (he : t.eng = s.eng) (ha : ∀ i, t.isActive i = true → s.isActive i = true) :
    EngineInv t := by
  obtain ⟨hunready, hassoc, htimer, hmask⟩ := h
  rw [EngineInv, he]
  exact ⟨hunready, hassoc, fun i hi => htimer i (ha i hi), hmask⟩

/-- The tick disables the timer line only when no port is active (40_tick_dispatch.md R126). -/
theorem EngineInv.tickStep (h : EngineInv s) : EngineInv (tickStep s) := by
  obtain ⟨hunready, hassoc, htimer, hmask⟩ := h
  rw [EngineInv, tickStep_eng]
  refine ⟨fun hn => ?_, hassoc, fun i hi => ?_, hmask⟩
  · obtain ⟨hreq, henabled, howned⟩ := hunready hn
    exact ⟨hreq, by simp [henabled], howned⟩
  · rw [isActive_tickStep] at hi
    simp [htimer i hi, (needsTicks_iff s).2 ⟨i, hi⟩]

/-- A step that touches one port alone, which is not active after it, makes no port active. -/
theorem isActive_of_change {i : Fin 4} (hi : t.isActive i = false) (hp : ∀ j, i ≠ j → t.port j = s.port j)
    (hr : ∀ j, i ≠ j → t.isRequested j = s.isRequested j) : ∀ j, t.isActive j = true → s.isActive j = true := by
  intro j hj
  have hne : i ≠ j := by
    rintro rfl
    simp [hi] at hj
  rwa [State.isActive, hr j hne, hp j hne] at hj

theorem isActive_of_state_idle {i : Fin 4} (h : (s.port i).state = .idle) : s.isActive i = false := by simp [State.isActive, h]

/-- The service takes at most one port to IDLE, and unmasks the tick (46_completion_service.md R217). -/
theorem EngineInv.companionService (h : EngineInv s) : EngineInv (companionService s) := by
  obtain ⟨-, -, -, hmask⟩ := id h
  have heng : { s.eng with fiqMasked := false } = s.eng := by rw [← hmask]
  rcases companionService_cases s with ⟨i, -, -, -, e⟩ | ⟨-, e⟩ | ⟨-, e⟩ <;> rw [e]
  · exact h.congr heng (isActive_of_change (i := i)
      (isActive_of_state_idle (congrArg Port.state (State.port_setPort_self s i _)))
      (fun j hj => State.port_setPort_ne s hj _) fun _ _ => rfl)
  · exact h.congr heng fun _ => id
  · unfold endScan
    split <;> exact h.congr rfl fun _ => id

/-- INIT leaves nothing requested or enabled, and owns the vector exactly when it is ready (70_reset_and_hazards.md R270). -/
theorem EngineInv.initStep (h : EngineInv s) : EngineInv (initStep s) := by
  rcases initStep_cases s with ⟨-, e⟩ | hr
  · rw [e]
    exact h.congr rfl fun _ => id
  · rw [initStep_eq hr]
    refine ⟨fun hn => ⟨rfl, rfl, hn⟩, rfl, fun i hi => ?_, rfl⟩
    exact absurd rfl (requested_ne_zero (requested_of_isActive hi))

/-- REQ's commit is on an unrequested port, which is IDLE, and sets both its bits (45_port_lifecycle.md R190). -/
theorem EngineInv.commitReq (h : EngineInv s) (hp : PortsInv s) {i : Fin 4} (hr : s.eng.ready = true)
    (hq : s.isRequested i = false) (sda scl : BitVec 8) : EngineInv (commitReq i sda scl s) := by
  obtain ⟨-, hassoc, -, -⟩ := id h
  obtain ⟨hreq, hports, hi⟩ := commitReq_ports s i sda scl
  refine h.setRequested (fun hn => by simp [hr] at hn) (congrArg (· ||| portBit i) hassoc) rfl
    (isActive_of_change (i := i) (isActive_of_state_idle ?_) hports fun j hj => by simp [hreq j, hj])
  rw [hi]
  exact hp.idle hq

theorem EngineInv.reqStep (h : EngineInv s) (hp : PortsInv s) (port : BitVec 4) (sda scl : BitVec 8) :
    EngineInv (reqStep port sda scl s) := by
  rcases reqStep_cases s port sda scl with ⟨k, e⟩ | e | ⟨i, -, hr, hq, -, -, -, e⟩ <;> rw [e]
  · exact h.congr rfl fun _ => id
  · exact h.congr rfl fun _ => id
  · have hd : EngineInv { s with draws.irqRequest := s.draws.irqRequest.advance } := h
    rcases requestHandler_cases i sda scl s with ⟨code, e⟩ | e <;> rw [e]
    · exact hd.congr rfl fun _ => id
    · exact hd.commitReq (hp.congr rfl rfl rfl rfl) hr hq sda scl

/-- Giving up a port clears both its bits (45_port_lifecycle.md R205). -/
theorem EngineInv.commitRel (h : EngineInv s) (i : Fin 4) : EngineInv (commitRel i s) := by
  obtain ⟨hunready, hassoc, -, -⟩ := id h
  obtain ⟨hreq, hports, -⟩ := commitRel_ports s i
  exact h.setRequested (fun hn => by simp [(hunready hn).1]) (congrArg (· &&& ~~~portBit i) hassoc) rfl
    (isActive_of_change (i := i) (by simp [State.isActive, hreq i]) hports fun j hj => by simp [hreq j, hj])

theorem EngineInv.relStep (h : EngineInv s) (port : BitVec 4) : EngineInv (relStep port s) := by
  rcases relStep_cases s port with e | ⟨i, -, -, ⟨-, e⟩ | ⟨-, e⟩⟩ <;> rw [e]
  · exact h.congr rfl fun _ => id
  · exact h.commitRel i
  · exact h.congr rfl fun _ => id

/-- A step that enables the timer line of a ready engine, whatever it makes of the ports. -/
theorem EngineInv.enableTimer (h : EngineInv s) (hr : s.eng.ready = true)
    (he : t.eng = { s.eng with timerEnabled := true }) : EngineInv t := by
  obtain ⟨-, hassoc, -, hmask⟩ := h
  rw [EngineInv, he]
  exact ⟨fun hn => by simp [hr] at hn, hassoc, fun _ _ => rfl, hmask⟩

/-- XFER is on a requested port, so the engine is ready (45_port_lifecycle.md R198). -/
theorem EngineInv.xferStep (h : EngineInv s) (port : BitVec 4) (msgs : List Msg) : EngineInv (xferStep port msgs s) := by
  rcases xferStep_cases s port msgs with ⟨k, e⟩ | e | ⟨i, -, hq, -, e, ⟨m, rfl⟩ | ⟨m, n, rfl⟩⟩ <;> rw [e]
  · exact h.congr rfl fun _ => id
  · exact h.congr rfl fun _ => id
  · rw [commitXfer_one]
    exact h.enableTimer (h.ready hq) rfl
  · rw [commitXfer_two]
    exact h.enableTimer (h.ready hq) rfl

/-- UNLOAD disables the timer line only while nothing is requested (45_port_lifecycle.md R208). -/
theorem EngineInv.unloadStep (h : EngineInv s) : EngineInv (unloadStep s) := by
  rcases unloadStep_cases s with e | ⟨-, hz, e⟩ <;> rw [e]
  · exact h.congr rfl fun _ => id
  · obtain ⟨-, hassoc, -, hmask⟩ := h
    refine ⟨fun _ => ⟨hz, rfl, rfl⟩, hassoc, fun i hi => ?_, hmask⟩
    exact absurd hz (requested_ne_zero (requested_of_isActive hi))

theorem EngineInv.command (h : EngineInv s) (hp : PortsInv s) {i : Instr} {n : Nat}
    (hw : nextWord s = some (.ok i n)) (ht : i ≠ .tick) (hs : i ≠ .sirq) : EngineInv (effect i s) := by
  rcases command_cases (nextWord_format hw) ht hs with rfl | ⟨p, a, b, rfl⟩ | ⟨p, rfl⟩ | ⟨p, ms, rfl⟩ | rfl
  · exact h.initStep
  · exact h.reqStep hp p a b
  · exact h.relStep p
  · exact h.xferStep p ms
  · exact h.unloadStep

/-- Another owner of the vector takes it from any engine and gives it back to a ready one (60_exceptions.md R248 to R251). -/
theorem EngineInv.applyEnv (h : EngineInv s) (e : EnvEvent) : EngineInv (applyEnv e s) := by
  obtain ⟨hunready, hassoc, htimer, hmask⟩ := id h
  cases e with
  | claim =>
    simp only [Machine.applyEnv]
    split
    · refine ⟨fun hn => ?_, hassoc, htimer, hmask⟩
      obtain ⟨hreq, henabled, -⟩ := hunready hn
      exact ⟨hreq, henabled, rfl⟩
    · exact h
  | release =>
    simp only [Machine.applyEnv]
    split
    next hc =>
      simp only [Bool.and_eq_true] at hc
      exact ⟨fun hn => by simp [hc.1.2] at hn, hassoc, htimer, hmask⟩
    next => exact h
  | quiet | timerFire | hostWrite | handles | ticking => exact h

theorem EngineInv.turn (ht : Turn s t) (hp : PortsInv s) (h : EngineInv s) : EngineInv t := by
  have hf : EngineInv (timerFire s) := h
  cases ht with
  | tick => exact h.tickStep
  | fireTick => exact hf.tickStep
  | fireTickWord n => exact hf.tickStep.congr rfl fun _ => id
  | service => exact h.companionService
  | held p => exact h.commitRel p
  | command i n hh hw ht hs => exact (h.command hp hw ht hs).congr rfl fun _ => id
  | callback | sirq | sirqWord | pass | fire | fireWord | rest | refused => exact h

/-- Settles O57: every turn and every environment event keeps the flags in agreement; of the ports' invariants REQ needs that
the port it takes is IDLE. -/
theorem engineInvKept : Obligations.EngineInvKept := by
  intro s t hp h hstep
  have hboth : PortsInv t ∧ EngineInv t := step_inv (Inv := fun s => PortsInv s ∧ EngineInv s)
    (fun _ _ h => ⟨h.1.congr rfl rfl rfl rfl, h.2⟩) (fun _ e h => ⟨h.1.applyEnv e, h.2.applyEnv e⟩)
    (fun _ _ hturn h => ⟨h.1.turn hturn, h.2.turn hturn h.1⟩) hstep ⟨hp, h⟩
  exact hboth.2

end EngineInv

end Sys2Proof.Machine

end

section
/-! PROOF. The start states (41_start_states.md): IDLE (R140), START (R141) and START2 (R142). -/

namespace Sys2Proof.Machine

section Start2

variable {s : State} {i : Fin 4} {d c : BitVec 8}

theorem PinsKept.setPort {t : State} {ns : List (BitVec 8)} (h : PinsKept s t ns) (p : Port) :
    PinsKept s (t.setPort i p) ns := h

/-- A drive of SDA touches no other pin. -/
theorem PortPins.pinsKept_sdaDrive (h : PortPins s i d c) (v : Bool) : PinsKept s (Machine.sdaDrive i v s) [d] := by
  rw [Machine.sdaDrive, h.1]
  exact pinsKept_drive

end Start2

/-- START2 is a drive of SDA and one write of the port's record, which the drive leaves alone. -/
theorem exec_start2 (s : State) :
    exec .start2 s = .next ((sdaDrive s.eng.cur false s).setPort s.eng.cur
      { s.port s.eng.cur with phase := false, nacked := false, state := .addr }) := by
  rw [exec_eq, effect, start2Step, port_sdaDrive]

/-- Settles O11: START2 is SDA's drive, whose laws give the pins and the trace, and then the write of the port's record. -/
theorem start2Result : Obligations.Start2Result := fun s _ _ hp =>
  ⟨_, exec_start2 s, State.port_setPort_self _ _ _, (hp.drivenTo_sdaDrive false).setPort _,
    (hp.pinsKept_sdaDrive false).setPort _, sdaDrive_trace hp.1 false,
    (OnlyPort.sdaDrive hp.1 false).trans (OnlyPort.setPort _ _ _)⟩

/-- Settles O9: the effect of IDLE is the identity. -/
theorem idleResult : Obligations.IdleResult := exec_eq .idle

/-- Settles O10: the effect of START is one write of the port's record. -/
theorem startResult : Obligations.StartResult := exec_eq .start

end Sys2Proof.Machine

end

section
/-! PROOF. The transmit states (42_transmit_states.md): ADDR (R145), WRITE (R147), WBIT (R149) and RACK (R151, R152). Each begins
with the clock generator; `shiftOut` is what the first three have in common. -/

namespace Sys2Proof.Machine

/-! The clock generator and what follows it in the same step. -/

section Clocked

variable {s t u : State} {i : Fin 4} {d c : BitVec 8}

/-- Two writes of pins keep every pin but those of either. -/
theorem PinsKept.trans (h : PinsKept s t [c]) (k : PinsKept t u [d]) : PinsKept s u [d, c] := fun m hm => by
  obtain ⟨hd, hc⟩ := not_or.1 (List.mem_cons.not.1 hm)
  obtain ⟨hout, hlatch⟩ := h m hc
  obtain ⟨kout, klatch⟩ := k m (List.mem_singleton.not.2 hd)
  exact ⟨kout.trans hout, klatch.trans hlatch⟩

/-- The clock generator touches SCL alone (40_tick_dispatch.md R124). -/
theorem PortPins.pinsKept_clockGen (h : PortPins s i d c) : PinsKept s (Machine.clockGen i s) [c] := fun m hm => by
  obtain ⟨-, hscl, -⟩ := h
  simp [PinKept, pinOutput_clockGen hscl, pinLatch_clockGen hscl, List.ne_of_not_mem_cons hm]

/-- Writing a port's record leaves the trace alone. -/
theorem Traced.setPort {es : List TraceEntry} (h : Traced s t es) (p : Port) : Traced s (t.setPort i p) es := h

/-- A release of SDA touches no other pin. -/
theorem PortPins.pinsKept_sdaRelease (h : PortPins s i d c) : PinsKept s (Machine.sdaRelease i s) [d] := by
  rw [Machine.sdaRelease, h.1]
  exact pinsKept_release

/-- A release of SDA leaves SCL alone. -/
theorem PortPins.scl_sdaRelease {v : Bool} (h : PortPins s i d c) (hc : DrivenTo s c v) :
    DrivenTo (Machine.sdaRelease i s) c v := by
  obtain ⟨hsda, -, hne⟩ := h
  simpa [DrivenTo, pinOutput_sdaRelease hsda, pinLatch_sdaRelease hsda, hne.symm] using hc

/-- A release of SDA after the clock generator makes it an input and keeps its latch (20_memory.md R67). -/
theorem PortPins.released_clockGen (h : PortPins s i d c) :
    pinOutput (Machine.sdaRelease i (Machine.clockGen i s)) d = false
    ∧ pinLatch (Machine.sdaRelease i (Machine.clockGen i s)) d = pinLatch s d := by
  rw [pinOutput_sdaRelease h.clockGen.1, pinLatch_sdaRelease h.clockGen.1, pinLatch_clockGen h.2.1, if_neg h.2.2]
  exact ⟨if_pos rfl, rfl⟩

/-- The trace of the clock generator and then a drive of SDA (20_memory.md R70). -/
theorem PortPins.traced_sdaDrive (h : PortPins s i d c) (v : Bool) :
    Traced s (Machine.sdaDrive i v (Machine.clockGen i s))
      (driveEntries .tick s c (!(s.port i).phase) ++ driveEntries .tick (asOutput s c) d v) := by
  rw [Traced, sdaDrive_trace h.clockGen.1, clockGen_trace h.2.1,
    driveEntries_clocked h.2.1 (clockGen_eng s i) (clockGen_plat s i) rfl, List.append_assoc]

/-- The trace of the clock generator and then a release of SDA (20_memory.md R70). -/
theorem PortPins.traced_sdaRelease (h : PortPins s i d c) :
    Traced s (Machine.sdaRelease i (Machine.clockGen i s))
      (driveEntries .tick s c (!(s.port i).phase) ++ releaseEntries .tick (asOutput s c) d) := by
  rw [Traced, sdaRelease_trace h.clockGen.1, clockGen_trace h.2.1,
    releaseEntries_clocked h.2.1 (clockGen_eng s i) (clockGen_plat s i) rfl, List.append_assoc]

/-- A sample after the clock generator sees the line of before: the generator moves SCL only (20_memory.md R68). -/
theorem PortPins.sampleBit_clockGen (h : PortPins s i d c) : sampleBit i (Machine.clockGen i s) = sdaLine s i d := by
  rw [sampleBit_eq _ i d h.clockGen.1]
  obtain ⟨-, hscl, hne⟩ := h
  rw [sdaLine, sdaLine, pinOutput_clockGen hscl, pinLatch_clockGen hscl, if_neg hne, if_neg hne]
  simp [busBit]

end Clocked

/-- The frame keeps the faults. -/
theorem OnlyPort.faults_eq {s t : State} {i : Fin 4} (h : OnlyPort i s t) : t.faults = s.faults := by
  rw [h.1]

/-! Shifting out. -/

/-- A step that shifts a bit out: the clock generator; while SCL falls, SDA to `v`; the port's record becomes `q`
(40_tick_dispatch.md R124, 42_transmit_states.md R149). -/
def shiftOut (i : Fin 4) (v : Bool) (q : Port) (s : State) : State :=
  if (s.port i).phase = true then (sdaDrive i v (clockGen i s)).setPort i q else (clockGen i s).setPort i q

section ShiftOut

variable {s u : State} {i : Fin 4} {d c : BitVec 8} {q : Port}

theorem port_shiftOut (v : Bool) : (shiftOut i v q s).port i = q := by
  unfold shiftOut
  split <;> exact State.port_setPort_self _ _ _

theorem PortPins.scl_shiftOut (h : PortPins s i d c) (v : Bool) :
    DrivenTo (Machine.shiftOut i v q s) c (!(s.port i).phase) := by
  unfold Machine.shiftOut
  split
  · exact (h.clockGen.scl_sdaDrive h.drivenTo_clockGen v).setPort q
  · exact h.drivenTo_clockGen.setPort q

theorem PortPins.onlyPort_shiftOut (h : PortPins s i d c) (v : Bool) : OnlyPort i s (Machine.shiftOut i v q s) := by
  have hclock : OnlyPort i s (Machine.clockGen i s) := OnlyPort.clockGen h.2.1
  unfold Machine.shiftOut
  split
  · exact (hclock.trans (OnlyPort.sdaDrive h.clockGen.1 v)).trans (OnlyPort.setPort _ _ _)
  · exact hclock.trans (OnlyPort.setPort _ _ _)

theorem PortPins.traced_shiftOut (h : PortPins s i d c) (v : Bool) :
    Traced s (Machine.shiftOut i v q s) (driveEntries .tick s c (!(s.port i).phase)
      ++ if (s.port i).phase = true then driveEntries .tick (asOutput s c) d v else []) := by
  unfold Machine.shiftOut
  split
  · exact (h.traced_sdaDrive v).setPort q
  · rw [List.append_nil]
    exact clockGen_trace h.2.1

/-- While SCL falls, the bit goes to SDA. -/
theorem PortPins.sda_shiftOut (h : PortPins s i d c) (v : Bool) (hphase : (s.port i).phase = true) :
    DrivenTo (Machine.shiftOut i v q s) d v ∧ PinsKept s (Machine.shiftOut i v q s) [d, c] := by
  rw [Machine.shiftOut, if_pos hphase]
  exact ⟨(h.clockGen.drivenTo_sdaDrive v).setPort q,
    (h.pinsKept_clockGen.trans (h.clockGen.pinsKept_sdaDrive v)).setPort q⟩

/-- While SCL rises, every other pin is kept. -/
theorem PortPins.pinsKept_shiftOut (h : PortPins s i d c) (v : Bool) (hphase : (s.port i).phase = false) :
    PinsKept s (Machine.shiftOut i v q s) [c] := by
  rw [Machine.shiftOut, if_neg (by simp [hphase])]
  exact h.pinsKept_clockGen.setPort q

/-! TxSetup (42_transmit_states.md R148). -/

/-- A drive of SDA does not look at the rest of the port's record. -/
theorem sdaDrive_setPort (hsda : (u.port i).sda = gpioPin d) (hq : q.sda = gpioPin d) (v : Bool) :
    sdaDrive i v (u.setPort i q) = (sdaDrive i v u).setPort i q := by
  rw [sdaDrive, sdaDrive, State.port_setPort_self, hsda, hq, drive_eq, drive_eq]
  rfl

/-- WBIT's action with SCL low (42_transmit_states.md R149). -/
theorem wbitAction_fall (hsda : (u.port i).sda = gpioPin d) (hq : q.sda = gpioPin d) (hphase : q.phase = false) :
    wbitAction i (u.setPort i q) =
      (sdaDrive i (q.dataByte &&& q.bitMask != 0) u).setPort i { q with bitMask := q.bitMask >>> 1 } := by
  simp only [wbitAction, State.port_setPort_self, hphase, if_true, port_sdaDrive]
  rw [sdaDrive_setPort hsda hq, State.setPort_setPort]

/-- WBIT's action with SCL high and a bit left (42_transmit_states.md R149). -/
theorem wbitAction_rise (hphase : q.phase = true) (hmask : q.bitMask ≠ 0) :
    wbitAction i (u.setPort i q) = u.setPort i q := by
  simp only [wbitAction, State.port_setPort_self, hphase, hmask, Bool.true_eq_false, if_false]

/-- The record of a port that has begun to shift out a byte with the clock inverted; bit 7 is out only if SCL fell. -/
def loadedPort (p : Port) (byte : Byte) (offset : BitVec 16) : Port :=
  { p with
    phase := !p.phase
    dataByte := byte
    bufOffset := offset
    bitMask := if p.phase then 0x40 else 0x80
    state := .wbit }

/-- The clock generator, a new byte and cursor, and TxSetup are one shift-out of bit 7. -/
theorem txSetup_clockGen (h : PortPins s i d c) (byte : Byte) (offset : BitVec 16) :
    txSetup i ((clockGen i s).setPort i { (clockGen i s).port i with dataByte := byte, bufOffset := offset })
      = shiftOut i (byte.getLsbD 7) (loadedPort (s.port i) byte offset) s := by
  simp only [txSetup, shiftOut, loadedPort, State.setPort_setPort, State.port_setPort_self, port_clockGen_self]
  cases hphase : (s.port i).phase
  case false => exact wbitAction_rise rfl (show bitMaskInit ≠ 0 by decide)
  case true =>
    refine Eq.trans (wbitAction_fall h.clockGen.1 h.1 rfl) ?_
    simp only [and_bitMaskInit, show bitMaskInit >>> 1 = 0x40 by decide, Bool.not_true, if_true]

/-! The message store (20_memory.md R72). -/

/-- A read beyond the message leaves its mark (20_memory.md R72). -/
theorem noteBufRead_eq (k : BitVec 1) (j : BitVec 16) :
    noteBufRead i k j s = { s with
      faults := if j < ((s.port i).msg k).len then s.faults else addOnce .invariantBroken s.faults } := by
  unfold noteBufRead
  split <;> rfl

/-- The clock generator changes no message. -/
theorem msg_clockGen (k : BitVec 1) : ((clockGen i s).port i).msg k = (s.port i).msg k := by
  rw [port_clockGen_self]
  rfl

theorem bufRead_clockGen (k : BitVec 1) (j : BitVec 16) : bufRead i k j (clockGen i s) = bufRead i k j s := by
  rw [bufRead, bufRead, msg_clockGen, clockGen_store]

/-- The mark may come before the clock generator, which does not look at the faults. -/
theorem noteBufRead_clockGen (hscl : (s.port i).scl = gpioPin c) (k : BitVec 1) (j : BitVec 16) :
    noteBufRead i k j (clockGen i s) = clockGen i (noteBufRead i k j s) := by
  have hmark (r : Fault) : clockGen i (s.fault r) = (clockGen i s).fault r := by
    simp only [clockGen, sclDrive, State.port_setPort_self, State.port_fault, hscl, drive_eq]
    rfl
  unfold noteBufRead
  rw [msg_clockGen]
  split
  · rfl
  · exact (hmark _).symm

end ShiftOut

/-! The four states. -/

section Transmit

variable {s : State} {i : Fin 4} {d c : BitVec 8}

/-- ADDR shifts out the first bit of the address byte (42_transmit_states.md R145). -/
theorem addrStep_eq (h : PortPins s i d c) :
    addrStep i s = shiftOut i ((addrByte (s.port i).cur).getLsbD 7) (loadedPort (s.port i) (addrByte (s.port i).cur) 0) s :=
  txSetup_clockGen h _ _

/-- WRITE shifts out the first bit of the message's next byte, after the mark of a read beyond the message
(42_transmit_states.md R147). -/
theorem writeStep_eq (h : PortPins s i d c) :
    writeStep i s =
      shiftOut i ((bufRead i (s.port i).curMsg (s.port i).bufOffset s).getLsbD 7)
        (loadedPort (s.port i) (bufRead i (s.port i).curMsg (s.port i).bufOffset s) ((s.port i).bufOffset + 1))
        (noteBufRead i (s.port i).curMsg (s.port i).bufOffset s) := by
  have hpins : PortPins (noteBufRead i (s.port i).curMsg (s.port i).bufOffset s) i d c := h.of_port (by simp) (by simp)
  have hload := txSetup_clockGen hpins (bufRead i (s.port i).curMsg (s.port i).bufOffset s) ((s.port i).bufOffset + 1)
  rw [port_noteBufRead, ← noteBufRead_clockGen h.2.1] at hload
  rw [← hload, writeStep, bufRead_clockGen, port_clockGen_self]

/-- WBIT shifts out the bit under the mask (42_transmit_states.md R149). -/
theorem wbitStep_eq (s : State) (i : Fin 4) :
    wbitStep i s = shiftOut i ((s.port i).dataByte &&& (s.port i).bitMask != 0)
      (if (s.port i).phase = true then { s.port i with phase := false, bitMask := (s.port i).bitMask >>> 1 }
      else { s.port i with phase := true, state := if (s.port i).bitMask = 0 then .rack else (s.port i).state }) s := by
  cases hphase : (s.port i).phase
  case false => simp [wbitStep_rise hphase, shiftOut, hphase]
  case true => simp [wbitStep_fall hphase, shiftOut, hphase]

/-- RACK while SCL falls releases SDA (42_transmit_states.md R151). -/
theorem rackStep_fall (h : (s.port i).phase = true) : rackStep i s = sdaRelease i (clockGen i s) := by
  simp [rackStep, h]

/-- The record of a port that has sampled `b` in RACK (42_transmit_states.md R152). -/
def ackedPort (p : Port) (noack : Int) (b : Bool) : Port :=
  if b = false then
    if p.bufOffset < p.cur.len then { p with phase := true, waitCycles := 4, state := .wait }
    else { p with phase := true, state := .stop }
  else { p with phase := true, nacked := true, result := noack, state := .stop }

/-- RACK while SCL rises samples SDA and decides (42_transmit_states.md R152). -/
theorem rackStep_rise (hp : PortPins s i d c) (h : (s.port i).phase = false) :
    rackStep i s = (noteSample i (clockGen i s)).setPort i (ackedPort (s.port i) s.plat.noackCode (sdaLine s i d)) := by
  simp only [rackStep, hp.sampleBit_clockGen, port_clockGen_self, port_noteSample, h, ackedPort, goto]
  cases sdaLine s i d
  case true => simp
  case false =>
    by_cases hlt : (s.port i).bufOffset < (s.port i).cur.len <;> simp [hlt, waitAfterWriteAck]

end Transmit

/-! The statements. -/

/-- Settles O14: WBIT is a shift-out of the bit under the mask. -/
theorem wbitResult : Obligations.WbitResult := by
  intro s d c hp p
  refine ⟨_, (exec_eq .wbit s).trans (congrArg _ (wbitStep_eq s s.eng.cur)), hp.scl_shiftOut _, hp.onlyPort_shiftOut _,
    hp.traced_shiftOut _, ?_⟩
  split
  next hphase => exact ⟨port_shiftOut _, hp.sda_shiftOut _ hphase⟩
  next hphase => exact ⟨port_shiftOut _, hp.pinsKept_shiftOut _ (Bool.eq_false_of_not_eq_true hphase)⟩

/-- Settles O12: ADDR is a shift-out of bit 7 of the address byte. -/
theorem addrResult : Obligations.AddrResult := by
  intro s d c hp p byte
  have hbyte : addrByte p.cur = byte := addrByte_append p.cur
  have hstep := addrStep_eq hp
  rw [hbyte] at hstep
  refine ⟨_, (exec_eq .addr s).trans (congrArg _ hstep), hp.scl_shiftOut _, hp.onlyPort_shiftOut _, hp.traced_shiftOut _, ?_⟩
  split
  next hphase => exact ⟨by rw [port_shiftOut, loadedPort, hphase]; rfl, hp.pinsKept_shiftOut _ hphase⟩
  next hphase =>
    have hphase : (s.port s.eng.cur).phase = true := Bool.eq_true_of_not_eq_false hphase
    exact ⟨by rw [port_shiftOut, loadedPort, hphase]; rfl, hp.sda_shiftOut _ hphase⟩

/-- Settles O13: WRITE is a shift-out of bit 7 of the message's next byte, once the mark of a read beyond the message is set. -/
theorem writeResult : Obligations.WriteResult := by
  intro s d c hp i p byte
  have hpins : PortPins (noteBufRead i p.curMsg p.bufOffset s) i d c := hp.of_port (by simp) (by simp)
  have hstep : exec .write s = .next (shiftOut i (byte.getLsbD 7) (loadedPort p byte (p.bufOffset + 1))
      (noteBufRead i p.curMsg p.bufOffset s)) := (exec_eq .write s).trans (congrArg _ (writeStep_eq hp))
  rw [noteBufRead_eq] at hpins hstep
  have honly := hpins.onlyPort_shiftOut (q := loadedPort p byte (p.bufOffset + 1)) (byte.getLsbD 7)
  have hfaults := honly.faults_eq
  refine ⟨_, hstep, hpins.scl_shiftOut _, hfaults, ?_, hpins.traced_shiftOut _, ?_⟩
  · rw [hfaults]
    exact honly
  split
  next hphase => exact ⟨by rw [port_shiftOut, loadedPort, hphase]; rfl, hpins.sda_shiftOut _ hphase⟩
  next hphase =>
    have hphase : p.phase = false := Bool.eq_false_of_not_eq_true hphase
    exact ⟨by rw [port_shiftOut, loadedPort, hphase]; rfl, hpins.pinsKept_shiftOut _ hphase⟩

/-- Settles O15: RACK releases SDA after the clock generator, or samples it there and writes the port's record. -/
theorem rackResult : Obligations.RackResult := by
  intro s d c hp p
  have hclock := hp.drivenTo_clockGen
  have honly : OnlyPort s.eng.cur s (clockGen s.eng.cur s) := OnlyPort.clockGen hp.2.1
  refine ⟨_, exec_eq .rack s, ?_⟩
  split
  next hphase =>
    have hstep : effect .rack s = _ := rackStep_fall hphase
    obtain ⟨hout, hlatch⟩ := hp.released_clockGen
    rw [hstep]
    refine ⟨hp.clockGen.scl_sdaRelease hclock, hp.traced_sdaRelease, ?_, hout, hlatch,
      hp.pinsKept_clockGen.trans hp.clockGen.pinsKept_sdaRelease, honly.trans (OnlyPort.sdaRelease hp.clockGen.1)⟩
    rw [port_sdaRelease, port_clockGen_self, hphase]
    rfl
  next hphase =>
    have hstep : effect .rack s = _ := rackStep_rise hp (Bool.eq_false_of_not_eq_true hphase)
    have hsampled := honly.sampled hp.clockGen.1
      (OnlyPort.setPort s.eng.cur _ (ackedPort p s.plat.noackCode (sdaLine s s.eng.cur d)))
    rw [hstep, State.port_setPort_self]
    rw [noteSample_eq _ _ d hp.clockGen.1] at hsampled ⊢
    rw [List.append_nil]
    exact ⟨hclock, clockGen_trace hp.2.1, rfl, hp.pinsKept_clockGen, hsampled⟩

end Sys2Proof.Machine

end

section
/-! PROOF. The receive states (43_receive_states.md): READ (R160), RBIT (R162) and WACK (R164, R165). Each begins with the clock
generator; READ and RBIT then share RBIT's action, and WACK is a shift-out of the acknowledge. -/

namespace Sys2Proof.Machine

/-! What does not write GPIO leaves the pins and the trace alone. -/

section Quiet

variable {s t u : State} {n : BitVec 8} {v : Bool}

theorem DrivenTo.congr (h : DrivenTo t n v) (hgpio : u.gpio = t.gpio) (hplat : u.plat = t.plat) : DrivenTo u n v := by
  simpa [DrivenTo, pinOutput, pinLatch, hgpio, hplat] using h

theorem PinsKept.congr {ns : List (BitVec 8)} (h : PinsKept s t ns) (hgpio : u.gpio = t.gpio) (hplat : u.plat = t.plat) :
    PinsKept s u ns := by
  simpa [PinsKept, PinKept, pinOutput, pinLatch, hgpio, hplat] using h

theorem Traced.congr {es : List TraceEntry} (h : Traced s t es) (hobs : u.obs = t.obs) : Traced s u es := by
  rwa [Traced, hobs]

end Quiet

/-! A store into the current message (20_memory.md R72). -/

section Store

variable {s t u : State} {i : Fin 4} {q : Port}

/-- A store within the message changes its byte; one beyond it leaves a mark instead (20_memory.md R72). -/
theorem bufWrite_eq (k : BitVec 1) (j : BitVec 16) (x : Byte) :
    bufWrite i k j x s = { s with
      store := if j < ((s.port i).msg k).len then s.store.write (storeAddr i k j.toNat) x else s.store
      faults := if j < ((s.port i).msg k).len then s.faults else addOnce .invariantBroken s.faults } := by
  unfold bufWrite
  split <;> rfl

/-- A store looks at the length of the message alone of the port's record. -/
theorem bufWrite_setPort {k : BitVec 1} (hq : q.msg k = (u.port i).msg k) (j : BitVec 16) (x : Byte) :
    bufWrite i k j x (u.setPort i q) = (bufWrite i k j x u).setPort i q := by
  rw [bufWrite_eq, bufWrite_eq, State.port_setPort_self, hq]
  rfl

/-- The frame of a sample with the same store and the same faults on both sides. -/
theorem OnlyPortSampled.stored (h : OnlyPortSampled i s t) (m : Memory) (f : List Fault) :
    OnlyPortSampled i { s with store := m, faults := f } { t with store := m, faults := f } := by
  obtain ⟨ht, htrace⟩ := h
  refine ⟨?_, htrace⟩
  rw [ht]
  simp [State.port]

end Store

/-! RBIT's action (43_receive_states.md R162). -/

section RbitAction

variable {u : State} {i : Fin 4}

/-- The record of a port that has sampled `v` in RBIT's action. -/
def sampledPort (p : Port) (v : Bool) : Port := { p with dataByte := takenByte p v, bitMask := p.bitMask >>> 1 }

/-- With SCL low, RBIT's action does nothing. -/
theorem rbitAction_fall (h : (u.port i).phase = false) : rbitAction i u = u := if_pos h

/-- With SCL high and a bit left, it samples SDA into the bit under the mask. -/
theorem rbitAction_rise (h : (u.port i).phase = true) (hmask : (u.port i).bitMask >>> 1 ≠ 0) :
    rbitAction i u = (noteSample i u).setPort i (sampledPort (u.port i) (sampleBit i u)) := by
  rw [rbitAction, if_neg (by simp [h]), if_neg hmask, port_noteSample]
  rfl

/-- With SCL high and the eighth bit, it also stores the byte, advances the cursor and goes to WACK. -/
theorem rbitAction_last (h : (u.port i).phase = true) (hmask : (u.port i).bitMask >>> 1 = 0) :
    rbitAction i u =
      (bufWrite i (u.port i).curMsg (u.port i).bufOffset (takenByte (u.port i) (sampleBit i u)) (noteSample i u)).setPort i
        { sampledPort (u.port i) (sampleBit i u) with bufOffset := (u.port i).bufOffset + 1, state := .wack } := by
  rw [rbitAction, if_neg (by simp [h]), if_pos hmask, port_noteSample,
    bufWrite_setPort (by rw [port_noteSample]; rfl), State.setPort_setPort, State.port_setPort_self]
  rfl

end RbitAction

/-! The three states. -/

section Receive

variable {s : State} {i : Fin 4} {d c : BitVec 8}

/-- The record of a port that has begun to receive a byte with the clock inverted (43_receive_states.md R160). -/
def clearedPort (p : Port) : Port := { p with phase := !p.phase, dataByte := 0, bitMask := bitMaskInit, state := .rbit }

/-- The first bit goes to bit 7 of the byte (30_encoding.md R95). -/
theorem sampledPort_clearedPort (p : Port) (v : Bool) :
    sampledPort (clearedPort p) v = { clearedPort p with dataByte := if v then 0x80 else 0, bitMask := 0x40 } := by
  have hmask : bitMaskInit >>> 1 = 0x40 := by decide
  have hbyte : takenByte (clearedPort p) v = if v then 0x80 else 0 := by
    cases v
    · rfl
    · exact BitVec.zero_or
  rw [sampledPort, hbyte, show (clearedPort p).bitMask = bitMaskInit from rfl, hmask]

/-- What READ does before RBIT's action: the clock generator, SDA's release, and the cleared record. -/
def rxSetup (i : Fin 4) (s : State) : State := (sdaRelease i (clockGen i s)).setPort i (clearedPort (s.port i))

@[simp] theorem port_rxSetup (i : Fin 4) (s : State) : (rxSetup i s).port i = clearedPort (s.port i) :=
  State.port_setPort_self _ _ _

theorem PortPins.rxSetup (h : PortPins s i d c) : PortPins (Machine.rxSetup i s) i d c :=
  h.of_port (by simp [clearedPort]) (by simp [clearedPort])

/-- SDA is an input with its latch kept. -/
theorem PortPins.released_rxSetup (h : PortPins s i d c) :
    pinOutput (Machine.rxSetup i s) d = false ∧ pinLatch (Machine.rxSetup i s) d = pinLatch s d := h.released_clockGen

theorem PortPins.drivenTo_rxSetup (h : PortPins s i d c) : DrivenTo (Machine.rxSetup i s) c (!(s.port i).phase) :=
  (h.clockGen.scl_sdaRelease h.drivenTo_clockGen).setPort _

theorem PortPins.pinsKept_rxSetup (h : PortPins s i d c) : PinsKept s (Machine.rxSetup i s) [d, c] :=
  (h.pinsKept_clockGen.trans h.clockGen.pinsKept_sdaRelease).setPort _

theorem PortPins.traced_rxSetup (h : PortPins s i d c) :
    Traced s (Machine.rxSetup i s) (driveEntries .tick s c (!(s.port i).phase) ++ releaseEntries .tick (asOutput s c) d) :=
  h.traced_sdaRelease.setPort _

theorem PortPins.onlyPort_rxSetup (h : PortPins s i d c) : OnlyPort i s (Machine.rxSetup i s) :=
  ((OnlyPort.clockGen h.2.1).trans (OnlyPort.sdaRelease h.clockGen.1)).trans (OnlyPort.setPort _ _ _)

/-- A sample on the line it has released draws the bus's bit (10_state.md R35, R39). -/
theorem PortPins.sampleBit_rxSetup (h : PortPins s i d c) : sampleBit i (Machine.rxSetup i s) = busBit i s := by
  obtain ⟨hout, -⟩ := h.released_rxSetup
  rw [sampleBit_eq _ i d h.rxSetup.1, sdaLine, hout]
  simp [busBit, Machine.rxSetup]

/-- READ goes on into RBIT's action (43_receive_states.md R160). -/
theorem readStep_eq (s : State) (i : Fin 4) : readStep i s = rbitAction i (rxSetup i s) := by
  rw [readStep, port_sdaRelease, port_clockGen_self]
  rfl

/-- READ while SCL falls samples nothing. -/
theorem readStep_fall (h : (s.port i).phase = true) : readStep i s = rxSetup i s := by
  rw [readStep_eq, rbitAction_fall (by simp [clearedPort, h])]

/-- READ while SCL rises samples the first bit. -/
theorem readStep_rise (hp : PortPins s i d c) (h : (s.port i).phase = false) :
    readStep i s = (noteSample i (rxSetup i s)).setPort i (sampledPort (clearedPort (s.port i)) (busBit i s)) := by
  have hmask : bitMaskInit >>> 1 ≠ 0 := by decide
  rw [readStep_eq, rbitAction_rise (by simp [clearedPort, h]) (by rw [port_rxSetup]; exact hmask), hp.sampleBit_rxSetup,
    port_rxSetup]

/-- RBIT while SCL rises, with a bit left, samples SDA. -/
theorem rbitStep_sample (hp : PortPins s i d c) (h : (s.port i).phase = false) (hmask : (s.port i).bitMask >>> 1 ≠ 0) :
    rbitStep i s = (noteSample i (clockGen i s)).setPort i
      { sampledPort (s.port i) (sdaLine s i d) with phase := true } := by
  rw [rbitStep, rbitAction_rise (by simp [h]) (by rwa [port_clockGen_self]), hp.sampleBit_clockGen, port_clockGen_self, h]
  rfl

/-- RBIT while SCL rises, at the eighth bit, samples SDA and stores the byte, or leaves its mark (20_memory.md R72). -/
theorem rbitStep_store (hp : PortPins s i d c) (h : (s.port i).phase = false) (hmask : (s.port i).bitMask >>> 1 = 0) :
    rbitStep i s =
      { (noteSample i (clockGen i s)).setPort i
          { sampledPort (s.port i) (sdaLine s i d) with
            phase := true
            bufOffset := (s.port i).bufOffset + 1
            state := .wack } with
        store := if (s.port i).bufOffset < (s.port i).cur.len then
            s.store.write (storeAddr i (s.port i).curMsg (s.port i).bufOffset.toNat) (takenByte (s.port i) (sdaLine s i d))
          else s.store
        faults := if (s.port i).bufOffset < (s.port i).cur.len then s.faults else addOnce .invariantBroken s.faults } := by
  rw [rbitStep, rbitAction_last (by simp [h]) (by rwa [port_clockGen_self]), hp.sampleBit_clockGen, bufWrite_eq,
    port_noteSample, noteSample_store, noteSample_faults, clockGen_store, clockGen_faults, port_clockGen_self, h]
  rfl

/-- The record of a port that has gone through WACK (43_receive_states.md R164, R165). -/
def wackedPort (p : Port) : Port :=
  if p.phase = true then { p with phase := false }
  else if p.bufOffset < p.cur.len then { p with phase := true, waitCycles := 2, state := .wait }
  else { p with phase := true, state := .stop }

/-- WACK shifts out the acknowledge: 1 after the last byte, else 0 (43_receive_states.md R164, R165). -/
theorem wackStep_eq (s : State) (i : Fin 4) :
    wackStep i s = shiftOut i (decide ((s.port i).bufOffset = (s.port i).cur.len)) (wackedPort (s.port i)) s := by
  cases hphase : (s.port i).phase
  case true =>
    have hq : wackedPort (s.port i) =
        (sdaDrive i (decide ((s.port i).bufOffset = (s.port i).cur.len)) (clockGen i s)).port i := by
      simp [wackedPort, hphase]
    rw [hq, shiftOut, if_pos hphase, State.setPort_port, wackStep, if_pos (by simp [hphase]), port_clockGen_self]
    rfl
  case false =>
    simp only [wackStep, shiftOut, wackedPort, port_clockGen_self, goto, hphase]
    by_cases hlt : (s.port i).bufOffset < (s.port i).cur.len <;> simp [hlt, waitAfterReadAck]

end Receive

/-! The statements. -/

/-- Settles O18: WACK is a shift-out of the acknowledge. -/
theorem wackResult : Obligations.WackResult := by
  intro s d c hp p
  refine ⟨_, (exec_eq .wack s).trans (congrArg _ (wackStep_eq s s.eng.cur)), hp.scl_shiftOut _,
    hp.onlyPort_shiftOut _, hp.traced_shiftOut _, ?_⟩
  rw [port_shiftOut]
  split
  next hphase => exact ⟨if_pos hphase, hp.sda_shiftOut _ hphase⟩
  next hphase => exact ⟨if_neg hphase, hp.pinsKept_shiftOut _ (Bool.eq_false_of_not_eq_true hphase)⟩

/-- Settles O16: READ is its setup, then nothing or one sample. -/
theorem readResult : Obligations.ReadResult := by
  intro s d c hp p
  have hclock := hp.drivenTo_rxSetup
  have htrace := hp.traced_rxSetup
  have hkept := hp.pinsKept_rxSetup
  have honly := hp.onlyPort_rxSetup
  obtain ⟨hout, hlatch⟩ := hp.released_rxSetup
  refine ⟨_, exec_eq .read s, ?_⟩
  rw [effect]
  split
  next hphase =>
    rw [readStep_fall hphase]
    refine ⟨hclock, htrace, hout, hlatch, hkept, ?_, honly⟩
    rw [port_rxSetup, clearedPort, hphase]
    rfl
  next hphase =>
    have hphase : p.phase = false := Bool.eq_false_of_not_eq_true hphase
    rw [readStep_rise hp hphase]
    refine ⟨hclock.congr (by simp) (by simp), htrace.congr (by simp), by simpa using hout, by simpa using hlatch,
      hkept.congr (by simp) (by simp), ?_, honly.sampled hp.rxSetup.1 (OnlyPort.setPort _ _ _)⟩
    rw [State.port_setPort_self, sampledPort_clearedPort, clearedPort, hphase]
    rfl

/-- Settles O17: RBIT is the clock generator, then nothing, or one sample, or one sample and the store of the byte. -/
theorem rbitResult : Obligations.RbitResult := by
  intro s d c hp hwf i p data mask
  have hclock := hp.drivenTo_clockGen
  have hkept := hp.pinsKept_clockGen
  have htrace : Traced s (clockGen s.eng.cur s) _ := clockGen_trace hp.2.1
  have honly : OnlyPort i s (clockGen i s) := OnlyPort.clockGen hp.2.1
  have hsampled (q : Port) : OnlyPortSampled i s ((noteSample i (clockGen i s)).setPort i q) :=
    honly.sampled hp.clockGen.1 (OnlyPort.setPort _ _ _)
  refine ⟨_, exec_eq .rbit s, ?_⟩
  rw [effect]
  split
  next hphase =>
    rw [rbitStep_fall hphase]
    refine ⟨hclock, hkept, htrace, ?_, honly⟩
    rw [port_clockGen_self, hphase]
    rfl
  next hphase =>
    have hphase : p.phase = false := Bool.eq_false_of_not_eq_true hphase
    split
    next hmask =>
      rw [rbitStep_sample hp hphase hmask]
      exact ⟨hclock.congr (by simp) (by simp), hkept.congr (by simp) (by simp), htrace.congr (by simp),
        State.port_setPort_self _ _ _, hsampled _⟩
    next hmask =>
      rw [rbitStep_store hp hphase (not_not.1 hmask)]
      refine ⟨hclock.congr (by simp) (by simp), hkept.congr (by simp) (by simp), htrace.congr (by simp),
        State.port_setPort_self _ _ _, (hsampled _).stored _ _, ?_⟩
      split
      · exact ⟨rfl, fun _ => Memory.read_write hwf _ _ _⟩
      · exact ⟨rfl, rfl⟩

end Sys2Proof.Machine

end

section
/-! PROOF. The stop and wait states (44_stop_wait_states.md): WAIT (R170, R171), STOP (R174), STOP2 (R178), RESTART (R181),
STOP3 (R183) and COMPLETE (R185), and the wire sequence between two messages (R179). STOP2 and RESTART are alike: a drive of SCL
and one write of the port's record. -/

namespace Sys2Proof.Machine

/-! WAIT. -/

section Wait

variable {s : State} {i : Fin 4}

/-- WAIT with a count of at most 1 expires to READ or WRITE (44_stop_wait_states.md R170, R171). -/
theorem waitStep_expire (h : (s.port i).waitCycles.toNat ≤ 1) :
    waitStep i s = s.setPort i
      { s.port i with waitCycles := 0, state := if (s.port i).cur.rd then .read else .write } := by
  have hnext : (if (s.port i).waitCycles = 0 then 0 else (s.port i).waitCycles - 1) = 0 := by
    split <;> bv_omega
  simp only [waitStep, hnext, if_true]

/-- WAIT with a count above 1 counts down (44_stop_wait_states.md R170). -/
theorem waitStep_count (h : 1 < (s.port i).waitCycles.toNat) :
    waitStep i s = s.setPort i { s.port i with waitCycles := (s.port i).waitCycles - 1 } := by
  have hpos : (s.port i).waitCycles ≠ 0 := by bv_omega
  have hnext : (s.port i).waitCycles - 1 ≠ 0 := by bv_omega
  simp only [waitStep, hpos, hnext, if_false]

/-- After `k` ticks in WAIT, fewer than the count, the count is down by `k` and nothing else has changed
(44_stop_wait_states.md R170). -/
theorem iterate_wait {n : Nat} (hn : n < 256) (hcount : (s.port s.eng.cur).waitCycles = BitVec.ofNat 8 n) (k : Nat)
    (hk : k < n) :
    (effect .wait)^[k] s = s.setPort s.eng.cur { s.port s.eng.cur with waitCycles := BitVec.ofNat 8 (n - k) } := by
  induction k with
  | zero => rw [Nat.sub_zero, ← hcount]; exact (State.setPort_port s _).symm
  | succ k ih =>
    have hlast : 1 < (BitVec.ofNat 8 (n - k)).toNat := by rw [BitVec.toNat_ofNat]; omega
    have hdown : BitVec.ofNat 8 (n - k) - 1 = BitVec.ofNat 8 (n - (k + 1)) := by bv_omega
    rw [Function.iterate_succ_apply', ih (by omega), effect, State.setPort_eng,
      waitStep_count (by rwa [State.port_setPort_self]), State.port_setPort_self, State.setPort_setPort, hdown]

end Wait

/-- Settles O20: the count after each tick is `iterate_wait`'s, and the last tick finds it at 1. -/
theorem waitTicks : Obligations.WaitTicks := by
  intro s n hpos _ hcount hn
  have hticks := iterate_wait hn hcount
  refine ⟨fun k hk => (execTimes_eq .wait k s).trans (congrArg _ (hticks k hk)), ?_⟩
  obtain ⟨m, rfl⟩ := Nat.exists_eq_add_of_le' hpos
  have hlast : (BitVec.ofNat 8 (m + 1 - m)).toNat ≤ 1 := by simp
  rw [execTimes_succ, hticks m (Nat.lt_succ_self m), effect, State.setPort_eng,
    waitStep_expire (by rwa [State.port_setPort_self]), State.port_setPort_self, State.setPort_setPort]
  rfl

/-- Settles O19, from the two cases of the count. -/
theorem waitResult : Obligations.WaitResult := fun s =>
  ⟨fun h => (exec_eq .wait s).trans (congrArg _ (waitStep_expire h)),
    fun h => (exec_eq .wait s).trans (congrArg _ (waitStep_count h))⟩

/-! Drives of SCL, and what they leave alone. -/

section Lines

variable {s t : State} {i : Fin 4} {d c m : BitVec 8} {v : Bool}

/-- A kept pin is driven as before. -/
theorem PinsKept.drivenTo {ns : List (BitVec 8)} (h : PinsKept s t ns) (hm : m ∉ ns) (hs : DrivenTo s m v) :
    DrivenTo t m v := by
  obtain ⟨hout, hlatch⟩ := h m hm
  obtain ⟨sout, slatch⟩ := hs
  exact ⟨hout.trans sout, hlatch.trans slatch⟩

/-- The frame keeps the engine, and with it which port is being stepped. -/
theorem OnlyPort.eng_eq (h : OnlyPort i s t) : t.eng = s.eng := by rw [h.1]

/-- A drive of SCL does not look at the rest of the port's record. -/
theorem PortPins.sclDrive_setPort (h : PortPins s i d c) {q : Port} (hq : q.scl = (s.port i).scl) (v : Bool) :
    Machine.sclDrive i v (s.setPort i q) = (Machine.sclDrive i v s).setPort i q := by
  rw [Machine.sclDrive, Machine.sclDrive, State.port_setPort_self, hq, h.2.1, drive_eq, drive_eq]
  rfl

/-- A drive of SCL and then a write of the port's record: SCL at `v`, every other pin kept, the two writes of the drive in the
trace, and nothing else changed (20_memory.md R66). -/
theorem PortPins.sclDrive_result (h : PortPins s i d c) (v : Bool) (q : Port) :
    ((Machine.sclDrive i v s).setPort i q).port i = q
    ∧ DrivenTo ((Machine.sclDrive i v s).setPort i q) c v
    ∧ PinsKept s ((Machine.sclDrive i v s).setPort i q) [c]
    ∧ Traced s ((Machine.sclDrive i v s).setPort i q) (driveEntries .tick s c v)
    ∧ OnlyPort i s ((Machine.sclDrive i v s).setPort i q) := by
  have honly := OnlyPort.sclDrive h.2.1 v
  rw [Machine.sclDrive, h.2.1] at honly ⊢
  exact ⟨State.port_setPort_self _ _ _, drivenTo_drive.setPort q, pinsKept_drive.setPort q, (drive_trace _ _ _ _).setPort q,
    honly.trans (OnlyPort.setPort _ _ _)⟩

end Lines

/-! The states that write pins. -/

section Stop

variable {s : State} {i : Fin 4} {d c : BitVec 8}

/-- STOP drives SDA to the new phase after the clock generator, and leaves for STOP2 if SCL has risen
(44_stop_wait_states.md R174). -/
theorem stopStep_eq (s : State) (i : Fin 4) :
    stopStep i s = (sdaDrive i (!(s.port i).phase) (clockGen i s)).setPort i
      { s.port i with
        phase := !(s.port i).phase
        state := if (s.port i).phase = true then (s.port i).state else .stop2 } := by
  cases hphase : (s.port i).phase
  case false => simp [stopStep, goto, hphase]
  case true =>
    have hrecord : { s.port i with phase := false } = (sdaDrive i false (clockGen i s)).port i := by simp [hphase]
    simp only [stopStep, port_clockGen_self, hphase, Bool.not_true, if_true]
    rw [hrecord, State.setPort_port]

/-- STOP2 with a message left and no NACK drives SCL low and advances to that message (44_stop_wait_states.md R178). -/
theorem stop2Step_restart (hp : PortPins s i d c)
    (h : (s.port i).curMsg.toNat + 1 < (s.port i).numMsg.toNat ∧ (s.port i).nacked = false) :
    stop2Step i s = (sclDrive i false s).setPort i
      { s.port i with curMsg := (s.port i).curMsg + 1, state := .restart } := by
  have hdrive := hp.sclDrive_setPort (q := { s.port i with curMsg := (s.port i).curMsg + 1 }) rfl false
  rw [stop2Step, if_pos h, hdrive, goto, State.port_setPort_self, State.setPort_setPort]

/-- STOP2 after the last message or a NACK only goes to STOP3 (44_stop_wait_states.md R178). -/
theorem stop2Step_finish (h : ¬((s.port i).curMsg.toNat + 1 < (s.port i).numMsg.toNat ∧ (s.port i).nacked = false)) :
    stop2Step i s = goto i .stop3 s := if_neg h

/-- RESTART is a drive of SCL and one write of the port's record (44_stop_wait_states.md R181). -/
theorem restartStep_eq (s : State) (i : Fin 4) :
    restartStep i s = (sclDrive i true s).setPort i { s.port i with state := .start2 } := by
  rw [restartStep, goto, port_sclDrive]

end Stop

/-! The statements. -/

/-- Settles O21: STOP is the clock generator, a drive of SDA to the same level, and one write of the port's record. -/
theorem stopResult : Obligations.StopResult := by
  intro s d c hp p
  refine ⟨_, (exec_eq .stop s).trans (congrArg _ (stopStep_eq s s.eng.cur)), State.port_setPort_self _ _ _, ?_⟩
  exact ⟨(hp.clockGen.scl_sdaDrive hp.drivenTo_clockGen _).setPort _, (hp.clockGen.drivenTo_sdaDrive _).setPort _,
    (hp.pinsKept_clockGen.trans (hp.clockGen.pinsKept_sdaDrive _)).setPort _,
    ((OnlyPort.clockGen hp.2.1).trans (OnlyPort.sdaDrive hp.clockGen.1 _)).trans (OnlyPort.setPort _ _ _),
    (hp.traced_sdaDrive _).setPort _⟩

/-- Settles O22: STOP2 drives SCL and advances to the next message, or only goes to STOP3. -/
theorem stop2Result : Obligations.Stop2Result := by
  intro s d c hp p
  refine ⟨_, exec_eq .stop2 s, ?_⟩
  rw [effect]
  split
  next hmore =>
    obtain ⟨hport, hscl, hkept, htrace, honly⟩ :=
      hp.sclDrive_result false { p with curMsg := p.curMsg + 1, state := .restart }
    rw [stop2Step_restart hp hmore]
    exact ⟨honly, hport, hscl, hkept, htrace⟩
  next hmore =>
    rw [stop2Step_finish hmore]
    exact ⟨OnlyPort.goto _ _ _, port_goto_self _ _ _, rfl, rfl⟩

/-- Settles O23: RESTART is a drive of SCL and one write of the port's record. -/
theorem restartResult : Obligations.RestartResult := fun s _ _ hp =>
  ⟨_, (exec_eq .restart s).trans (congrArg _ (restartStep_eq s s.eng.cur)), hp.sclDrive_result true _⟩

/-- Settles O24: STOP3 is SDA's release, whose laws give the pins and the trace, and then the new state. -/
theorem stop3Result : Obligations.Stop3Result := fun s d _ hp =>
  ⟨_, exec_eq .stop3 s, by rw [effect, stop3Step, port_goto_self, port_sdaRelease],
    (pinOutput_sdaRelease hp.1 d).trans (if_pos rfl), pinLatch_sdaRelease hp.1 d, hp.pinsKept_sdaRelease.setPort _,
    (OnlyPort.sdaRelease hp.1).trans (OnlyPort.goto _ _ _), sdaRelease_trace hp.1⟩

/-- Settles O25: COMPLETE is the status toggle, which writes the new level to the status pin's latch. -/
theorem completeResult : Obligations.CompleteResult := by
  intro s n hpin lvl
  have hlines := statusToggle_lines hpin
  have hstep : effect .complete s = _ := statusToggle_eq hpin
  refine ⟨_, exec_eq .complete s, (hlines n).2.trans (if_pos rfl), (hlines n).1, fun m hm => ?_, ?_⟩
  · exact ⟨(hlines m).1, (hlines m).2.trans (if_neg (List.ne_of_not_mem_cons hm))⟩
  · rw [hstep]
    rfl

/-- Settles O26: STOP2, RESTART and START2 one after the other by their own results; the first two keep SDA and the last keeps
SCL. -/
theorem restartSequence : Obligations.RestartSequence := by
  intro s d c hp hsda hscl hcur hnum hnack
  obtain ⟨t, ht, tonly, tmore⟩ := stop2Result s d c hp
  rw [if_pos ⟨by rw [hcur, hnum]; decide, hnack⟩] at tmore
  obtain ⟨tport, tscl, tkept, -⟩ := tmore
  have hpt : PortPins t t.eng.cur d c := by
    rw [tonly.eng_eq]
    exact hp.of_port (by rw [tport]) (by rw [tport])
  obtain ⟨u, hu, uport, uscl, ukept, -, uonly⟩ := restartResult t d c hpt
  have hpu : PortPins u u.eng.cur d c := by
    rw [uonly.eng_eq]
    exact hpt.of_port (by rw [uport]) (by rw [uport])
  obtain ⟨v, hv, vport, vsda, vkept, -, -⟩ := start2Result u d c hpu
  have hother : d ∉ [c] := List.mem_singleton.not.2 hp.2.2
  have tsda := tkept.drivenTo hother hsda
  have vscl := vkept.drivenTo (List.mem_singleton.not.2 hp.2.2.symm) uscl
  rw [tonly.eng_eq] at uport
  rw [uonly.eng_eq, tonly.eng_eq] at vport
  refine ⟨t, u, v, ht, hu, hv, by rw [tport], tscl, tsda, by rw [uport], uscl, ukept.drivenTo hother tsda, by rw [vport],
    vscl, vsda, ?_, by rw [vport]⟩
  rw [vport, uport, tport, hcur]
  rfl

end Sys2Proof.Machine

end

section
/-! PROOF. The pins in use stay apart (45_port_lifecycle.md R194, 70_reset_and_hazards.md R282): of all turns REQ alone takes
pins, and takes only free ones. -/

namespace Sys2Proof.Machine

variable {s t : State}

/-- A step that writes the record of one port, and not its pins. -/
theorem PinsInv.setRecord (h : PinsInv s) (i : Fin 4) {p : Port} (hports : t.ports = s.ports.set i p)
    (hd : p.sda = (s.port i).sda) (hc : p.scl = (s.port i).scl) (hreq : t.eng.requested = s.eng.requested)
    (hst : t.eng.statusPin = s.eng.statusPin) (hready : t.eng.ready = s.eng.ready) (hplat : t.plat = s.plat) :
    PinsInv t := by
  have hport : ∀ j, t.port j = (s.setPort i p).port j := State.port_congr hports
  have hconfig : SameConfig s t := ⟨fun j => ?_, hreq, hst, hready, hplat⟩
  · exact hconfig.pinsInv h
  · rw [hport, State.port_setPort]
    split
    next e => exact e ▸ ⟨hd, hc⟩
    next => exact ⟨rfl, rfl⟩

/-- An engine on which nothing is requested uses the status pin alone. -/
theorem pinsInv_of_unrequested (hreq : s.eng.requested = 0)
    (hst : s.eng.ready = true → s.eng.statusPin = gpioPin s.plat.statusPin) : PinsInv s := by
  have hnone : ∀ i, s.isRequested i ≠ true := fun i hi => requested_ne_zero hi hreq
  exact ⟨fun i hi => absurd hi (hnone i), hst, fun i j d c d' c' _ hi => absurd hi (hnone i), fun _ => hreq⟩

/-- The two pins of a port are determined by its record. -/
theorem PortPins.unique {i : Fin 4} {d c d' c' : BitVec 8} (h : PortPins s i d c) (k : PortPins s i d' c') :
    d = d' ∧ c = c' := by
  obtain ⟨hd, hc, -⟩ := h
  obtain ⟨hd', hc', -⟩ := k
  exact ⟨gpioPin_injective (hd.symm.trans hd'), gpioPin_injective (hc.symm.trans hc')⟩

/-- The pins `d` and `c` are other pins than `d'` and `c'`. -/
def Apart (d c d' c' : BitVec 8) : Prop := d ≠ d' ∧ d ≠ c' ∧ c ≠ d' ∧ c ≠ c'

theorem Apart.symm {d c d' c' : BitVec 8} (h : Apart d c d' c') : Apart d' c' d c := by
  obtain ⟨hdd, hdc, hcd, hcc⟩ := h
  exact ⟨hdd.symm, hcd.symm, hdc.symm, hcc.symm⟩

/-- What REQ's check of a pin gives (45_port_lifecycle.md R194). -/
theorem pinFree_spec {q : BitVec 8} (h : pinFree q s = true) :
    q ≠ s.plat.statusPin ∧ ∀ j, s.isRequested j = true → (s.port j).sda ≠ gpioPin q ∧ (s.port j).scl ≠ gpioPin q := by
  have hn := mt pinFree_false_iff.2 (by simp [h] : pinFree q s ≠ false)
  simp only [not_or, not_exists, not_and] at hn
  obtain ⟨-, hst, hports⟩ := hn
  exact ⟨hst, hports⟩

/-- Free pins are no pins of a requested port. -/
theorem PortPins.apart_of_free {j : Fin 4} {d c sda scl : BitVec 8} (h : PortPins s j d c) (hq : s.isRequested j = true)
    (hsda : pinFree sda s = true) (hscl : pinFree scl s = true) : Apart sda scl d c := by
  obtain ⟨hd, hc, -⟩ := h
  obtain ⟨ad, ac⟩ := (pinFree_spec hsda).2 j hq
  obtain ⟨bd, bc⟩ := (pinFree_spec hscl).2 j hq
  rw [hd] at ad bd
  rw [hc] at ac bc
  exact ⟨fun e => ad (e ▸ rfl), fun e => ac (e ▸ rfl), fun e => bd (e ▸ rfl), fun e => bc (e ▸ rfl)⟩

/-- REQ's commit gives a port two free pins (45_port_lifecycle.md R190). -/
theorem PinsInv.commitReq (h : PinsInv s) {i : Fin 4} {sda scl : BitVec 8} (hr : s.eng.ready = true) (hne : sda ≠ scl)
    (hsda : pinFree sda s = true) (hscl : pinFree scl s = true) : PinsInv (commitReq i sda scl s) := by
  obtain ⟨hpins, hst, hapart, -⟩ := h
  obtain ⟨hreq, hother, hi⟩ := commitReq_ports s i sda scl
  have hown : PortPins (Machine.commitReq i sda scl s) i sda scl := by
    rw [PortPins, hi]
    exact ⟨rfl, rfl, hne⟩
  have hkept : ∀ {j d c}, i ≠ j → (PortPins (Machine.commitReq i sda scl s) j d c ↔ PortPins s j d c) := fun hj => by
    rw [PortPins, PortPins, hother _ hj]
  have hwas : ∀ {j}, i ≠ j → (Machine.commitReq i sda scl s).isRequested j = true → s.isRequested j = true :=
    fun {j} hj hq => by simpa [hreq j, hj] using hq
  refine ⟨fun j hj => ?_, hst, fun j k d c d' c' hjk hj hk hdc hdc' => ?_, fun hn => ?_⟩
  · by_cases hij : i = j
    · exact hij ▸ ⟨sda, scl, hown, (pinFree_spec hsda).1, (pinFree_spec hscl).1⟩
    · obtain ⟨d, c, hdc, hfree⟩ := hpins j (hwas hij hj)
      exact ⟨d, c, (hkept hij).2 hdc, hfree⟩
  · by_cases hij : i = j
    · subst hij
      obtain ⟨rfl, rfl⟩ := hdc.unique hown
      exact ((hkept hjk).1 hdc').apart_of_free (hwas hjk hk) hsda hscl
    · by_cases hik : i = k
      · subst hik
        obtain ⟨rfl, rfl⟩ := hdc'.unique hown
        exact (((hkept hij).1 hdc).apart_of_free (hwas hij hj) hsda hscl).symm
      · exact hapart j k d c d' c' hjk (hwas hij hj) (hwas hik hk) ((hkept hij).1 hdc) ((hkept hik).1 hdc')
  · exact absurd hr (Bool.eq_false_iff.1 hn)

theorem PinsInv.reqStep (h : PinsInv s) (port : BitVec 4) (sda scl : BitVec 8) : PinsInv (reqStep port sda scl s) := by
  rcases reqStep_cases s port sda scl with ⟨k, e⟩ | e | ⟨i, -, hr, -, hne, hsda, hscl, e⟩ <;> rw [e]
  · exact h
  · exact h
  · rcases requestHandler_cases i sda scl s with ⟨code, e⟩ | e <;> rw [e]
    · exact h
    · exact PinsInv.commitReq (s := { s with draws.irqRequest := s.draws.irqRequest.advance }) h hr hne hsda hscl

/-- Giving up a port keeps the pins of the others (45_port_lifecycle.md R205). -/
theorem PinsInv.commitRel (h : PinsInv s) (i : Fin 4) : PinsInv (commitRel i s) := by
  obtain ⟨hpins, hst, hapart, hready⟩ := h
  obtain ⟨hreq, hother, hi⟩ := commitRel_ports s i
  have hkept : ∀ j d c, PortPins (Machine.commitRel i s) j d c ↔ PortPins s j d c := fun j d c => by
    by_cases hij : i = j
    · rw [← hij, PortPins, PortPins, hi]
    · rw [PortPins, PortPins, hother j hij]
  have hwas : ∀ j, (Machine.commitRel i s).isRequested j = true → s.isRequested j = true := fun j hj => by
    rw [hreq j, Bool.and_eq_true] at hj
    exact hj.1
  refine ⟨fun j hj => ?_, hst, fun j k d c d' c' hjk hj hk hdc hdc' => ?_, fun hn => ?_⟩
  · obtain ⟨d, c, hdc, hfree⟩ := hpins j (hwas j hj)
    exact ⟨d, c, (hkept j d c).2 hdc, hfree⟩
  · exact hapart j k d c d' c' hjk (hwas j hj) (hwas k hk) ((hkept j d c).1 hdc) ((hkept k d' c').1 hdc')
  · exact (congrArg (· &&& ~~~portBit i) (hready hn)).trans BitVec.zero_and

theorem PinsInv.relStep (h : PinsInv s) (port : BitVec 4) : PinsInv (relStep port s) := by
  rcases relStep_cases s port with e | ⟨i, -, -, ⟨-, e⟩ | ⟨-, e⟩⟩ <;> rw [e]
  · exact h
  · exact h.commitRel i
  · exact h

theorem PinsInv.initStep (h : PinsInv s) : PinsInv (initStep s) := by
  rcases initStep_cases s with ⟨-, e⟩ | hr
  · rw [e]
    exact h
  · rw [initStep_eq hr, createEngine_eq]
    exact pinsInv_of_unrequested rfl fun _ => rfl

theorem PinsInv.unloadStep (h : PinsInv s) : PinsInv (unloadStep s) := by
  rcases unloadStep_cases s with e | ⟨-, hz, e⟩ <;> rw [e]
  · exact h
  · exact pinsInv_of_unrequested hz nofun

theorem PinsInv.xferStep (h : PinsInv s) (port : BitVec 4) (msgs : List Msg) : PinsInv (xferStep port msgs s) := by
  rcases xferStep_cases s port msgs with ⟨k, e⟩ | e | ⟨i, -, -, -, e, ⟨m, rfl⟩ | ⟨m, n, rfl⟩⟩ <;> rw [e]
  · exact h
  · exact h
  · rw [commitXfer_one]
    exact h.setRecord i rfl rfl rfl rfl rfl rfl rfl
  · rw [commitXfer_two]
    exact h.setRecord i rfl rfl rfl rfl rfl rfl rfl

theorem PinsInv.companionService (h : PinsInv s) : PinsInv (companionService s) := by
  rcases companionService_cases s with ⟨i, -, -, -, e⟩ | ⟨-, e⟩ | ⟨-, e⟩ <;> rw [e]
  · exact h.setRecord i rfl rfl rfl rfl rfl rfl rfl
  · exact h
  · unfold endScan
    split <;> exact h

theorem PinsInv.command (h : PinsInv s) {i : Instr} {n : Nat} (hw : nextWord s = some (.ok i n)) (ht : i ≠ .tick)
    (hs : i ≠ .sirq) : PinsInv (effect i s) := by
  rcases command_cases (nextWord_format hw) ht hs with rfl | ⟨p, a, b, rfl⟩ | ⟨p, rfl⟩ | ⟨p, ms, rfl⟩ | rfl
  · exact h.initStep
  · exact h.reqStep p a b
  · exact h.relStep p
  · exact h.xferStep p ms
  · exact h.unloadStep

theorem PinsInv.applyEnv (h : PinsInv s) (e : EnvEvent) : PinsInv (applyEnv e s) := by
  cases e with
  | claim | release => simp only [Machine.applyEnv]; split <;> exact h
  | quiet | timerFire | hostWrite | handles | ticking => exact h

theorem PinsInv.turn (ht : Turn s t) (h : PinsInv s) : PinsInv t := by
  have hf : PinsInv (timerFire s) := h
  cases ht with
  | tick => exact (tickStep_config s).pinsInv h
  | fireTick => exact (tickStep_config (timerFire s)).pinsInv hf
  | fireTickWord n => exact (tickStep_config (timerFire s)).pinsInv hf
  | service => exact h.companionService
  | held p => exact h.commitRel p
  | command i n hh hw ht hs => exact h.command hw ht hs
  | callback | sirq | sirqWord | pass | fire | fireWord | rest | refused => exact h

/-- Settles O59: REQ alone takes pins, and its checks keep them apart from the status pin and from every requested port's;
UNLOAD and INIT leave nothing requested. -/
theorem pinsInvKept : Obligations.PinsInvKept := fun _ _ h hstep =>
  step_inv (Inv := PinsInv) (fun _ _ h => h) (fun _ e h => h.applyEnv e) (fun _ _ hturn h => h.turn hturn) hstep h

end Sys2Proof.Machine

end

section
/-! PROOF. The host's calls on a port, from the request to the release, and UNLOAD (45_port_lifecycle.md). -/

namespace Sys2Proof.Machine

/-! A port's bit in the masks of the requested ports and of the installed handlers. -/

theorem or_portBit_self (v : BitVec 4) (i : Fin 4) : (v ||| portBit i).getLsbD i.val = true := by
  rw [getLsbD_or_portBit, decide_eq_true rfl, Bool.or_true]

theorem or_portBit_ne (v : BitVec 4) {i j : Fin 4} (h : j ≠ i) : (v ||| portBit i).getLsbD j.val = v.getLsbD j.val := by
  rw [getLsbD_or_portBit, decide_eq_false h.symm, Bool.or_false]

theorem clear_portBit_self (v : BitVec 4) (i : Fin 4) : (v &&& ~~~portBit i).getLsbD i.val = false := by
  rw [getLsbD_clear_portBit, decide_eq_true rfl, Bool.not_true, Bool.and_false]

theorem clear_portBit_ne (v : BitVec 4) {i j : Fin 4} (h : j ≠ i) :
    (v &&& ~~~portBit i).getLsbD j.val = v.getLsbD j.val := by
  rw [getLsbD_clear_portBit, decide_eq_false h.symm, Bool.not_false, Bool.and_true]

/-- Setting a port's bit and clearing it again restores a mask without it. -/
theorem clear_or_portBit {v : BitVec 4} {i : Fin 4} (h : v.getLsbD i.val = false) :
    (v ||| portBit i) &&& ~~~portBit i = v := mask_ext fun j => by
  by_cases hj : j = i
  · rw [hj, clear_portBit_self, h]
  · rw [clear_portBit_ne _ hj, or_portBit_ne _ hj]

/-! REQ (R190 to R195). -/

section Req

variable {s t : State} {port : BitVec 4} {sda scl : BitVec 8} {i : Fin 4}

theorem exec_req (h : reqStep port sda scl s = t) : exec (.req port sda scl) s = .next t := by
  rw [exec_eq, effect, h]

theorem reqStep_notReady (hr : s.eng.ready = false) : reqStep port sda scl s = s.retErr .notReady := if_pos hr

theorem reqStep_noPort (hr : s.eng.ready = true) (hp : 4 ≤ port.toNat) :
    reqStep port sda scl s = s.retErr .invalidArgument := by
  rw [reqStep, if_neg (by simp [hr]), portIndex_none hp]

/-- REQ of a port of a ready engine. -/
theorem reqStep_port (hr : s.eng.ready = true) (hp : port.toNat = i.val) :
    reqStep port sda scl s =
      if s.isRequested i then s.retErr .busy
      else if sda = scl ∨ pinFree sda s = false ∨ pinFree scl s = false then s.refuse .pinConflict
      else requestHandler i sda scl s := by
  rw [reqStep, if_neg (by simp [hr]), portIndex_some hp]

/-- A pin below NGPIO that is neither the status pin nor a requested port's is free (R194). -/
theorem pinFree_of {q : BitVec 8} (hlt : q.toNat < s.plat.ngpio) (hst : q ≠ s.plat.statusPin)
    (hports : ∀ j, s.isRequested j = true → (s.port j).sda ≠ gpioPin q ∧ (s.port j).scl ≠ gpioPin q) :
    pinFree q s = true := by
  refine Bool.eq_true_of_not_eq_false fun hfree => ?_
  rcases pinFree_false_iff.1 hfree with h | h | ⟨j, hj, h | h⟩
  · omega
  · exact hst h
  · exact (hports j hj).1 h
  · exact (hports j hj).2 h

theorem requestHandler_fail {code : Int} (h : Tape.value Config.irqRequest s.draws.irqRequest = some code) :
    requestHandler i sda scl s
      = State.retErr (.resourceError code) { s with draws.irqRequest := s.draws.irqRequest.advance } := by
  simp only [requestHandler, h]

/-- The state after a REQ that returns Ok: the answer drawn, the commit made. -/
def granted (i : Fin 4) (sda scl : BitVec 8) (s : State) : State :=
  (commitReq i sda scl { s with draws.irqRequest := s.draws.irqRequest.advance }).ret .ok

theorem isRequested_granted (i : Fin 4) (sda scl : BitVec 8) (s : State) : (granted i sda scl s).isRequested i = true :=
  or_portBit_self s.eng.requested i

theorem state_granted (i : Fin 4) (sda scl : BitVec 8) (s : State) :
    ((granted i sda scl s).port i).state = (s.port i).state := by
  simp [granted, commitReq, State.port, State.setPort]

theorem requestHandler_ok (h : Tape.value Config.irqRequest s.draws.irqRequest = none) :
    requestHandler i sda scl s = granted i sda scl s := by
  simp only [requestHandler, granted, h]

/-- A REQ that returns Ok has made its commit on an unrequested port. -/
theorem reqStep_ok (h : (reqStep port sda scl s).obs.returns = s.obs.returns ++ [.ok]) :
    ∃ i, port.toNat = i.val ∧ s.isRequested i = false ∧ reqStep port sda scl s = granted i sda scl s := by
  rcases reqStep_cases s port sda scl with ⟨k, e⟩ | e | ⟨i, hi, -, hq, -, -, -, e⟩
  · simp [e] at h
  · simp [e] at h
  · rcases requestHandler_cases i sda scl s with ⟨code, e'⟩ | e'
    · simp [e, e'] at h
    · exact ⟨i, hi, hq, e.trans e'⟩

end Req

/-- Settles O36: REQ's checks one by one; each of the conflicts makes one of the two pins not free. -/
theorem reqErrors : Obligations.ReqErrors := by
  intro s port sda scl
  refine ⟨fun hr => exec_req (reqStep_notReady hr), fun hr hp => exec_req (reqStep_noPort hr hp),
    fun i hr hp => ⟨fun hq => exec_req ?_, fun hq hbad => exec_req ?_⟩⟩
  · rw [reqStep_port hr hp, if_pos hq]
  · rw [reqStep_port hr hp, if_neg (by simp [hq]), if_pos]
    simp only [pinFree_false_iff]
    rcases hbad with h | h | h | h | h | ⟨j, q, hj, rfl | rfl, h⟩
    · exact .inl h
    · exact .inr (.inl (.inl h))
    · exact .inr (.inr (.inl h))
    · exact .inr (.inl (.inr (.inl h)))
    · exact .inr (.inr (.inr (.inl h)))
    · exact .inr (.inl (.inr (.inr ⟨j, hj, h⟩)))
    · exact .inr (.inr (.inr (.inr ⟨j, hj, h⟩)))

/-- Settles O37: with both pins free REQ comes to the platform's answer, and then to its commit. -/
theorem reqResult : Obligations.ReqResult := by
  intro s port sda scl i hr hp hq hne hsda hscl hsda' hscl' hports
  have hsdaFree : pinFree sda s = true := pinFree_of hsda hsda' fun j hj => hports j sda hj (.inl rfl)
  have hsclFree : pinFree scl s = true := pinFree_of hscl hscl' fun j hj => hports j scl hj (.inr rfl)
  have hstep : reqStep port sda scl s = requestHandler i sda scl s := by
    rw [reqStep_port hr hp, if_neg (by simp [hq]), if_neg (by simp [hne, hsdaFree, hsclFree])]
  exact ⟨fun code hcode => exec_req (hstep.trans (requestHandler_fail hcode)), fun hok =>
    ⟨_, exec_req (hstep.trans (requestHandler_ok hok)), or_portBit_self s.eng.requested i,
      or_portBit_self s.eng.statusAssoc i,
      fun _ hj => ⟨or_portBit_ne s.eng.requested hj, or_portBit_ne s.eng.statusAssoc hj⟩, rfl⟩⟩

/-! XFER (R198 to R204). -/

section Xfer

variable {s t : State} {port : BitVec 4} {msgs : List Msg} {i : Fin 4}

theorem exec_xfer (h : xferStep port msgs s = t) : exec (.xfer port msgs) s = .next t := by
  rw [exec_eq, effect, h]

theorem xferStep_noPort (hp : 4 ≤ port.toNat) : xferStep port msgs s = s.retErr .invalidArgument := by
  rw [xferStep, portIndex_none hp]

/-- XFER on a port. -/
theorem xferStep_port (hp : port.toNat = i.val) :
    xferStep port msgs s =
      if s.isRequested i = false then s.retErr .invalidArgument
      else if msgs.length < 1 ∨ maxMsgs < msgs.length then s.retErr .invalidArgument
      else if msgs.any (badMsg s.plat) then s.refuse .badMessage
      else if (s.port i).state ≠ .idle then s.retErr .busy
      else (commitXfer i msgs s).ret .ok := by
  rw [xferStep, portIndex_some hp]

/-- Which messages XFER refuses (R201). -/
theorem badMsg_iff {plat : Platform} {m : Msg} :
    badMsg plat m = true ↔ 0x7F < m.addr.toNat ∨ plat.maxMsgLen.toNat < m.bytes.length ∨ m.rsvd ≠ 0 := by
  simp only [badMsg, Bool.or_eq_true, decide_eq_true_eq, bne_iff_ne, or_assoc]

theorem not_any_badMsg {plat : Platform}
    (h : ∀ m, m ∈ msgs → m.addr.toNat ≤ 0x7F ∧ m.bytes.length ≤ plat.maxMsgLen.toNat ∧ m.rsvd = 0) :
    ¬msgs.any (badMsg plat) = true := by
  rw [List.any_eq_true]
  rintro ⟨m, hm, hbad⟩
  obtain ⟨haddr, hlen, hrsvd⟩ := h m hm
  rcases badMsg_iff.1 hbad with h | h | h
  · omega
  · omega
  · exact h hrsvd

theorem msgCount_ok (h : msgs.length = 1 ∨ msgs.length = 2) : ¬(msgs.length < 1 ∨ maxMsgs < msgs.length) := by
  unfold maxMsgs
  omega

/-- XFER of one or two good messages on a requested port comes to its last check (R202). -/
theorem xferStep_good (hp : port.toNat = i.val) (hq : s.isRequested i = true) (hn : msgs.length = 1 ∨ msgs.length = 2)
    (hgood : ∀ m, m ∈ msgs → m.addr.toNat ≤ 0x7F ∧ m.bytes.length ≤ s.plat.maxMsgLen.toNat ∧ m.rsvd = 0) :
    xferStep port msgs s = if (s.port i).state ≠ .idle then s.retErr .busy else (commitXfer i msgs s).ret .ok := by
  rw [xferStep_port hp, if_neg (by simp [hq]), if_neg (msgCount_ok hn), if_neg (not_any_badMsg hgood)]

end Xfer

/-- Settles O38: XFER's checks one by one. -/
theorem xferErrors : Obligations.XferErrors := by
  intro s port msgs
  refine ⟨fun hp => exec_xfer (xferStep_noPort hp), fun i hp => ⟨fun hq => exec_xfer ?_, fun hq hn => exec_xfer ?_,
    fun hq hn hbad => exec_xfer ?_, fun hq hn hgood hs => exec_xfer ?_⟩⟩
  · rw [xferStep_port hp, if_pos hq]
  · rw [xferStep_port hp, if_neg (by simp [hq]), if_pos (by unfold maxMsgs; omega)]
  · obtain ⟨m, hm, hbad⟩ := hbad
    rw [xferStep_port hp, if_neg (by simp [hq]), if_neg (msgCount_ok hn),
      if_pos (List.any_eq_true.2 ⟨m, hm, badMsg_iff.2 hbad⟩)]
  · rw [xferStep_good hp hq hn hgood, if_pos hs]

/-- Settles O44: a port number that names no requested port fails the first or the second check. -/
theorem xferUnrequested : Obligations.XferUnrequested := by
  intro s port msgs hq
  obtain ⟨hnone, hport⟩ := xferErrors s port msgs
  by_cases hp : port.toNat < 4
  · exact (hport ⟨port.toNat, hp⟩ rfl).1 (hq ⟨port.toNat, hp⟩ rfl)
  · exact hnone (Nat.le_of_not_lt hp)

/-! The copy-in (R203). -/

section CopyIn

variable {m : Memory} {i : Fin 4} {k : BitVec 1} {bs : List Byte} {a j j' : Nat}

theorem storeAddr_zero_add (i : Fin 4) (k : BitVec 1) (j : Nat) : storeAddr i k 0 + j = storeAddr i k j := by
  unfold storeAddr
  omega

/-- The two slots of a port do not overlap. -/
theorem storeAddr_slot_ne (hj : j < 65536) : storeAddr i 0 j ≠ storeAddr i 1 j' := by
  unfold storeAddr
  simp only [BitVec.ofNat_eq_ofNat, BitVec.toNat_ofNat]
  omega

/-- A byte written into a slot is read back. -/
theorem read_writeSlot (hm : m.wf = true) (hj : j < bs.length) :
    (m.writeBytes (storeAddr i k 0) bs).read (storeAddr i k j) = bs[j] := by
  have hin : storeAddr i k 0 ≤ storeAddr i k 0 + j ∧ storeAddr i k 0 + j < storeAddr i k 0 + bs.length := by omega
  rw [Memory.read_writeBytes hm, ← storeAddr_zero_add i k j, if_pos hin, Nat.add_sub_cancel_left,
    List.getD_eq_getElem _ _ hj]

/-- A write into a slot keeps every byte that is not in its message. -/
theorem read_writeSlot_ne (hm : m.wf = true) (ha : ∀ j, j < bs.length → a ≠ storeAddr i k j) :
    (m.writeBytes (storeAddr i k 0) bs).read a = m.read a := by
  rw [Memory.read_writeBytes hm, if_neg]
  rintro ⟨hle, hlt⟩
  refine ha (a - storeAddr i k 0) (by omega) ?_
  rw [← storeAddr_zero_add]
  omega

/-- A write into the second slot keeps the message in the first, whose length has 16 bits. -/
theorem read_firstSlot {cs : List Byte} (hm : m.wf = true) (hlen : bs.length < 65536) (hj : j < bs.length) :
    ((m.writeBytes (storeAddr i 0 0) bs).writeBytes (storeAddr i 1 0) cs).read (storeAddr i 0 j) = bs[j] := by
  rw [read_writeSlot_ne (Memory.wf_writeBytes hm _ _) fun _ _ => storeAddr_slot_ne (Nat.lt_trans hj hlen),
    read_writeSlot hm hj]

end CopyIn

/-- Settles O39: the commit writes the messages one after the other into the slots, which do not overlap. -/
theorem xferResult : Obligations.XferResult := by
  intro s port msgs i hp hq hidle hn hgood hwf
  have hstep : xferStep port msgs s = (commitXfer i msgs s).ret .ok := by
    rw [xferStep_good hp hq hn hgood, if_neg (not_not.2 hidle)]
  refine ⟨_, exec_xfer hstep, ?_⟩
  rcases hn with hn | hn
  · obtain ⟨m, rfl⟩ := List.length_eq_one_iff.1 hn
    rw [commitXfer_one]
    refine ⟨fun k hk => ?_, fun a ha => ?_, fun _ => by simp [State.port], by simp [State.port, State.ret]⟩
    · obtain rfl : k = 0 := Nat.lt_one_iff.1 hk
      exact ⟨by simp [State.port, Port.msg, msgRecOf], by simp [State.port, Port.orig], fun j hj => read_writeSlot hwf hj⟩
    · exact read_writeSlot_ne hwf (ha 0 Nat.one_pos)
  · obtain ⟨m, n, rfl⟩ := List.length_eq_two.1 hn
    rw [commitXfer_two]
    have hwf' : (s.store.writeBytes (storeAddr i 0 0) m.bytes).wf = true := Memory.wf_writeBytes hwf _ _
    refine ⟨fun k hk => ?_, fun a ha => ?_, nofun, by simp [State.port, State.ret]⟩
    · obtain rfl | rfl : k = 0 ∨ k = 1 := Nat.le_one_iff_eq_zero_or_eq_one.1 (Nat.le_of_lt_succ hk)
      · obtain ⟨-, hlen, -⟩ := hgood m List.mem_cons_self
        exact ⟨by simp [State.port, Port.msg, msgRecOf], by simp [State.port, Port.orig], fun j hj =>
          read_firstSlot hwf (Nat.lt_of_le_of_lt hlen s.plat.maxMsgLen.isLt) hj⟩
      · exact ⟨by simp [State.port, Port.msg, msgRecOf], by simp [State.port, Port.orig], fun j hj => read_writeSlot hwf' hj⟩
    · exact (read_writeSlot_ne hwf' (ha 1 Nat.one_lt_two)).trans (read_writeSlot_ne hwf (ha 0 Nat.two_pos))

/-! REL (R205 to R207) and UNLOAD (R208). -/

section Rel

variable {s t : State} {port : BitVec 4} {i : Fin 4}

theorem exec_rel (h : relStep port s = t) : exec (.rel port) s = .next t := by
  rw [exec_eq, effect, h]

theorem relStep_noPort (hp : 4 ≤ port.toNat) : relStep port s = s.refuse .releaseUnrequested := by
  rw [relStep, portIndex_none hp]

/-- REL of a port. -/
theorem relStep_port (hp : port.toNat = i.val) :
    relStep port s =
      if s.isRequested i = false then s.refuse .releaseUnrequested
      else if (s.port i).state = .idle then commitRel i s
      else { s with host.held := s.host.held ++ [i] } := by
  rw [relStep, portIndex_some hp]

theorem relStep_idle (hp : port.toNat = i.val) (hq : s.isRequested i = true) (hs : (s.port i).state = .idle) :
    relStep port s = commitRel i s := by
  rw [relStep_port hp, if_neg (by simp [hq]), if_pos hs]

end Rel

/-- Settles O40: REL's checks one by one; its commit clears the port's bit in both masks. -/
theorem relResult : Obligations.RelResult := by
  intro s port
  refine ⟨fun hp => exec_rel (relStep_noPort hp), fun i hp => ⟨fun hq => exec_rel ?_, fun hq hs => exec_rel ?_,
    fun hq hs => ⟨_, exec_rel (relStep_idle hp hq hs), clear_portBit_self s.eng.requested i,
      clear_portBit_self s.eng.statusAssoc i,
      fun _ hj => ⟨clear_portBit_ne s.eng.requested hj, clear_portBit_ne s.eng.statusAssoc hj⟩, rfl⟩⟩⟩
  · rw [relStep_port hp, if_pos hq]
  · rw [relStep_port hp, if_neg (by simp [hq]), if_neg hs]

/-- Settles O43: the REQ set one bit of the mask, of a port that is still IDLE, and the REL clears it. -/
theorem reqThenRel : Obligations.ReqThenRel := by
  intro s t u port sda scl ht hok hidle hu
  obtain rfl := Host.Outcome.next.inj ((exec_req rfl).symm.trans ht)
  obtain ⟨i, hp, hq, hreq⟩ := reqStep_ok hok
  have hrel : relStep port (granted i sda scl s) = commitRel i (granted i sda scl s) :=
    relStep_idle hp (isRequested_granted i sda scl s) ((state_granted i sda scl s).trans (hidle i hp))
  rw [hreq] at hu
  obtain rfl := Host.Outcome.next.inj ((exec_rel hrel).symm.trans hu)
  exact ⟨clear_or_portBit hq, List.append_assoc s.obs.returns [.ok] [.ok]⟩

/-- Settles O42: UNLOAD's check, and then one write and the flags. -/
theorem unloadResult : Obligations.UnloadResult := by
  refine ⟨fun s h => ?_, fun s hr hz => ?_⟩
  · rw [exec_eq, effect, unloadStep, if_pos h]
  · rw [exec_eq, effect, unloadStep, if_neg (by simp [hr, hz]), disableTimer_eq]

end Sys2Proof.Machine

end

section
/-! PROOF. A REL that holds (45_port_lifecycle.md R206, R209; 60_exceptions.md R238): it completes once its port is IDLE; until
then the host waits, and the timer alone can go on. -/

namespace Sys2Proof.Machine

variable {s : State} {i : Fin 4} {j : Instr} {n : Nat}

/-- With no tick deliverable and the companion at rest the step is the stream's. -/
theorem BelowTick.step_eq (h : BelowTick s) (hcb : s.comp.pendingCb = none) (hactive : s.comp.active = false) :
    step s = streamStep s := by
  obtain ⟨henv, htick⟩ := h
  simp [step, stepOf, agentStep, henv, htick, hcb, hactive]

/-! Which REL can go on, and which calls overlap it. -/

theorem heldReady_of_idle (hheld : s.host.held = [i]) (hs : (s.port i).state = .idle) : heldReady s = some i := by
  simp [heldReady, hheld, hs]

theorem heldReady_of_not_idle (hheld : s.host.held = [i]) (hs : (s.port i).state ≠ .idle) : heldReady s = none := by
  simp [heldReady, hheld, hs]

theorem portIndex_eq_some_iff {p : BitVec 4} : portIndex p = some i ↔ p.toNat = i.val := by
  refine ⟨fun h => ?_, portIndex_some⟩
  by_cases hp : p.toNat < 4
  · rw [portIndex_some (i := ⟨p.toNat, hp⟩) rfl] at h
    exact congrArg Fin.val (Option.some.inj h)
  · simp [portIndex_none (Nat.le_of_not_lt hp)] at h

/-- A command is a call on the port that its operand names. -/
theorem callPort_eq_some_iff : callPort j = some i ↔ CallOn i j := by
  cases j with
  | req | rel | xfer => exact portIndex_eq_some_iff
  | idle | start | start2 | addr | write | read | wbit | rbit | wack | rack | stop | stop2 | stop3 | restart | wait
  | complete | init | unload | tick | sirq => simp [callPort, CallOn]

/-- While a REL holds on one port, the calls on that port overlap it (R209). -/
theorem overlaps_iff (hheld : s.host.held = [i]) : overlaps j s = true ↔ CallOn i j := by
  rw [← callPort_eq_some_iff, overlaps, hheld]
  cases callPort j <;> simp

/-! The stream's step while a REL holds. -/

section Held

variable (hsirq : sirqDeliverable s = false) (htick : ∀ n, nextWord s ≠ some (.ok .tick n))
  (hsirqWord : ∀ n, nextWord s ≠ some (.ok .sirq n))

include hsirq htick hsirqWord

/-- A held REL that can go on comes before the next word. -/
theorem streamStep_heldReady (hready : heldReady s = some i) : streamStep s = .next (commitRel i s) := by
  unfold streamStep
  split
  next hw => exact absurd hw (hsirqWord _)
  next hw => exact absurd hw (htick _)
  next => simp [hsirq, hready]

/-- A command while no held REL can go on. -/
theorem streamStep_command (hready : heldReady s = none) (hw : nextWord s = some (.ok j n)) :
    streamStep s = hostIssue j n s := by
  unfold streamStep
  split
  next hw => exact absurd hw (hsirqWord _)
  next hw => exact absurd hw (htick _)
  next => simp [hsirq, hready, hw]

/-- At any word that does not overlap a REL that holds on, the host waits. -/
theorem streamStep_waits (hheld : s.host.held ≠ []) (hready : heldReady s = none)
    (hno : ∀ j n, nextWord s = some (.ok j n) → overlaps j s = false) : streamStep s = idleOrFire s := by
  match hw : nextWord s with
  | some (.ok j n) =>
    rw [streamStep_command hsirq htick hsirqWord hready hw, hostIssue, if_neg hheld, hno j n hw]
    rfl
  | some (.bad e) => simp [streamStep, hw, hsirq, hready, badWord, hheld]
  | none => simp [streamStep, hw, hsirq, hready]

end Held

/-- The timer's fire makes a tick deliverable on an enabled line of an owned vector, but for the companion's mask (R243). -/
theorem fireTick_eq (henabled : s.eng.timerEnabled = true) (howned : s.eng.vectorOwned = true) :
    fireTick s = if s.eng.fiqMasked then .next (timerFire s) else exec .tick (timerFire s) := by
  rw [fireTick, tickDeliverable_timerFire, henabled, howned]
  cases s.eng.fiqMasked <;> rfl

/-- What the environment can do while no agent has a step: the timer's fire, or nothing (60_exceptions.md R238, R244). -/
theorem idleOrFire_result (s : State) :
    ∃ t, idleOrFire s = .next t ∧ t.host = s.host
      ∧ if s.draws.ticking = true ∧ s.eng.timerEnabled = true ∧ s.eng.vectorOwned = true then
          if s.eng.fiqMasked = true then t = timerFire s else exec .tick (timerFire s) = .next t
        else t = s := by
  by_cases h : s.draws.ticking = true ∧ s.eng.timerEnabled = true ∧ s.eng.vectorOwned = true
  · obtain ⟨hticking, henabled, howned⟩ := id h
    simp only [idleOrFire, hticking, henabled, howned, Bool.and_self, if_true, fireTick_eq henabled howned, and_self]
    by_cases hmask : s.eng.fiqMasked = true
    · exact ⟨timerFire s, by rw [if_pos hmask], rfl, by rw [if_pos hmask]⟩
    · obtain ⟨t, ht, hhost, -⟩ := tickFrame (timerFire s)
      exact ⟨t, by rw [if_neg hmask, ht], hhost, by rw [if_neg hmask, ht]⟩
  · have hidle : idleOrFire s = .next s := by
      rw [idleOrFire, if_neg]
      simpa only [Bool.and_eq_true, and_assoc] using h
    exact ⟨s, hidle, rfl, by rw [if_neg h]⟩

theorem mem_addOnce_iff {α : Type} [DecidableEq α] {x y : α} {l : List α} : y ∈ addOnce x l ↔ y ∈ l ∨ y = x := by
  unfold addOnce
  split
  next h => exact ⟨.inl, fun hy => hy.elim id (fun e => e ▸ h)⟩
  next => simp

/-- Settles O41: of the stream's step the held REL's turn, the refusal of an overlapping call, and the wait. -/
theorem heldRel : Obligations.HeldRel := by
  intro s i hbelow hcb hactive hsirq hheld htick hsirqWord
  have hstep := hbelow.step_eq hcb hactive
  refine ⟨fun hs => ⟨commitRel i s, ?_, ?_⟩, fun hs j n hw hcall => ⟨advance n (s.refuse .overlappingCall), ?_, ?_⟩,
    fun hs hno => ?_⟩
  · rw [hstep, streamStep_heldReady hsirq htick hsirqWord (heldReady_of_idle hheld hs)]
  · obtain ⟨-, -, hport⟩ := commitRel_ports s i
    exact ⟨clear_portBit_self s.eng.requested i, by rw [hport], clear_portBit_self s.eng.statusAssoc i,
      by simp [commitRel, hheld], rfl⟩
  · rw [hstep, streamStep_command hsirq htick hsirqWord (heldReady_of_not_idle hheld hs) hw, hostIssue,
      if_neg (by simp [hheld]), if_pos ((overlaps_iff hheld).2 hcall)]
  · exact ⟨fun r => mem_addOnce_iff, rfl⟩
  · have hwait : streamStep s = idleOrFire s :=
      streamStep_waits hsirq htick hsirqWord (by simp [hheld]) (heldReady_of_not_idle hheld hs) fun j n hw =>
        Bool.eq_false_iff.2 fun h => hno j n hw ((overlaps_iff hheld).1 h)
    rw [hstep, hwait]
    exact idleOrFire_result s

end Sys2Proof.Machine

end

section
/-! PROOF. The completion path (46_completion_service.md): the status edge that a tick latches (R216), the delivery of SIRQ
(R215), the companion's service, end of scan and callback (R217, R218), the end of a run (70_reset_and_hazards.md R296), and
that every step keeps the companion's counters in their ranges (R214). -/

namespace Sys2Proof.Machine

/-! Counting ports. -/

/-- How many elements of a list meet a test, one summand per element. -/
theorem length_filter_eq_sum {α : Type} (p : α → Bool) (l : List α) :
    (l.filter p).length = (l.map fun a => (p a).toNat).sum := by
  induction l with
  | nil => rfl
  | cons a l ih => cases h : p a <;> simp [h, ih, Nat.add_comm]

/-- The number of installed handlers is the number of bits set (R215). -/
theorem popcount4_eq_length_filter (v : BitVec 4) :
    popcount4 v = ([0, 1, 2, 3].filter fun i : Nat => v.getLsbD i).length := by
  simp [length_filter_eq_sum, popcount4, Nat.add_assoc]

theorem popcount4_le (v : BitVec 4) : popcount4 v ≤ 4 := by
  rw [popcount4_eq_length_filter]
  exact List.length_filter_le _ _

theorem popcount4_pos {v : BitVec 4} (h : v ≠ 0) : 1 ≤ popcount4 v := by
  revert v
  decide

/-- Settles O45: SIRQ is its own assignments, and its scans are counted by the bits set. -/
theorem sirqResult : Obligations.SirqResult := by
  intro s
  rw [exec_eq, effect, sirqStep, popcount4_eq_length_filter]

/-! The status edge (R216). -/

section Edge

/-- Toggling a level once for each flag that is set inverts it when their number is odd. -/
theorem xor_flags_eq_parity (l a b c d : Bool) :
    (l ^^ a ^^ b ^^ c ^^ d) = (l ^^ decide ((a.toNat + b.toNat + c.toNat + d.toNat) % 2 = 1)) := by
  revert l a b c d
  decide

/-- The number of ports whose turn in a tick toggles the status pin (44_stop_wait_states.md R185). -/
def togglingCount (s : State) : Nat := ([0, 1, 2, 3].filter (toggling s)).length

theorem togglingCount_eq (s : State) :
    togglingCount s = (toggling s 0).toNat + (toggling s 1).toNat + (toggling s 2).toNat + (toggling s 3).toNat := by
  simp [togglingCount, length_filter_eq_sum, Nat.add_assoc]

/-- The turns of a tick toggle the status level once for each requested port in COMPLETE. -/
theorem tickPorts_toggles (s : State) :
    (tickPorts (tickBegin s)).eng.toggles = togglingCount s
    ∧ (tickPorts (tickBegin s)).eng.statusLevel = (s.eng.statusLevel ^^ decide (togglingCount s % 2 = 1)) := by
  obtain ⟨htoggles, hlevel⟩ := toggles_tickPorts (tickBegin s)
  have hbegin : ∀ i, toggling (tickBegin s) i = toggling s i := fun _ => rfl
  simp only [hbegin] at htoggles hlevel
  rw [htoggles, hlevel, togglingCount_eq, ← xor_flags_eq_parity]
  exact ⟨by simp [tickBegin], rfl⟩

/-- Settles O33: the edge latch at the tick's end counts the toggles of its turns. -/
theorem tickEdgeLatch : Obligations.TickEdgeLatch := by
  intro s
  obtain ⟨htoggles, hlevel⟩ := tickPorts_toggles s
  have hturns := tickPorts_frame (tickBegin s)
  have hpending : (tickPorts (tickBegin s)).eng.statusPending = s.eng.statusPending := by
    rw [hturns.eng]
    rfl
  have hglitch : (tickPorts (tickBegin s)).draws.glitchEdge = s.draws.glitchEdge := by
    rw [hturns.draws]
    rfl
  refine ⟨tickStep s, rfl, ?_⟩
  rw [tickStep, tickEnd_eq, edgeLatch_eq]
  simp only [htoggles, hlevel, hpending, hglitch]
  exact ⟨rfl, rfl, rfl⟩

end Edge

/-! The companion's steps. -/

section Companion

variable {s t : State}

/-- With no tick deliverable a pending callback is the next step (60_exceptions.md R244). -/
theorem BelowTick.step_callback (h : BelowTick s) {c : PendingCb} (hcb : s.comp.pendingCb = some c) :
    step s = .next (companionCallback c s) := by
  obtain ⟨henv, htick⟩ := h
  simp [step, stepOf, agentStep, henv, htick, hcb]

/-- With no tick deliverable and no callback pending an active companion's service is the next step (60_exceptions.md R244). -/
theorem BelowTick.step_service (h : BelowTick s) (hcb : s.comp.pendingCb = none) (hactive : s.comp.active = true) :
    step s = .next (companionService s) := by
  obtain ⟨henv, htick⟩ := h
  simp [step, stepOf, agentStep, henv, htick, hcb, hactive]

theorem companionService_port {i : Fin 4} (h : s.comp.next = i.val) : companionService s = servicePort i s := by
  have hlt : s.comp.next < 4 := h ▸ i.isLt
  rw [companionService, dif_pos hlt]
  exact congrArg (servicePort · s) (Fin.ext h)

theorem companionService_end (h : 4 ≤ s.comp.next) : companionService s = endScan s :=
  dif_neg (Nat.not_lt.2 h)

/-- Settles O46: the service of a port in COMPLETE copies slot 0 back and then slot 1, so where the two buffers meet the byte
is slot 1's. -/
theorem serviceResult : Obligations.ServiceResult := by
  intro s i hbelow hcb hactive hnext hwf
  refine ⟨servicePort i s, by rw [hbelow.step_service hcb hactive, companionService_port hnext], fun ⟨hr, hs⟩ => ?_,
    fun hother => ?_⟩
  · rw [servicePort_complete hr hs, hnext]
    have hread1 := read_copiedBack (s := s) i 1 (wf_copiedBack (s := s) i 0 hwf)
    have hread0 := read_copiedBack (s := s) i 0 hwf
    refine ⟨fun a h1 => ?_, fun a h1 h0 => ?_, fun a h1 h0 => ?_, rfl⟩
    · exact (hread1 a).trans (if_pos h1)
    · exact (hread1 a).trans ((if_neg h1).trans ((hread0 a).trans (if_pos h0)))
    · exact (hread1 a).trans ((if_neg h1).trans ((hread0 a).trans (if_neg h0)))
  · rw [servicePort_other hother, hnext]

/-- A transfer of one message has one caller's buffer, and one of two messages two, in their order (R218). -/
theorem callerBuffers_one {i : Fin 4} (h : (s.port i).numMsg = 1) : callerBuffers i s = [callerBuffer i 0 s] := by
  simp [callerBuffers, h]

theorem callerBuffers_two {i : Fin 4} (h : (s.port i).numMsg = 2) :
    callerBuffers i s = [callerBuffer i 0 s, callerBuffer i 1 s] := by
  simp [callerBuffers, h]

/-- Settles O48: the callback step is next, and its event lists the buffers of one or of two messages. -/
theorem callbackResult : Obligations.CallbackResult := by
  intro s i r cb ctx hbelow hcb
  refine ⟨fun hn => ?_, fun hn => ?_⟩
  · rw [hbelow.step_callback hcb, companionCallback, callerBuffers_one hn]
    rfl
  · rw [hbelow.step_callback hcb, companionCallback, callerBuffers_two hn]
    rfl

/-! The end of a scan and of a run. -/

theorem endScan_more (h : 1 < s.comp.scans) :
    endScan s = { s with comp := { s.comp with scans := s.comp.scans - 1, next := 0 } } :=
  if_neg (by omega)

theorem endScan_last (h : s.comp.scans = 1) : endScan s = { s with comp := { s.comp with scans := 0, active := false } } :=
  if_pos (by omega)

/-- A tick ends a run in which nothing is left to do (70_reset_and_hazards.md R296). -/
theorem AllDone.ended_tickStep (h : AllDone s) : Ended (tickStep s) := by
  obtain ⟨hhost, hidle, hcomp⟩ := h
  rw [tickStep_last (isActive_of_idle hidle)]
  exact ⟨⟨hhost, hidle, hcomp⟩, rfl⟩

/-- Once the spurious SIRQ is discarded no agent has a step (60_exceptions.md R243, R256). -/
theorem Ended.step_endRun (h : Ended s) (henv : s.env = []) : step (endRun s) = .next (endRun s) := by
  obtain ⟨⟨⟨hword, hheld⟩, -, hactive, hcb⟩, htimer⟩ := h
  have hbelow : BelowTick (endRun s) := ⟨henv, by simp [tickDeliverable, endRun, htimer]⟩
  have hword' : nextWord (endRun s) = none := hword
  have hsirq : sirqDeliverable (endRun s) = false := rfl
  have hwait : streamStep (endRun s) = idleOrFire (endRun s) := by
    simp [streamStep, hword', hsirq, heldReady_none (s := endRun s) hheld]
  rw [hbelow.step_eq hcb hactive, hwait]
  simp [idleOrFire, endRun, htimer]

/-- Settles O47: the two ends of a scan, the last tick, and what holds from the end of a run on (`Over`). -/
theorem endScanResult : Obligations.EndScanResult := by
  refine ⟨fun s hbelow hcb hactive hnext => ⟨fun hmore => ?_, fun hlast => ?_⟩, fun s hdone => ?_, fun s n hended => ?_,
    fun s hended henv => hended.step_endRun henv⟩
  · rw [hbelow.step_service hcb hactive, companionService_end hnext, endScan_more hmore]
  · rw [hbelow.step_service hcb hactive, companionService_end hnext, endScan_last hlast]
  · obtain ⟨-, hidle, -⟩ := id hdone
    exact ⟨tickStep s, rfl, hdone.ended_tickStep, by rw [tickStep_last (isActive_of_idle hidle)]⟩
  · obtain ⟨t, hsteps, -, hfinal⟩ := stepTimes_over hended.over n
    exact ⟨t, hsteps, hfinal.obs, hfinal.ports, hfinal.gpio, hfinal.store, hfinal.refused, hfinal.faults⟩

/-! The companion's counters. -/

theorem CompanionInv.congr (h : CompanionInv s) (hc : t.comp = s.comp) : CompanionInv t := by
  rwa [CompanionInv, hc]

theorem tickStep_comp (s : State) : (tickStep s).comp = s.comp := by
  obtain ⟨g, e, o, hshape⟩ := tickStep_shape s
  rw [hshape]
  exact (tickPorts_frame (tickBegin s)).comp

theorem CompanionInv.tickStep (h : CompanionInv s) : CompanionInv (tickStep s) := h.congr (tickStep_comp s)

/-- A delivered SIRQ finds a handler installed, so it begins a scan (R215). -/
theorem companionInv_sirqStep (h : sirqDeliverable s = true) : CompanionInv (sirqStep s) := by
  have hassoc : s.eng.statusAssoc ≠ 0 := by
    simp only [sirqDeliverable, Bool.and_eq_true, bne_iff_ne] at h
    exact h.1.2
  exact ⟨popcount4_le _, Nat.zero_le _, fun _ => popcount4_pos hassoc⟩

/-- The last scan leaves the companion at rest; any other leaves a scan to run (R217). -/
theorem CompanionInv.endScan (h : CompanionInv s) : CompanionInv (endScan s) := by
  obtain ⟨hscans, hnext, -⟩ := h
  unfold Machine.endScan
  split
  next => exact ⟨Nat.zero_le _, hnext, nofun⟩
  next hmore => exact ⟨(Nat.sub_le _ _).trans hscans, Nat.zero_le _, fun _ => Nat.one_le_iff_ne_zero.2 hmore⟩

theorem CompanionInv.companionService (h : CompanionInv s) : CompanionInv (companionService s) := by
  obtain ⟨hscans, -, hactive⟩ := id h
  rcases companionService_cases s with ⟨i, hi, -, -, e⟩ | ⟨hlt, e⟩ | ⟨-, e⟩ <;> rw [e]
  · have hlt : s.comp.next < 4 := hi ▸ i.isLt
    exact ⟨hscans, hlt, hactive⟩
  · exact ⟨hscans, hlt, hactive⟩
  · exact h.endScan

/-- INIT puts the companion at rest (70_reset_and_hazards.md R270). -/
theorem CompanionInv.initStep (h : CompanionInv s) : CompanionInv (initStep s) := by
  rcases initStep_cases s with ⟨-, e⟩ | hr
  · rw [e]
    exact h
  · rw [initStep_eq hr, createEngine_eq]
    exact ⟨Nat.zero_le _, Nat.zero_le _, nofun⟩

theorem reqStep_comp (s : State) (port : BitVec 4) (sda scl : BitVec 8) : (reqStep port sda scl s).comp = s.comp := by
  rcases reqStep_cases s port sda scl with ⟨k, e⟩ | e | ⟨i, -, -, -, -, -, -, e⟩ <;> rw [e]
  · rfl
  · rfl
  · rcases requestHandler_cases i sda scl s with ⟨code, e⟩ | e <;> rw [e] <;> rfl

theorem relStep_comp (s : State) (port : BitVec 4) : (relStep port s).comp = s.comp := by
  rcases relStep_cases s port with e | ⟨i, -, -, ⟨-, e⟩ | ⟨-, e⟩⟩ <;> rw [e] <;> rfl

theorem xferStep_comp (s : State) (port : BitVec 4) (msgs : List Msg) : (xferStep port msgs s).comp = s.comp := by
  rcases xferStep_cases s port msgs with ⟨k, e⟩ | e | ⟨i, -, -, -, e, ⟨m, rfl⟩ | ⟨m, n, rfl⟩⟩ <;> rw [e]
  · rfl
  · rfl
  · rw [commitXfer_one]
    rfl
  · rw [commitXfer_two]
    rfl

theorem unloadStep_comp (s : State) : (unloadStep s).comp = s.comp := by
  rcases unloadStep_cases s with e | ⟨-, -, e⟩
  · rw [e, State.refuse_comp]
  · rw [e]

/-- Of the host's commands INIT alone touches the companion. -/
theorem CompanionInv.command (h : CompanionInv s) {i : Instr} {n : Nat} (hw : nextWord s = some (.ok i n))
    (ht : i ≠ .tick) (hs : i ≠ .sirq) : CompanionInv (effect i s) := by
  rcases command_cases (nextWord_format hw) ht hs with rfl | ⟨p, a, b, rfl⟩ | ⟨p, rfl⟩ | ⟨p, ms, rfl⟩ | rfl
  · exact h.initStep
  · exact h.congr (reqStep_comp s p a b)
  · exact h.congr (relStep_comp s p)
  · exact h.congr (xferStep_comp s p ms)
  · exact h.congr (unloadStep_comp s)

theorem applyEnv_comp (e : EnvEvent) (s : State) : (applyEnv e s).comp = s.comp := by
  cases e with
  | claim | release => simp only [applyEnv]; split <;> rfl
  | quiet | timerFire | hostWrite | handles | ticking => rfl

theorem CompanionInv.turn (ht : Turn s t) (h : CompanionInv s) : CompanionInv t := by
  have hf : CompanionInv (timerFire s) := h
  cases ht with
  | tick => exact h.tickStep
  | fireTick => exact hf.tickStep
  | fireTickWord n => exact hf.tickStep
  | service => exact h.companionService
  | sirq hd => exact companionInv_sirqStep hd
  | sirqWord n hd => exact companionInv_sirqStep hd
  | command i n hh hw ht hs => exact h.command hw ht hs
  | callback | pass | fire | fireWord | held | rest | refused => exact h

/-- Settles O58: SIRQ and the companion's own steps alone write the counters, and INIT puts them to rest. -/
theorem companionInvKept : Obligations.CompanionInvKept := fun _ _ h hstep =>
  step_inv (Inv := CompanionInv) (fun _ _ h => h) (fun s e h => h.congr (applyEnv_comp e s))
    (fun _ _ hturn h => h.turn hturn) hstep h

end Companion

end Sys2Proof.Machine

end

section
/-! PROOF. The schedule and the marks (60_exceptions.md): which agent's step is next and what each event of the environment does
(R241 to R244, R248 to R251, R257), that no step clears a refusal or a fault (R236, R237), and that no step raises a fault in a
state that meets the ports' invariants (R237, 10_state.md R34). -/

namespace Sys2Proof.Machine

/-! Whose step is next (R243, R244). -/

section Schedule

variable {s : State} {rest : List EnvEvent}

theorem tickDeliverable_iff : tickDeliverable s = true ↔
    s.eng.timerEnabled = true ∧ s.eng.timerPending = true ∧ s.eng.vectorOwned = true ∧ s.eng.fiqMasked = false := by
  simp [tickDeliverable, and_assoc]

theorem not_tickDeliverable_iff : tickDeliverable s = false ↔
    s.eng.timerEnabled = false ∨ s.eng.timerPending = false ∨ s.eng.vectorOwned = false ∨ s.eng.fiqMasked = true := by
  simp [tickDeliverable, or_assoc, Bool.and_eq_false_iff, -Bool.and_eq_false_imp]

theorem sirqDeliverable_iff : sirqDeliverable s = true ↔
    s.eng.statusPending = true ∧ s.eng.statusAssoc ≠ 0 ∧ s.comp.active = false := by
  simp [sirqDeliverable, and_assoc]

/-- A deliverable tick comes before every other agent. -/
theorem step_tick (henv : s.env = []) (htick : tickDeliverable s = true) : step s = exec .tick s := by
  simp [step, stepOf, agentStep, henv, htick]

/-- A deliverable SIRQ comes before a held REL and every command of the host, unless a TICK or SIRQ word stands next. -/
theorem streamStep_sirq (hsirq : sirqDeliverable s = true) (htick : ∀ n, nextWord s ≠ some (.ok .tick n))
    (hsirqWord : ∀ n, nextWord s ≠ some (.ok .sirq n)) : streamStep s = exec .sirq s := by
  unfold streamStep
  split
  next hw => exact absurd hw (hsirqWord _)
  next hw => exact absurd hw (htick _)
  next => exact if_pos hsirq

/-- An event of the environment is a step of its own. -/
theorem step_event {e : EnvEvent} (henv : s.env = e :: rest) (hquiet : e ≠ .quiet) :
    step s = .next (applyEnv e { s with env := rest }) := by
  cases e with
  | quiet => exact absurd rfl hquiet
  | timerFire | claim | release | hostWrite | handles | ticking => simp [step, stepOf, henv]

/-- A quiet slot is passed by in the same step as the agent's that comes after it. -/
theorem step_quiet (henv : s.env = .quiet :: rest) : step s = agentStep { s with env := rest } := by
  simp [step, stepOf, henv]

/-- Another owner's claim takes the vector from an engine that yields (R248). -/
theorem applyEnv_claim (s : State) :
    applyEnv .claim s = { s with eng := { s.eng with vectorOwned := s.eng.vectorOwned && !s.plat.engineYields } } := by
  rw [applyEnv]
  split
  next h =>
    rw [Bool.and_eq_true] at h
    simp [h]
  next h =>
    have hkept : (s.eng.vectorOwned && !s.plat.engineYields) = s.eng.vectorOwned := by simpa using h
    rw [hkept]

/-- Another owner's release gives the vector back to a ready engine that yields (R250, R251). -/
theorem applyEnv_release (s : State) :
    applyEnv .release s = { s with
      eng := { s.eng with vectorOwned := s.eng.vectorOwned || (s.eng.ready && s.plat.engineYields) } } := by
  rw [applyEnv]
  split
  next h =>
    rw [Bool.and_eq_true, Bool.and_eq_true] at h
    simp [h]
  next h =>
    have hkept : (s.eng.vectorOwned || (s.eng.ready && s.plat.engineYields)) = s.eng.vectorOwned := by
      cases howned : s.eng.vectorOwned
      · simpa [howned] using h
      · rfl
    rw [hkept]

end Schedule

/-- Settles O50: the agents' tests in their order, and each event by its own equation. -/
theorem priorities : Obligations.Priorities := by
  refine ⟨fun s henv => ⟨fun henabled hpending howned hmask => ?_, fun hnotick => ?_⟩, fun s rest =>
    ⟨fun h => step_event h nofun, fun h => ?_, fun h => ?_, fun a b h hwf => ?_, fun cb ctx h => step_event h nofun,
      fun on h => step_event h nofun, fun h => ?_⟩⟩
  · exact step_tick henv (tickDeliverable_iff.2 ⟨henabled, hpending, howned, hmask⟩)
  · have hbelow : BelowTick s := ⟨henv, not_tickDeliverable_iff.2 hnotick⟩
    refine ⟨fun c hcb => hbelow.step_callback hcb, fun hcb hactive => hbelow.step_service hcb hactive,
      fun hcb hactive hpending hassoc htick hsirqWord => ?_⟩
    rw [hbelow.step_eq hcb hactive, streamStep_sirq (sirqDeliverable_iff.2 ⟨hpending, hassoc, hactive⟩) htick hsirqWord]
  · rw [step_event h nofun, applyEnv_claim]
  · rw [step_event h nofun, applyEnv_release]
  · exact ⟨_, step_event h nofun, fun a' => Memory.read_write hwf a a' b, rfl⟩
  · rw [step_quiet h]
    rfl

/-! No turn loses a mark, and of all turns the tick alone can raise a fault (R236, R237). -/

section Marks

variable {s t : State}

/-- No mark is lost. -/
def LosesNoMark (s t : State) : Prop := s.refused ⊆ t.refused ∧ s.faults ⊆ t.faults

theorem LosesNoMark.refl (s : State) : LosesNoMark s s := ⟨List.Subset.refl _, List.Subset.refl _⟩

theorem LosesNoMark.trans {u : State} (h : LosesNoMark s t) (k : LosesNoMark t u) : LosesNoMark s u :=
  ⟨List.Subset.trans h.1 k.1, List.Subset.trans h.2 k.2⟩

/-- No refusal is lost, and no fault comes or goes. -/
def KeepsMarks (s t : State) : Prop := s.refused ⊆ t.refused ∧ t.faults = s.faults

theorem KeepsMarks.of_eq (hr : t.refused = s.refused) (hf : t.faults = s.faults) : KeepsMarks s t :=
  ⟨hr ▸ List.Subset.refl _, hf⟩

theorem KeepsMarks.losesNoMark (h : KeepsMarks s t) : LosesNoMark s t := ⟨h.1, h.2 ▸ List.Subset.refl _⟩

theorem keepsMarks_refuse (r : Refusal) (s : State) : KeepsMarks s (s.refuse r) := ⟨fun _ => addOnce_mem, rfl⟩

theorem keepsMarks_companionService (s : State) : KeepsMarks s (companionService s) := by
  rcases companionService_cases s with ⟨i, -, -, -, e⟩ | ⟨-, e⟩ | ⟨-, e⟩ <;> rw [e]
  · exact .of_eq rfl rfl
  · exact .of_eq rfl rfl
  · unfold endScan
    split <;> exact .of_eq rfl rfl

/-- INIT keeps the marks (10_state.md R40, 60_exceptions.md R236, R237). -/
theorem keepsMarks_initStep (s : State) : KeepsMarks s (initStep s) := by
  rcases initStep_cases s with ⟨-, e⟩ | hr
  · rw [e]
    exact keepsMarks_refuse _ s
  · rw [initStep_eq hr, createEngine_eq]
    exact .of_eq rfl rfl

theorem keepsMarks_reqStep (port : BitVec 4) (sda scl : BitVec 8) (s : State) : KeepsMarks s (reqStep port sda scl s) := by
  rcases reqStep_cases s port sda scl with ⟨k, e⟩ | e | ⟨i, -, -, -, -, -, -, e⟩ <;> rw [e]
  · exact .of_eq rfl rfl
  · exact keepsMarks_refuse _ s
  · rcases requestHandler_cases i sda scl s with ⟨code, e⟩ | e <;> rw [e] <;> exact .of_eq rfl rfl

theorem keepsMarks_relStep (port : BitVec 4) (s : State) : KeepsMarks s (relStep port s) := by
  rcases relStep_cases s port with e | ⟨i, -, -, ⟨-, e⟩ | ⟨-, e⟩⟩ <;> rw [e]
  · exact keepsMarks_refuse _ s
  · exact .of_eq rfl rfl
  · exact .of_eq rfl rfl

theorem keepsMarks_xferStep (port : BitVec 4) (msgs : List Msg) (s : State) : KeepsMarks s (xferStep port msgs s) := by
  rcases xferStep_cases s port msgs with ⟨k, e⟩ | e | ⟨i, -, -, -, e, ⟨m, rfl⟩ | ⟨m, n, rfl⟩⟩ <;> rw [e]
  · exact .of_eq rfl rfl
  · exact keepsMarks_refuse _ s
  · rw [commitXfer_one]
    exact .of_eq rfl rfl
  · rw [commitXfer_two]
    exact .of_eq rfl rfl

theorem keepsMarks_unloadStep (s : State) : KeepsMarks s (unloadStep s) := by
  rcases unloadStep_cases s with e | ⟨-, -, e⟩ <;> rw [e]
  · exact keepsMarks_refuse _ s
  · exact .of_eq rfl rfl

theorem keepsMarks_command {i : Instr} {n : Nat} (hw : nextWord s = some (.ok i n)) (ht : i ≠ .tick) (hs : i ≠ .sirq) :
    KeepsMarks s (effect i s) := by
  rcases command_cases (nextWord_format hw) ht hs with rfl | ⟨p, a, b, rfl⟩ | ⟨p, rfl⟩ | ⟨p, ms, rfl⟩ | rfl
  · exact keepsMarks_initStep s
  · exact keepsMarks_reqStep p a b s
  · exact keepsMarks_relStep p s
  · exact keepsMarks_xferStep p ms s
  · exact keepsMarks_unloadStep s

theorem keepsMarks_applyEnv (e : EnvEvent) (s : State) : KeepsMarks s (applyEnv e s) := by
  cases e with
  | claim => rw [applyEnv_claim]; exact .of_eq rfl rfl
  | release => rw [applyEnv_release]; exact .of_eq rfl rfl
  | quiet | timerFire | hostWrite | handles | ticking => exact .of_eq rfl rfl

/-- The marks after a tick are those after its turns. -/
theorem tickStep_marks (s : State) :
    (tickStep s).refused = (tickPorts (tickBegin s)).refused ∧ (tickStep s).faults = (tickPorts (tickBegin s)).faults := by
  obtain ⟨g, e, o, hshape⟩ := tickStep_shape s
  rw [hshape]
  exact ⟨rfl, rfl⟩

/-- A turn keeps the marks, or its marks are those of a tick, with or without the timer's fire before it. -/
theorem turn_marks (ht : Turn s t) : KeepsMarks s t
    ∨ ∃ u, (u = s ∨ u = timerFire s) ∧ t.refused = (tickStep u).refused ∧ t.faults = (tickStep u).faults := by
  cases ht with
  | tick => exact .inr ⟨s, .inl rfl, rfl, rfl⟩
  | fireTick | fireTickWord => exact .inr ⟨timerFire s, .inr rfl, rfl, rfl⟩
  | service => exact .inl (keepsMarks_companionService s)
  | refused n r => exact .inl (keepsMarks_refuse r s)
  | command i n hh hw ht hs => exact .inl (keepsMarks_command hw ht hs)
  | callback | sirq | sirqWord | pass | fire | fireWord | held | rest => exact .inl (.of_eq rfl rfl)

theorem losesNoMark_tickStep (s : State) : LosesNoMark s (tickStep s) := by
  have hturns := tickPorts_frame (tickBegin s)
  obtain ⟨hrefused, hfaults⟩ := tickStep_marks s
  rw [LosesNoMark, hrefused, hfaults]
  exact ⟨hturns.refused, hturns.faults⟩

theorem losesNoMark_turn (ht : Turn s t) : LosesNoMark s t := by
  rcases turn_marks ht with hkept | ⟨u, hu, hrefused, hfaults⟩
  · exact hkept.losesNoMark
  · rw [LosesNoMark, hrefused, hfaults]
    rcases hu with rfl | rfl
    · exact losesNoMark_tickStep _
    · exact losesNoMark_tickStep (timerFire s)

/-- Settles O53: the turns of the ports in a tick keep every mark and may add to them; every other turn adds at most a refusal. -/
theorem marksKept : Obligations.MarksKept := by
  intro s t hstep
  have hmarks : LosesNoMark s t := step_inv (Inv := LosesNoMark s) (fun _ _ h => h)
    (fun u e h => h.trans (keepsMarks_applyEnv e u).losesNoMark) (fun _ _ hturn h => h.trans (losesNoMark_turn hturn))
    hstep (LosesNoMark.refl s)
  obtain ⟨hrefused, hfaults⟩ := hmarks
  exact ⟨fun _ hr => hrefused hr, fun _ hf => hfaults hf⟩

end Marks

/-! A PortStep with the cursor inside the message raises no fault (20_memory.md R72). -/

section NoFault

variable {s t : State} {i : Fin 4}

@[simp] theorem wbitAction_faults (i : Fin 4) (s : State) : (wbitAction i s).faults = s.faults := by
  simp only [wbitAction]
  repeat' split
  all_goals simp

@[simp] theorem txSetup_faults (i : Fin 4) (s : State) : (txSetup i s).faults = s.faults := by simp [txSetup]

theorem noteBufRead_of_lt {k : BitVec 1} {j : BitVec 16} (h : j < ((s.port i).msg k).len) : noteBufRead i k j s = s :=
  if_pos h

theorem writeStep_faults (h : (s.port i).bufOffset < (s.port i).cur.len) : (writeStep i s).faults = s.faults := by
  have hread : noteBufRead i (s.port i).curMsg (s.port i).bufOffset (clockGen i s) = clockGen i s :=
    noteBufRead_of_lt (by rwa [msg_clockGen])
  simp [writeStep, hread]

theorem rbitAction_faults (h : (s.port i).bufOffset < (s.port i).cur.len) : (rbitAction i s).faults = s.faults := by
  simp only [rbitAction]
  split
  · rfl
  · split
    · rw [State.setPort_faults, bufWrite_of_lt (by rw [State.port_setPort_self, port_noteSample]; exact h)]
      simp
    · simp

theorem readStep_faults (h : (s.port i).bufOffset < (s.port i).cur.len) : (readStep i s).faults = s.faults := by
  rw [readStep_eq, rbitAction_faults (by rw [port_rxSetup]; exact h)]
  simp [rxSetup]

theorem rbitStep_faults (h : (s.port i).bufOffset < (s.port i).cur.len) : (rbitStep i s).faults = s.faults := by
  rw [rbitStep, rbitAction_faults (by rwa [cur_clockGen, port_clockGen_self]), clockGen_faults]

theorem portStep_faults
    (h : (s.port i).state ∈ [.write, .read, .rbit, .wait] → (s.port i).bufOffset < (s.port i).cur.len) :
    (portStep i s).faults = s.faults := by
  unfold portStep
  split <;> rename_i hs
  · rfl
  · rfl
  · simp [start2Step]
  · simp [addrStep]
  · exact writeStep_faults (h (by simp [hs]))
  · exact readStep_faults (h (by simp [hs]))
  · simp [wbitStep]
  · exact rbitStep_faults (h (by simp [hs]))
  · simp only [wackStep]
    repeat' split
    all_goals simp
  · simp only [rackStep]
    repeat' split
    all_goals simp
  · simp [stopStep_eq]
  · simp only [stop2Step]
    split <;> simp
  · simp [stop3Step]
  · simp [restartStep]
  · simp [waitStep]
  · simp [completeStep]

/-- The ports' invariants hold the cursor inside the message wherever a PortStep reads or writes there (10_state.md R34). -/
theorem PortsInv.tickPort_faults (h : PortsInv s) (i : Fin 4) : (Machine.tickPort i s).faults = s.faults := by
  cases ha : s.isActive i
  · rw [tickPort_skip ha]
  · obtain ⟨-, -, -, -, -, hcursor, -⟩ := h.1 i
    rw [tickPort_active ha]
    exact portStep_faults (s := { s with eng.cur := i }) hcursor

theorem PortsInv.tickStep_faults (h : PortsInv s) : (Machine.tickStep s).faults = s.faults := by
  have h0 : PortsInv (tickBegin s) := h.congr rfl rfl rfl rfl
  have h1 := h0.tickPort 0
  have h2 := h1.tickPort 1
  have h3 := h2.tickPort 2
  rw [(tickStep_marks s).2, tickPorts, h3.tickPort_faults, h2.tickPort_faults, h1.tickPort_faults, h0.tickPort_faults]
  rfl

theorem PortsInv.turn_faults (h : PortsInv s) (ht : Turn s t) : t.faults = s.faults := by
  rcases turn_marks ht with ⟨-, hf⟩ | ⟨u, hu, -, hf⟩
  · exact hf
  · have hfire : PortsInv (timerFire s) := h.congr rfl rfl rfl rfl
    rw [hf]
    rcases hu with rfl | rfl
    · exact h.tickStep_faults
    · exact hfire.tickStep_faults

/-- Settles O54: only the ports' turns in a tick can raise a fault, and there the invariants hold the cursor inside the
message. -/
theorem noFault : Obligations.NoFault := by
  intro s t h hstep
  have ht : PortsInv t ∧ t.faults = s.faults :=
    step_inv (Inv := fun u => PortsInv u ∧ u.faults = s.faults) (fun _ _ h => ⟨h.1.congr rfl rfl rfl rfl, h.2⟩)
      (fun u e h => ⟨h.1.applyEnv e, (keepsMarks_applyEnv e u).2.trans h.2⟩)
      (fun _ _ hturn h => ⟨h.1.turn hturn, (h.1.turn_faults hturn).trans h.2⟩) hstep ⟨h, rfl⟩
  exact ht.2

end NoFault

end Sys2Proof.Machine

end

section
/-! PROOF. What INIT leaves, and the state at reset (70_reset_and_hazards.md). -/

namespace Sys2Proof.Machine

variable {s : State}

/-! INIT. -/

theorem createEngine_plat : (createEngine s).plat = s.plat := by rw [createEngine_eq]

/-- Of the GPIO words engine creation writes those that drive the status pin low, and no other. -/
theorem createEngine_gpio :
    (createEngine s).gpio = (drive .host (gpioPin s.plat.statusPin) false s).gpio := by
  rw [createEngine_eq, drive_eq]

theorem initStep_plat (h : s.eng.ready = false) : (initStep s).plat = s.plat := by
  rw [initStep_eq h, createEngine_plat]

theorem initStep_gpio (h : s.eng.ready = false) :
    (initStep s).gpio = (drive .host (gpioPin s.plat.statusPin) false s).gpio := by
  rw [initStep_eq h, createEngine_gpio]

theorem initStep_drivenTo (h : s.eng.ready = false) : DrivenTo (initStep s) s.plat.statusPin false :=
  drivenTo_drive.congr (initStep_gpio h) ((initStep_plat h).trans (drive_plat s _ _ _).symm)

theorem initStep_pinsKept (h : s.eng.ready = false) : PinsKept s (initStep s) [s.plat.statusPin] :=
  pinsKept_drive.congr (initStep_gpio h) ((initStep_plat h).trans (drive_plat s _ _ _).symm)

theorem initStep_of_ready (h : s.eng.ready = true) : initStep s = s.refuse .reInit := if_pos h

/-- Settles O35: INIT is a refusal, or engine creation, whose only GPIO writes are the drive of the status pin, and then the
claim. -/
theorem initResult : Obligations.InitResult := by
  refine ⟨fun s h => ?_, fun s h => ?_⟩
  · rw [← initStep_of_ready h]
    rfl
  · refine ⟨initStep s, rfl, initStep_drivenTo h, initStep_pinsKept h, ?_⟩
    rw [driveEntries_eq, initStep_eq h, createEngine_eq]
    rfl

/-! The state at reset. -/

section Unloaded

variable (plat : Platform) (gpio : Gpio)

theorem port_unloaded (i : Fin 4) : (State.unloaded plat gpio).port i = Port.fresh := by
  simp [State.port, State.unloaded]

theorem isRequested_unloaded (i : Fin 4) : (State.unloaded plat gpio).isRequested i = false := by
  simp [State.isRequested, State.unloaded, Engine.unloaded]

theorem memInv_unloaded : MemInv (State.unloaded plat gpio) := ⟨rfl, rfl⟩

/-- Every port is fresh and not requested, and no REL holds. -/
theorem portsInv_unloaded : PortsInv (State.unloaded plat gpio) := by
  refine ⟨fun i => portInv_iff.2 ?_, Nat.zero_le 1, nofun⟩
  rw [port_unloaded, isRequested_unloaded]
  exact recordInv_fresh _

/-- No flag is set, and no port is active. -/
theorem engineInv_unloaded : EngineInv (State.unloaded plat gpio) := by
  refine ⟨fun _ => ⟨rfl, rfl, rfl⟩, rfl, fun i hi => ?_, rfl⟩
  exact absurd rfl (requested_ne_zero (requested_of_isActive hi))

theorem companionInv_unloaded : CompanionInv (State.unloaded plat gpio) := ⟨Nat.zero_le 4, Nat.zero_le 4, nofun⟩

theorem pinsInv_unloaded : PinsInv (State.unloaded plat gpio) := pinsInv_of_unrequested rfl nofun

end Unloaded

/-- Settles O60: the flags are literals, `Platform.meets_r8` is R8, and with no port requested and no memory written every
invariant holds. -/
theorem resetUnloaded : Obligations.ResetUnloaded := by
  have hidle : ∀ i, (State.reset.port i).state = .idle := fun i => congrArg Port.state (port_unloaded _ _ i)
  exact ⟨⟨rfl, rfl, rfl, rfl, rfl, rfl, hidle, rfl, rfl, rfl, rfl⟩, Config.platform.meets_r8, memInv_unloaded _ _,
    portsInv_unloaded _ _, engineInv_unloaded _ _, companionInv_unloaded _ _, pinsInv_unloaded _ _⟩

end Sys2Proof.Machine

end
